-- ==== Sys2Proof/Word.lean ====
section
/-! DEFINITION. The widths of the block: bytes, 16-bit words (samples, counts), 32-bit words (registers). -/

namespace Sys2Proof

/-- An 8-bit byte of MEM or of a record. -/
abbrev Byte := BitVec 8

/-- A 16-bit word: a sample (R84), a count, an offset word, a bit per channel. -/
abbrev Word16 := BitVec 16

/-- A 32-bit word: a register, an address, a command (R21, R111). -/
abbrev Word := BitVec 32

/-- A channel number, 0..15 (R5: NCH = 16). -/
abbrev Chan := Fin 16

end Sys2Proof
end

