-- ==== Sys2Proof/Config.lean ====
section
/-! DEFINITION. What the spec leaves to the implementation or to the environment: the parameters of R6
and the draws of R17. Every opaque constant has no body, so a claim holds whatever its value is. -/

namespace Sys2Proof

/-- The parameters CONFIGURE and `compute_schedule` read (R6). -/
structure Params where
  /-- First byte address of the addressable window. -/
  addrMin : Nat
  /-- Last byte address of the addressable window. -/
  addrMax : Nat
  /-- Most samples one buffer half may hold. -/
  lenMax : Nat
  /-- DELAY_TABLE: gain code to nanoseconds. -/
  delay : Nat → Nat

namespace Config

/-- Half of ADDR_MIN: ADDR_MIN is any even address below 2^32 (R6). -/
opaque addrMinHalf : BitVec 31

/-- How far ADDR_MAX lies above ADDR_MIN (R6). -/
opaque addrSpan : BitVec 32

/-- LEN_MAX before its lower bound 1 is applied (R6). -/
opaque lenMaxRaw : BitVec 16

/-- The entries from which DELAY_TABLE is built as a running maximum (R6: monotone, 0 at code 0). -/
opaque delayRaw : Nat → BitVec 16

/-- CAL_TIMEOUT_POLLS before its lower bound 1 is applied (R6). -/
opaque calTimeoutPollsRaw : Nat

/-- The contents of a MEM byte that nothing has written (R17, R312: any value), by its address. -/
opaque powerUpByte : Nat → Byte

/-- T_SE_OFF of R190, a factory value. -/
opaque trimSeOffset : Word16

/-- T_SE_GAIN of R190, a factory value. -/
opaque trimSeGain : Word

/-- T_DIFF_OFF of R190, a factory value. -/
opaque trimDiffOffset : Word16

/-- T_DIFF_GAIN of R190, a factory value. -/
opaque trimDiffGain : Word

/-- The draw `ready_seen` of R190, fresh for each CAL_LOAD that asks: applied to the model's counter. -/
opaque readySeen : Nat → Bool

/-- What `round_pow2` answers at 0, where R154 states no result (DESIGN CHOICE, log entry 28, safe). -/
opaque roundPow2AtZero : Nat

/-- What `assign_offsets` answers for no factor at all, where R181's M is the maximum of nothing (DESIGN CHOICE, log
entry 28, safe). -/
opaque offsetsOfNone : Option (List Nat)

/-- The running maximum of `raw` over 1..g: every monotone table with value 0 at 0 is one (R6). -/
def runningMax (raw : Nat → BitVec 16) : Nat → Nat
  | 0 => 0
  | g + 1 => max (runningMax raw g) (raw (g + 1)).toNat

/-- CAL_TIMEOUT_POLLS ≥ 1 (R6). CAL_LOAD does not iterate; the parameter only names the bound (R193). -/
def calTimeoutPolls : Nat := max 1 calTimeoutPollsRaw

/-- The parameters of this machine: each opaque, each inside the constraint R6 states for it. -/
def params : Params where
  addrMin := 2 * addrMinHalf.toNat
  addrMax := min (2 ^ 32 - 1) (2 * addrMinHalf.toNat + addrSpan.toNat)
  lenMax := max 1 lenMaxRaw.toNat
  delay := runningMax delayRaw

end Config

end Sys2Proof
end

