-- ==== Sys2Proof/Syntax.lean ====
section
/-! DEFINITION. The syntax: one constructor of `Instr` per row of spec/opcode_table.json, the small
enumerations their operands use, and the record form in which a step is handed to the machine. -/

namespace Sys2Proof

/-- Half of a ping-pong buffer (R122: 0 ping, 1 pong). -/
inductive Half where
  | ping
  | pong
  deriving DecidableEq, Repr

/-- The four application events (R121). -/
inductive EventKind where
  | dataReady
  | sampleGroupComplete
  | bufferFull
  | transferError
  deriving DecidableEq, Repr

/-- One entry of the EVENTS trace: a channel and an event (R9, R121). -/
structure Event where
  channel : Chan
  kind : EventKind
  deriving DecidableEq, Repr

/-- One record of the HWOPS trace (R125). -/
inductive Hwop where
  | setClockDivider (on total : Word)
  | programBuffer (channel : Chan) (half : Half) (addr : Word) (len : Word16)
  | enableChannel (channel : Chan)
  | unmaskInterrupt (channel : Chan)
  | readInterruptStatus (bitmask : Word16)
  | clearInterrupt (channel : Chan)
  | maskInterrupt (channel : Chan)
  | setClockEnable (b : Bool)
  deriving DecidableEq, Repr

/-- What `compute_schedule` reads of one channel (R150): its rate in hertz, gain code and DAC bit. -/
structure SchedChan where
  rate : Nat
  gain : Byte
  dac : Bool
  deriving DecidableEq, Repr

/-- The operands of `compute_schedule` (R150); n is the length of `chans`. -/
structure SchedArgs where
  base : Nat
  chans : List SchedChan
  ns0 : Nat
  static : Bool
  deriving DecidableEq, Repr

/-- The answers of the TRIM agent (R190). -/
structure TrimAnswers where
  ready : Bool
  seOffset : Word16
  seGain : Word
  diffOffset : Word16
  diffGain : Word
  deriving DecidableEq, Repr

/-- The rows of spec/opcode_table.json, format by format in the table's order. -/
inductive Instr where
  -- format CMD (R111, R112): a 32-bit word written to CMD
  | nop
  | calLoad
  | configure
  | start
  | stop
  | deinit
  | reservedCmd (v : Word)
  -- format TRACE (R126): the steps of the agents
  | wr (offset : Word16) (value : Word)
  | rd (offset : Word16) (value : Word)
  | svc
  | eng (c : Chan) (h : Half) (k w : Word16)
  | half (c : Chan)
  | xerr (c : Chan)
  | trim (answers : TrimAnswers)
  | reset
  -- format HWOP (R125): the primitives toward the ADC core
  | setClockDivider (on total : Word)
  | programBuffer (channel : Chan) (half : Half) (addr : Word) (len : Word16)
  | enableChannel (channel : Chan)
  | unmaskInterrupt (channel : Chan)
  | readInterruptStatus (bitmask : Word16)
  | clearInterrupt (channel : Chan)
  | maskInterrupt (channel : Chan)
  | setClockEnable (b : Bool)
  -- format EVT (R121): the application events
  | dataReady (channel : Chan)
  | sampleGroupComplete (channel : Chan)
  | bufferFull (channel : Chan)
  | transferError (channel : Chan)
  -- format FUNC (R110): the pure functions, which have no encoding
  | computeSchedule (args : SchedArgs)
  | roundPow2 (s : Nat)
  | assignOffsets (sf : List Nat)
  | apply (raw : Word16) (differential : Bool)
  deriving DecidableEq, Repr

/-- The encoded formats of the opcode table (R110); FUNC has no encoding. -/
inductive Format where
  | cmd
  | trace
  | hwop
  | evt
  deriving DecidableEq, Repr

/-- One record as it is stored: its format and its bytes, the first at the lowest address. -/
structure Slot where
  fmt : Format
  bytes : List Byte
  deriving DecidableEq, Repr

/-- The globally named registers (R22). -/
inductive GlobalReg where
  | cmd | status | result | baseClk | mode | onCycles | totalCycles
  | irqStatus | irqMask | errStatus | fault | actBaseClk | actMode | chEnable
  | calSeOffset | calSeGain | calDiffOffset | calDiffGain
  deriving DecidableEq, Repr

/-- The registers of a channel bank (R23). -/
inductive BankReg where
  | reqRate | reqCfg | pingAddr | pongAddr | pingLen | pongLen | rxAddr
  | sched | achRate | fill | actPingAddr | actPongAddr | actLen | actRxAddr | actCfg
  deriving DecidableEq, Repr

/-- A register of the block: a global one, or one of channel i's bank. -/
inductive Reg where
  | glob (g : GlobalReg)
  | bank (i : Chan) (r : BankReg)
  deriving DecidableEq, Repr

end Sys2Proof
end

