-- ==== Sys2Proof/WellFormed.lean ====
section
/-! DEFINITION. Which terms of `Instr` the spec's encodings and operand ranges admit. Channel numbers,
halves and flags are well formed by their types; what is left is checked here. -/

namespace Sys2Proof

/-- R113: the reserved opcodes are 0x0000_0006 to 0xFFFF_FFFF. -/
def isReservedOpcode (v : Word) : Bool := decide (6 ≤ v.toNat)

/-- R150: `5,000,000 ≥ rate[0] ≥ rate[1] ≥ … ≥ 1`, checked from the front with the bound so far. -/
def ratesOk : Nat → List Nat → Bool
  | _, [] => true
  | bound, r :: rs => decide (1 ≤ r) && decide (r ≤ bound) && ratesOk r rs

/-- R150: the preconditions of `compute_schedule`. -/
def SchedArgs.ok (a : SchedArgs) : Bool :=
  decide (1 ≤ a.base) && decide (a.base < 2 ^ 32) &&
  decide (1 ≤ a.chans.length) && decide (a.chans.length ≤ 16) &&
  decide (1 ≤ a.ns0) && decide (a.ns0 ≤ 1023) &&
  ratesOk 5000000 (a.chans.map (·.rate))

/-- R180: the operands of `assign_offsets`, n in 1..16 and every factor in 2..65535. The function is total beyond
them (R180, R184). -/
def factorsOk (sf : List Nat) : Bool :=
  decide (1 ≤ sf.length) && decide (sf.length ≤ 16) && sf.all fun x => decide (2 ≤ x) && decide (x ≤ 65535)

/-- Well-formed instructions: reserved opcodes are at least 6 (R113) and the pure functions are called
inside their stated operands (R150, R154, R180). -/
def Instr.wellFormed : Instr → Bool
  | .nop => true
  | .calLoad => true
  | .configure => true
  | .start => true
  | .stop => true
  | .deinit => true
  | .reservedCmd v => isReservedOpcode v
  | .wr _ _ => true
  | .rd _ _ => true
  | .svc => true
  | .eng _ _ _ _ => true
  | .half _ => true
  | .xerr _ => true
  | .trim _ => true
  | .reset => true
  | .setClockDivider _ _ => true
  | .programBuffer _ _ _ _ => true
  | .enableChannel _ => true
  | .unmaskInterrupt _ => true
  | .readInterruptStatus _ => true
  | .clearInterrupt _ => true
  | .maskInterrupt _ => true
  | .setClockEnable _ => true
  | .dataReady _ => true
  | .sampleGroupComplete _ => true
  | .bufferFull _ => true
  | .transferError _ => true
  | .computeSchedule a => a.ok
  | .roundPow2 s => decide (1 ≤ s)
  | .assignOffsets sf => factorsOk sf
  | .apply _ _ => true

/-- The instruction has a record; the pure functions have none (R110). -/
def Instr.hasRecord : Instr → Bool
  | .computeSchedule _ => false
  | .roundPow2 _ => false
  | .assignOffsets _ => false
  | .apply _ _ => false
  | _ => true

end Sys2Proof
end

