-- ==== Sys2Proof/Decode.lean ====
section
/-! DEFINITION. Decoding a record into an instruction, total on any bytes and rejecting by name; then the
encoder, the words of the outputs (events, result codes), and the host's table words. -/

namespace Sys2Proof

/-- Why a record is not a step or a primitive (U19: a decoder meeting one is stuck). -/
inductive DecodeError where
  /-- The record holds no byte, or its first byte is no tag of its format (R125, R126). -/
  | badTag
  /-- The record has another length than its tag's operands need. -/
  | badLength
  /-- A channel operand is not 0..15 (R5). -/
  | badChannel
  /-- A half operand is neither 0 nor 1 (R122). -/
  | badHalf
  /-- A one-bit operand is neither 0 nor 1. -/
  | badFlag
  /-- An argument does not fit the field it stands for. -/
  | badArgument
  /-- An event word with bits 31:10 not all zero (R121). -/
  | badEvent
  deriving DecidableEq, Repr

/-! ### Byte order: lowest byte first. R126 says so of TRACE operands only; that CMD and EVT words (log entry 29)
and HWOP arguments (log entry 7) are stored the same way is the model's DESIGN CHOICE. -/

/-- Two bytes, the first the low one, as a 16-bit word. -/
def le16 (b0 b1 : Byte) : Word16 := b1 ++ b0

/-- Four bytes, the first the lowest one, as a 32-bit word. -/
def le32 (b0 b1 b2 b3 : Byte) : Word := le16 b2 b3 ++ le16 b0 b1

/-- The bytes of a 16-bit word, lowest first. -/
def bytes16 (v : Word16) : List Byte := [v.extractLsb' 0 8, v.extractLsb' 8 8]

/-- The bytes of a 32-bit word, lowest first. -/
def bytes32 (v : Word) : List Byte :=
  [v.extractLsb' 0 8, v.extractLsb' 8 8, v.extractLsb' 16 8, v.extractLsb' 24 8]

/-! ### Operand fields -/

/-- A channel operand: 0..15 (R5). -/
def chanOf (n : Nat) : Except DecodeError Chan :=
  if h : n < 16 then .ok ⟨n, h⟩ else .error .badChannel

/-- A half operand: 0 ping, 1 pong (R122). -/
def halfOf (n : Nat) : Except DecodeError Half :=
  if n = 0 then .ok .ping else if n = 1 then .ok .pong else .error .badHalf

/-- A one-bit operand. -/
def flagOf (n : Nat) : Except DecodeError Bool :=
  if n = 0 then .ok false else if n = 1 then .ok true else .error .badFlag

/-- A 32-bit argument that stands for a 16-bit quantity (a length, a bit mask). -/
def arg16 (v : Word) : Except DecodeError Word16 :=
  if v.toNat < 65536 then .ok (v.setWidth 16) else .error .badArgument

/-- The code of a half (R122). -/
def Half.code : Half → Nat
  | .ping => 0
  | .pong => 1

/-- The other half: what toggling `active_half` gives (R230). -/
def Half.other : Half → Half
  | .ping => .pong
  | .pong => .ping

/-! ### Format CMD (R111, R112, R113) -/

/-- R112: the whole 32-bit word is the opcode; every value above 5 is reserved. -/
def decodeCmd (w : Word) : Instr :=
  match w.toNat with
  | 0 => .nop
  | 1 => .calLoad
  | 2 => .configure
  | 3 => .start
  | 4 => .stop
  | 5 => .deinit
  | _ => .reservedCmd w

/-- The record of a CMD word: four bytes, lowest first (DESIGN CHOICE, log entry 29: R111 gives the word and no byte
form; safe). -/
def decodeCmdBytes : List Byte → Except DecodeError Instr
  | [b0, b1, b2, b3] => .ok (decodeCmd (le32 b0 b1 b2 b3))
  | _ => .error .badLength

/-! ### Format TRACE (R126) -/

/-- `wr`: offset (2 bytes), value (4 bytes). -/
def decodeWr : List Byte → Except DecodeError Instr
  | [o0, o1, v0, v1, v2, v3] => .ok (.wr (le16 o0 o1) (le32 v0 v1 v2 v3))
  | _ => .error .badLength

/-- `rd`: offset (2 bytes), value (4 bytes). -/
def decodeRd : List Byte → Except DecodeError Instr
  | [o0, o1, v0, v1, v2, v3] => .ok (.rd (le16 o0 o1) (le32 v0 v1 v2 v3))
  | _ => .error .badLength

/-- A step without operands (`svc`, `reset`). -/
def decodeBare (i : Instr) : List Byte → Except DecodeError Instr
  | [] => .ok i
  | _ => .error .badLength

/-- `eng`: c (1 byte), h (1 byte), k (2 bytes), w (2 bytes). -/
def decodeEng : List Byte → Except DecodeError Instr
  | [c, h, k0, k1, w0, w1] =>
    match chanOf c.toNat, halfOf h.toNat with
    | .ok c, .ok h => .ok (.eng c h (le16 k0 k1) (le16 w0 w1))
    | .error e, _ => .error e
    | _, .error e => .error e
  | _ => .error .badLength

/-- A record whose one operand is a channel byte (`half`, `xerr`). -/
def decodeChanByte (f : Chan → Instr) : List Byte → Except DecodeError Instr
  | [c] => (chanOf c.toNat).map f
  | _ => .error .badLength

/-- `trim`: ready (1 byte), se offset (2), se gain (4), diff offset (2), diff gain (4). -/
def decodeTrim : List Byte → Except DecodeError Instr
  | [r, so0, so1, sg0, sg1, sg2, sg3, do0, do1, dg0, dg1, dg2, dg3] =>
    (flagOf r.toNat).map fun ready =>
      .trim { ready, seOffset := le16 so0 so1, seGain := le32 sg0 sg1 sg2 sg3,
              diffOffset := le16 do0 do1, diffGain := le32 dg0 dg1 dg2 dg3 }
  | _ => .error .badLength

/-- R126: the first byte is the tag, matched in full; every other tag value is not a step. -/
def decodeTrace : List Byte → Except DecodeError Instr
  | [] => .error .badTag
  | tag :: ops =>
    match tag.toNat with
    | 0x01 => decodeWr ops
    | 0x02 => decodeRd ops
    | 0x10 => decodeBare .svc ops
    | 0x20 => decodeEng ops
    | 0x21 => decodeChanByte .half ops
    | 0x22 => decodeChanByte .xerr ops
    | 0x23 => decodeTrim ops
    | 0x30 => decodeBare .reset ops
    | _ => .error .badTag

/-! ### Format HWOP (R125): a tag byte, then each argument as four little-endian bytes
(DESIGN CHOICE, log entry 7: R125 gives the arguments no width; safe) -/

/-- The arguments of a primitive, four bytes each. -/
def words : List Byte → Except DecodeError (List Word)
  | [] => .ok []
  | b0 :: b1 :: b2 :: b3 :: rest => (words rest).map (le32 b0 b1 b2 b3 :: ·)
  | _ => .error .badLength

/-- `program_buffer(channel, half, addr, len)`. -/
def hwopProgramBuffer (c h a l : Word) : Except DecodeError Instr :=
  match chanOf c.toNat, halfOf h.toNat, arg16 l with
  | .ok c, .ok h, .ok l => .ok (.programBuffer c h a l)
  | .error e, _, _ => .error e
  | _, .error e, _ => .error e
  | _, _, .error e => .error e

/-- R125: which primitive a tag and its arguments are. -/
def decodeHwopArgs (tag : Nat) (args : List Word) : Except DecodeError Instr :=
  match tag, args with
  | 0, [on, total] => .ok (.setClockDivider on total)
  | 1, [c, h, a, l] => hwopProgramBuffer c h a l
  | 2, [c] => (chanOf c.toNat).map .enableChannel
  | 3, [c] => (chanOf c.toNat).map .unmaskInterrupt
  | 4, [m] => (arg16 m).map .readInterruptStatus
  | 5, [c] => (chanOf c.toNat).map .clearInterrupt
  | 6, [c] => (chanOf c.toNat).map .maskInterrupt
  | 7, [b] => (flagOf b.toNat).map .setClockEnable
  | t, _ => if t < 8 then .error .badLength else .error .badTag

/-- A primitive's record. -/
def decodeHwop : List Byte → Except DecodeError Instr
  | [] => .error .badTag
  | tag :: rest =>
    match words rest with
    | .ok args => decodeHwopArgs tag.toNat args
    | .error e => .error e

/-! ### Format EVT (R121) -/

/-- R121: CHANNEL = e[7:0] (0..15), EVENT = e[9:8], e[31:10] = 0. -/
def decodeEvt (e : Word) : Except DecodeError Instr :=
  match e.toNat / 256 with
  | 0 => (chanOf (e.toNat % 256)).map .dataReady
  | 1 => (chanOf (e.toNat % 256)).map .sampleGroupComplete
  | 2 => (chanOf (e.toNat % 256)).map .bufferFull
  | 3 => (chanOf (e.toNat % 256)).map .transferError
  | _ => .error .badEvent

/-- The record of an event word: four bytes, lowest first (DESIGN CHOICE, log entry 29: R121 gives the word and no
byte form; safe). -/
def decodeEvtBytes : List Byte → Except DecodeError Instr
  | [b0, b1, b2, b3] => decodeEvt (le32 b0 b1 b2 b3)
  | _ => .error .badLength

/-- The decoder: each format by its own rule. -/
def decode (s : Slot) : Except DecodeError Instr :=
  match s.fmt with
  | .cmd => decodeCmdBytes s.bytes
  | .trace => decodeTrace s.bytes
  | .hwop => decodeHwop s.bytes
  | .evt => decodeEvtBytes s.bytes

/-! ### The encoder, from the same tables -/

/-- A number as a 32-bit word. -/
def natWord (n : Nat) : Word := BitVec.ofNat 32 n

/-- A flag as a number. -/
def flagCode (b : Bool) : Nat := if b then 1 else 0

/-- A CMD record: the opcode of R112 in the bytes of log entry 29. -/
def cmdSlot (opcode : Word) : Slot := { fmt := .cmd, bytes := bytes32 opcode }

/-- A TRACE record (R126): tag and operand bytes. -/
def traceSlot (tag : Byte) (ops : List Byte) : Slot := { fmt := .trace, bytes := tag :: ops }

/-- A HWOP record (R125): tag and arguments in the bytes of log entry 7. -/
def hwopSlot (tag : Byte) (args : List Word) : Slot := { fmt := .hwop, bytes := tag :: args.flatMap bytes32 }

/-- The code of an event (R121). -/
def EventKind.code : EventKind → Nat
  | .dataReady => 0
  | .sampleGroupComplete => 1
  | .bufferFull => 2
  | .transferError => 3

/-- R121: the event word, CHANNEL in bits 7:0 and EVENT in bits 9:8. -/
def Event.word (e : Event) : Word := natWord (e.channel.val + 256 * e.kind.code)

/-- An EVT record: the word of R121 in the bytes of log entry 29. -/
def evtSlot (k : EventKind) (c : Chan) : Slot := { fmt := .evt, bytes := bytes32 (Event.word ⟨c, k⟩) }

/-- A channel as a byte. -/
def chanByte (c : Chan) : Byte := BitVec.ofNat 8 c.val

/-- The record of an instruction; none for the pure functions, which have no encoding (R110). -/
def encode : Instr → Option Slot
  | .nop => some (cmdSlot 0)
  | .calLoad => some (cmdSlot 1)
  | .configure => some (cmdSlot 2)
  | .start => some (cmdSlot 3)
  | .stop => some (cmdSlot 4)
  | .deinit => some (cmdSlot 5)
  | .reservedCmd v => some (cmdSlot v)
  | .wr o v => some (traceSlot 0x01 (bytes16 o ++ bytes32 v))
  | .rd o v => some (traceSlot 0x02 (bytes16 o ++ bytes32 v))
  | .svc => some (traceSlot 0x10 [])
  | .eng c h k w => some (traceSlot 0x20 (chanByte c :: BitVec.ofNat 8 h.code :: (bytes16 k ++ bytes16 w)))
  | .half c => some (traceSlot 0x21 [chanByte c])
  | .xerr c => some (traceSlot 0x22 [chanByte c])
  | .trim a => some (traceSlot 0x23 (BitVec.ofNat 8 (flagCode a.ready) ::
      (bytes16 a.seOffset ++ bytes32 a.seGain ++ bytes16 a.diffOffset ++ bytes32 a.diffGain)))
  | .reset => some (traceSlot 0x30 [])
  | .setClockDivider on total => some (hwopSlot 0 [on, total])
  | .programBuffer c h a l => some (hwopSlot 1 [natWord c.val, natWord h.code, a, l.setWidth 32])
  | .enableChannel c => some (hwopSlot 2 [natWord c.val])
  | .unmaskInterrupt c => some (hwopSlot 3 [natWord c.val])
  | .readInterruptStatus m => some (hwopSlot 4 [m.setWidth 32])
  | .clearInterrupt c => some (hwopSlot 5 [natWord c.val])
  | .maskInterrupt c => some (hwopSlot 6 [natWord c.val])
  | .setClockEnable b => some (hwopSlot 7 [natWord (flagCode b)])
  | .dataReady c => some (evtSlot .dataReady c)
  | .sampleGroupComplete c => some (evtSlot .sampleGroupComplete c)
  | .bufferFull c => some (evtSlot .bufferFull c)
  | .transferError c => some (evtSlot .transferError c)
  | .computeSchedule _ => none
  | .roundPow2 _ => none
  | .assignOffsets _ => none
  | .apply _ _ => none

/-! ### Table words: a bare word of spec/opcode_table.json, without its format
(DESIGN CHOICE, log entry 6: the formats share numbers; safe, no rule of the block reads a bare word) -/

/-- Bytes of a TRACE record, the tag included (R126); 1 where the tag is none. -/
def traceLength (tag : Nat) : Nat :=
  match tag with
  | 0x01 => 7
  | 0x02 => 7
  | 0x20 => 7
  | 0x21 => 2
  | 0x22 => 2
  | 0x23 => 14
  | _ => 1

/-- Bytes of a HWOP record, the tag included; 1 where the tag is none. -/
def hwopLength (tag : Nat) : Nat :=
  match tag with
  | 0 => 9
  | 1 => 17
  | 2 => 5
  | 3 => 5
  | 4 => 5
  | 5 => 5
  | 6 => 5
  | 7 => 5
  | _ => 1

/-- R126: the tags of format TRACE. -/
def isTraceTag (tag : Nat) : Bool := [0x01, 0x02, 0x10, 0x20, 0x21, 0x22, 0x23, 0x30].contains tag

/-- Which format a bare table word is read in. 32-bit words: the six opcodes, then the event words, else
a CMD word. Shorter rows: a TRACE tag, else a HWOP tag. -/
def tableFormat (nbits w : Nat) : Format :=
  if nbits = 32 then
    if w < 6 then .cmd
    else if w < 0x400 ∧ w % 256 < 16 then .evt
    else .cmd
  else if isTraceTag (w % 256) then .trace
  else .hwop

/-- How many bytes the record of a table word has. -/
def tableLength (nbits w : Nat) : Nat :=
  match tableFormat nbits w with
  | .cmd => 4
  | .evt => 4
  | .trace => traceLength (w % 256)
  | .hwop => hwopLength (w % 256)

/-- Byte i of an instruction whose lowest nbits bits are w and whose other bits are 0. -/
def tableByte (nbits w i : Nat) : Byte :=
  if 8 * i < nbits then BitVec.ofNat 8 (w / 2 ^ (8 * i)) else 0

/-- The record of a table word: its bytes, lowest first as in every record (log entries 7, 29), the bits above nbits
zero. -/
def tableSlot (nbits w : Nat) : Slot where
  fmt := tableFormat nbits w
  bytes := (List.range (tableLength nbits w)).map (tableByte nbits w)

/-- The instruction the decoder reads from a table word. -/
def decodeTableWord (nbits w : Nat) : Option Instr :=
  match decode (tableSlot nbits w) with
  | .ok i => some i
  | .error _ => none

end Sys2Proof
end

