-- ==== Sys2Proof/Machine/State.lean ====
section
/-! DEFINITION. The state of the block (R20), its outputs EVENTS and HWOPS (R9), the model's own ports, the
reasons a step can stop, and the state right after reset (R50, R310). -/

namespace Sys2Proof.Machine

/-- Why the machine stops with a fault. -/
inductive Fault where
  /-- Raised by a 16-bit MEM access whose bytes do not both lie below 2^32 (R81: there are 2^32 byte
  addresses). No reachable state makes one (R81, R91). Safe: the block never makes such an access. -/
  | addressOutsideMemory
  deriving DecidableEq, Repr

/-- Why a step is refused: the spec gives no move. -/
inductive Refusal where
  /-- Raised by `exec` for an instruction without a meaning; no arm of this model uses it. Safe. -/
  | notModelled (mnemonic : String)
  /-- Raised by `step` when no step is left in the input list: no agent moves. Safe. -/
  | endOfTrace
  /-- Raised by `step` for a record that is no step or primitive (U19: a decoder meeting one is stuck). Safe. -/
  | undecodable (reason : DecodeError)
  /-- Raised by `svc` when SERVICE is not enabled (R230: enabled iff STATE = Running and IRQ_LINE = 1). Safe. -/
  | serviceNotEnabled
  /-- Raised by `eng`, `half`, `xerr` when the ENGINE step is not enabled (R240, R241, R242; U8 refuse).
  Safe as to what the block does; that ENGINE keeps to it is the spec's assumption (R12). -/
  | engineNotEnabled
  /-- Raised by `compute_schedule` called outside its operands (R150: "the function is not defined outside
  them"). CONFIGURE never calls it so. Safe. -/
  | outsideOperands
  deriving DecidableEq, Repr

/-- STATE (R30): code 3 never occurs, so it is no value here. -/
inductive PState where
  | idle
  | configured
  | running
  deriving DecidableEq, Repr

/-- The result codes of R120; 12..255 are never produced. -/
inductive ErrCode where
  | ok
  | invalidSamplingRate
  | invalidSampleCount
  | invalidChannelCount
  | pingPongAddressCollision
  | addressOutOfRange
  | calibrationTimeout
  | transferError
  | schedulingInfeasible
  | invalidState
  | calibrationNotLoaded
  | invalidCommand
  deriving DecidableEq, Repr

/-- RESULT (R26): CODE and INFO. -/
structure Result where
  code : ErrCode
  info : Byte
  deriving DecidableEq, Repr

/-- MODE and ACT_MODE (R28, R29): N, STATIC, SHARED, ARD; reserved bits store nothing (R124). -/
structure Mode where
  n : BitVec 5
  static : Bool
  shared : Bool
  ard : Bool
  deriving DecidableEq, Repr

/-- One channel bank (R23). The first ten fields are staging, the rest active and run-time state. -/
structure Channel where
  reqRate : Word
  numSamples : Word16
  diff : Bool
  dac : Bool
  gain : Byte
  pingAddr : Word
  pongAddr : Word
  pingLen : Word16
  pongLen : Word16
  rxAddr : Word
  sf : Word16
  off : Word16
  ach : Word
  count : Word16
  half : Half
  aPingAddr : Word
  aPongAddr : Word
  aPingLen : Word16
  aPongLen : Word16
  aRxAddr : Word
  aNs : Word16
  aDiff : Bool
  deriving DecidableEq, Repr

/-- MEM (R81): (address, byte) pairs, addresses strictly rising; an unlisted byte was never written. -/
abbrev Memory := List Host.Cell

/-- What `compute_schedule` returns on success (R150): the clock plan and the slot factors. -/
structure Schedule where
  on : Nat
  total : Nat
  sf : List Nat
  deriving DecidableEq, Repr

/-- The result of a directly called pure function (model's own; log entry 4). `none` inside is SchedulingInfeasible. -/
inductive FuncResult where
  | schedule (r : Option Schedule)
  | factor (s : Nat)
  | offsets (r : Option (List Nat))
  | sample (w : Word16)
  deriving DecidableEq, Repr

/-- The whole state of the block (R20), its outputs, and the model's own ports. -/
structure State where
  /-- STATE (R30). -/
  st : PState
  /-- CAL_VALID (R37). -/
  calValid : Bool
  /-- CAL_SE_OFFSET (R37). -/
  calSeOffset : Word16
  /-- CAL_SE_GAIN (R37). -/
  calSeGain : Word
  /-- CAL_DIFF_OFFSET (R37). -/
  calDiffOffset : Word16
  /-- CAL_DIFF_GAIN (R37). -/
  calDiffGain : Word
  /-- RESULT (R26). -/
  result : Result
  /-- BASE_CLK (R27). -/
  baseClk : Word
  /-- MODE (R28). -/
  mode : Mode
  /-- ON_CYCLES (R31). -/
  onCycles : Word
  /-- TOTAL_CYCLES (R31). -/
  totalCycles : Word
  /-- IRQ_STATUS, a bit per channel (R32). -/
  irqStatus : Word16
  /-- IRQ_MASK, a bit per channel, 1 = masked (R33). -/
  irqMask : Word16
  /-- ERR_STATUS, a bit per channel (R34). -/
  errStatus : Word16
  /-- FAULT.OVERRUN, a bit per channel (R35). -/
  overrun : Word16
  /-- FAULT.DEMUX_ERR (R35). -/
  demuxErr : Bool
  /-- ACT_BASE_CLK (R29). -/
  actBaseClk : Word
  /-- ACT_MODE (R29). -/
  actMode : Mode
  /-- CH_ENABLE.CH_EN, a bit per channel (R36). -/
  chEn : Word16
  /-- CH_ENABLE.CLK_EN (R36). -/
  clkEn : Bool
  /-- The sixteen channel banks (R23). -/
  ch : Vector Channel 16
  /-- MEM (R81). -/
  mem : Memory
  /-- EVENTS (R9): output, append-only. -/
  events : List Event
  /-- HWOPS (R9): output, append-only. -/
  hwops : List Hwop
  /-- Model's own: the word the last `rd` returned (log entry 5). -/
  rdata : Word
  /-- Model's own: the result of the last directly called pure function (log entry 4). -/
  ret : Option FuncResult
  /-- Model's own: the answers fixed for the next CAL_LOAD (R126; log entry 11). -/
  trim : Option TrimAnswers
  /-- Model's own: how many CAL_LOADs have asked TRIM, so that each draw is fresh (log entry 11). -/
  draws : Nat
  /-- Model's own: the steps still to come (log entry 1). -/
  input : List Slot
  deriving DecidableEq, Repr

/-- A channel bank after reset: every register 0, HALF = ping (R50). -/
def Channel.reset : Channel where
  reqRate := 0
  numSamples := 0
  diff := false
  dac := false
  gain := 0
  pingAddr := 0
  pongAddr := 0
  pingLen := 0
  pongLen := 0
  rxAddr := 0
  sf := 0
  off := 0
  ach := 0
  count := 0
  half := .ping
  aPingAddr := 0
  aPongAddr := 0
  aPingLen := 0
  aPongLen := 0
  aRxAddr := 0
  aNs := 0
  aDiff := false

/-- The state right after reset, at the start of a run (R50, R310, R311). The last five fields are the
model's own (DESIGN CHOICE, log entry 16; no statement rests on them). -/
def State.reset : State where
  st := .idle
  calValid := false
  calSeOffset := 0
  calSeGain := 0
  calDiffOffset := 0
  calDiffGain := 0
  result := { code := .ok, info := 0xFF }
  baseClk := 0
  mode := { n := 0, static := false, shared := false, ard := false }
  onCycles := 0
  totalCycles := 0
  irqStatus := 0
  irqMask := 0xFFFF
  errStatus := 0
  overrun := 0
  demuxErr := false
  actBaseClk := 0
  actMode := { n := 0, static := false, shared := false, ard := false }
  chEn := 0
  clkEn := false
  ch := Vector.replicate 16 Channel.reset
  mem := []
  events := []
  hwops := []
  rdata := 0
  ret := none
  trim := none
  draws := 0
  input := []

end Sys2Proof.Machine
end

