-- ==== Sys2Proof/Machine/Flags.lean ====
section
/-! DEFINITION. The one-bit-per-channel registers, the interrupt line, and the other flags computed from
the state (R32 to R36, R47). -/

namespace Sys2Proof.Machine

/-- The channels 0..15 in ascending order. -/
def allChans : List Chan := [0, 1, 2, 3, 4, 5, 6, 7, 8, 9, 10, 11, 12, 13, 14, 15]

/-- The channels 0..n-1 in ascending order. -/
def chansBelow (n : Nat) : List Chan := allChans.filter fun c => decide (c.val < n)

/-- Bit c of a register with one bit per channel. -/
def bitOf (w : Word16) (c : Chan) : Bool := w.getLsbD c.val

/-- The register with bit c set. -/
def setBit (w : Word16) (c : Chan) : Word16 := w ||| BitVec.twoPow 16 c.val

/-- The register with bit c cleared. -/
def clearBit (w : Word16) (c : Chan) : Word16 := w &&& ~~~(BitVec.twoPow 16 c.val)

/-- Bits 0..n-1 set, the others clear (R213: CH_EN). -/
def lowBits (n : Nat) : Word16 := BitVec.ofNat 16 (2 ^ n - 1)

/-- IRQ_LINE (R47): some channel has a pending, unmasked half-full or transfer-error bit. -/
def irqLine (s : State) : Bool :=
  allChans.any fun c => (bitOf s.irqStatus c || bitOf s.errStatus c) && !bitOf s.irqMask c

/-- The snapshot S of R230: channels with a pending, unmasked half-full bit. -/
def pendingFull (s : State) : List Chan :=
  allChans.filter fun c => bitOf s.irqStatus c && !bitOf s.irqMask c

/-- The snapshot E of R230: channels with a pending, unmasked transfer-error bit. -/
def pendingErr (s : State) : List Chan :=
  allChans.filter fun c => bitOf s.errStatus c && !bitOf s.irqMask c

/-- SERVICE is enabled iff STATE = Running and IRQ_LINE = 1 (R230). -/
def serviceEnabled (s : State) : Bool := decide (s.st = .running) && irqLine s

/-- A_N as a number (R29). -/
def State.activeN (s : State) : Nat := s.actMode.n.toNat

/-- `bufch(c)` (R220): the channels that own a ping-pong descriptor. -/
def isBufferChan (s : State) (c : Chan) : Bool :=
  if s.actMode.shared then decide (c = 0) else decide (c.val < s.activeN)

/-- ENGINE's HALF_FULL(c) is enabled (R241); also the first part of ENG_WRITE's condition (R240). -/
def halfFullEnabled (s : State) (c : Chan) : Bool :=
  decide (s.st = .running) && s.clkEn && isBufferChan s c

/-- ENGINE's XFER_ERROR(c) is enabled (R242). -/
def xferErrorEnabled (s : State) (c : Chan) : Bool :=
  decide (s.st = .running) && decide (c.val < s.activeN)

end Sys2Proof.Machine
end

