-- ==== Sys2Proof/Machine/Ops.lean ====
section
/-! DEFINITION. The named operations over memory, channel banks, the traces and RESULT, among them the one
way a command fails (R16), the primitives of R125, and the return to the reset values (R50, R310). -/

namespace Sys2Proof.Machine

/-! ### MEM (R80 to R84) -/

/-- The byte written at an address, if any was. -/
def Memory.get? : Memory → Nat → Option Byte
  | [], _ => none
  | (k, b) :: m, a => if a = k then some b else Memory.get? m a

/-- What a byte reads as: what was written, else the free power-up contents (R312; log entry 8, safe). -/
def Memory.read (m : Memory) (a : Nat) : Byte := (Memory.get? m a).getD (Config.powerUpByte a)

/-- Write one byte, keeping the addresses strictly rising. -/
def Memory.write : Memory → Nat → Byte → Memory
  | [], a, v => [(a, v)]
  | (k, b) :: m, a, v =>
    if a < k then (a, v) :: (k, b) :: m
    else if a = k then (a, v) :: m
    else (k, b) :: Memory.write m a v

/-- The addresses of a memory rise strictly, each above the given lower bound. -/
def Memory.risesFrom : Nat → Memory → Bool
  | _, [] => true
  | lo, (k, _) :: m => decide (lo ≤ k) && Memory.risesFrom (k + 1) m

/-- The canonical form: strictly rising addresses, all below 2^32 (R81). An unlisted byte holds no written
value, so no entry can repeat what an unlisted address holds. -/
def Memory.wf (m : Memory) : Bool := Memory.risesFrom 0 m && m.all fun x => decide (x.1 < 2 ^ 32)

/-- `MemRead(a, 2)` (R82): the byte at the lower address is the low byte. -/
def Memory.read16 (m : Memory) (a : Nat) : Word16 := Memory.read m (a + 1) ++ Memory.read m a

/-- `MemWrite(a, 2, v)` (R83). -/
def Memory.write16 (m : Memory) (a : Nat) (v : Word16) : Memory :=
  Memory.write (Memory.write m a (v.extractLsb' 0 8)) (a + 1) (v.extractLsb' 8 8)

/-- Both bytes of the 16-bit access at a exist (R81). -/
def addressOk (a : Nat) : Bool := decide (a + 1 < 2 ^ 32)

/-- `MemRead` by the block: a fault outside the address space (log entry 9). -/
def State.load16 (s : State) (a : Nat) : Except Fault Word16 :=
  if addressOk a then .ok (s.mem.read16 a) else .error .addressOutsideMemory

/-- `MemWrite` by the block: a fault outside the address space (log entry 9). -/
def State.store16 (s : State) (a : Nat) (v : Word16) : Except Fault State :=
  if addressOk a then .ok { s with mem := s.mem.write16 a v } else .error .addressOutsideMemory

/-! ### Channel banks (R15, R23) -/

/-- `ch[c]` (R15). -/
def State.chan (s : State) (c : Chan) : Channel := s.ch[c.val]

/-- Write channel c's bank. -/
def State.setChan (s : State) (c : Chan) (x : Channel) : State := { s with ch := s.ch.set c.val x }

/-- Apply f to every bank, with its channel number. -/
def mapBanks (f : Chan → Channel → Channel) (v : Vector Channel 16) : Vector Channel 16 :=
  #v[f 0 v[0], f 1 v[1], f 2 v[2], f 3 v[3], f 4 v[4], f 5 v[5], f 6 v[6], f 7 v[7],
     f 8 v[8], f 9 v[9], f 10 v[10], f 11 v[11], f 12 v[12], f 13 v[13], f 14 v[14], f 15 v[15]]

/-- `addr(c, h)` (R220), as the number of a byte address. -/
def halfAddr (s : State) (c : Chan) : Half → Word
  | .ping => (s.chan c).aPingAddr
  | .pong => (s.chan c).aPongAddr

/-- `len(c, h)` (R220). -/
def halfLen (s : State) (c : Chan) : Half → Word16
  | .ping => (s.chan c).aPingLen
  | .pong => (s.chan c).aPongLen

/-! ### The traces (R9) -/

/-- `emit ev(c)` (R9): append one event. -/
def State.emit (s : State) (k : EventKind) (c : Chan) : State :=
  { s with events := s.events ++ [{ channel := c, kind := k }] }

/-- Append a run of events, in order. -/
def State.emitAll (s : State) (l : List Event) : State := { s with events := s.events ++ l }

/-- `hwop p(args)` (R9): append one record. -/
def State.log (s : State) (h : Hwop) : State := { s with hwops := s.hwops ++ [h] }

/-! ### The primitives of R125, each with its effect on block state and its record -/

/-- Tag 0: no effect beyond the record. -/
def hwSetClockDivider (on total : Word) (s : State) : State := s.log (.setClockDivider on total)

/-- Tag 1: no effect beyond the record; it arms the half for ENGINE. -/
def hwProgramBuffer (c : Chan) (h : Half) (addr : Word) (len : Word16) (s : State) : State :=
  s.log (.programBuffer c h addr len)

/-- Tag 2: CH_EN[channel] <- 1. -/
def hwEnableChannel (c : Chan) (s : State) : State :=
  { s with chEn := setBit s.chEn c }.log (.enableChannel c)

/-- Tag 3: IRQ_MASK[channel] <- 0. -/
def hwUnmaskInterrupt (c : Chan) (s : State) : State :=
  { s with irqMask := clearBit s.irqMask c }.log (.unmaskInterrupt c)

/-- Tag 4: the value read is recorded. -/
def hwReadInterruptStatus (s : State) : State := s.log (.readInterruptStatus s.irqStatus)

/-- Tag 5: IRQ_STATUS[channel] <- 0. -/
def hwClearInterrupt (c : Chan) (s : State) : State :=
  { s with irqStatus := clearBit s.irqStatus c }.log (.clearInterrupt c)

/-- Tag 6: IRQ_MASK[channel] <- 1. -/
def hwMaskInterrupt (c : Chan) (s : State) : State :=
  { s with irqMask := setBit s.irqMask c }.log (.maskInterrupt c)

/-- Tag 7: CLK_EN <- b. -/
def hwSetClockEnable (b : Bool) (s : State) : State := { s with clkEn := b }.log (.setClockEnable b)

/-- One primitive for each channel 0..n-1, ascending. -/
def forChansBelow (n : Nat) (f : Chan → State → State) (s : State) : State :=
  (chansBelow n).foldl (fun s c => f c s) s

/-! ### How a command ends (R16) -/

/-- INFO when the error belongs to no channel (R26). -/
def noInfo : Byte := 0xFF

/-- A channel as INFO (R26). -/
def chanInfo (c : Chan) : Byte := BitVec.ofNat 8 c.val

/-- `fail E(info)` (R16): RESULT is written and nothing else. -/
def State.fail (s : State) (e : ErrCode) (info : Byte) : State := { s with result := { code := e, info } }

/-- A command that reaches its end: RESULT.CODE <- Ok, RESULT.INFO <- 0xFF (R16). -/
def State.succeed (s : State) : State := { s with result := { code := .ok, info := noInfo } }

/-! ### The reset values (R50) -/

/-- Every register takes its reset value; MEM, the traces and the model's own ports stay (R50, R310). -/
def State.resetRegisters (s : State) : State :=
  { State.reset with
    mem := s.mem, events := s.events, hwops := s.hwops, rdata := s.rdata, ret := s.ret,
    trim := s.trim, draws := s.draws, input := s.input }

/-! ### Outcomes -/

/-- An operation that may fault, as an outcome of a step. -/
def outcomeOf : Except Fault State → Host.Outcome State Fault Refusal
  | .ok s => .next s
  | .error f => .fault f

end Sys2Proof.Machine
end

