-- ==== Sys2Proof/Machine/Calibration.lean ====
section
/-! DEFINITION. The CalibrationModel (42_calibration.md): the command CAL_LOAD and the function `apply`. -/

namespace Sys2Proof.Machine

/-! ### apply (R194 to R200) -/

/-- GN of R123 and R197: `1000 * g[31:14] + g[13:0]`. -/
def gainThousandths (g : Word) : Nat := 1000 * (g.toNat / 16384) + g.toNat % 16384

/-- Step 1 (R195): the 12-bit value with its sign bit flipped; the channel id is discarded. -/
def flipSign (raw : Word16) : Nat := (raw.toNat % 4096) ^^^ 0x800

/-- Steps 2 and 3 (R196, R197): offset, gain, one floor. -/
def scaled (a : Nat) (off : Word16) (g : Word) : Int :=
  (((a : Int) - (off.toNat : Int)) * (gainThousandths g : Int)) / 1000

/-- Step 4 (R198): clamp to [0, 4095]. -/
def clamp12 (q : Int) : Nat := min q.toNat 4095

/-- Step 5 (R199): re-centre around mid-scale; zero-extended to 16 bits. -/
def recentre (c : Nat) : Word16 := BitVec.ofNat 16 (c ^^^ 0x800)

/-- `apply` as a function of the raw word and of the pair (off, g) (R200). -/
def calibrate (raw off : Word16) (g : Word) : Word16 := recentre (clamp12 (scaled (flipSign raw) off g))

/-- `apply(raw, differential)` (R200): the pair is chosen by the input type. -/
def applyCal (s : State) (raw : Word16) (differential : Bool) : Word16 :=
  if differential then calibrate raw s.calDiffOffset s.calDiffGain
  else calibrate raw s.calSeOffset s.calSeGain

/-! ### The trim source and CAL_LOAD (R190, R192, R193) -/

/-- The answers of TRIM (R190): those a `trim` record fixed, else the device's free values and a fresh
draw of `ready_seen` (log entry 11, safe). -/
def trimAnswers (s : State) : TrimAnswers :=
  s.trim.getD
    { ready := Config.readySeen s.draws, seOffset := Config.trimSeOffset, seGain := Config.trimSeGain,
      diffOffset := Config.trimDiffOffset, diffGain := Config.trimDiffGain }

/-- TRIM has been asked: a `trim` record serves one CAL_LOAD (R126), the next draw is another one. -/
def trimAsked (s : State) : State := { s with trim := none, draws := s.draws + 1 }

/-- The four calibration registers and CAL_VALID are written (R192). -/
def latchCal (a : TrimAnswers) (s : State) : State :=
  { s with calSeOffset := a.seOffset, calSeGain := a.seGain, calDiffOffset := a.diffOffset,
           calDiffGain := a.diffGain, calValid := true }

/-- CAL_LOAD as a function of the state (R192). -/
def calLoad (s : State) : State :=
  if s.st ≠ .idle then s.fail .invalidState noInfo
  else if s.calValid then s.fail .invalidState noInfo
  else if (trimAnswers s).ready then (latchCal (trimAnswers s) (trimAsked s)).succeed
  else (trimAsked s).fail .calibrationTimeout noInfo

/-- CAL_LOAD (R192). -/
def execCalLoad (s : State) : Host.Outcome State Fault Refusal := .next (calLoad s)

/-- `trim` (R126, R190): no step of the block; it fixes TRIM's answers to the next CAL_LOAD. -/
def execTrim (answers : TrimAnswers) (s : State) : Host.Outcome State Fault Refusal :=
  .next { s with trim := some answers }

end Sys2Proof.Machine
end

