-- ==== Sys2Proof/Machine/Engine.lean ====
section
/-! DEFINITION. The steps of the environment agent ENGINE (43_acquisition_pipeline.md section 5). A step that
is not enabled is no move of ENGINE's (R12, U8). -/

namespace Sys2Proof.Machine

/-- Where ENG_WRITE(c, h, k, w) stores (R240). -/
def engAddr (s : State) (c : Chan) (h : Half) (k : Word16) : Nat := (halfAddr s c h).toNat + 2 * k.toNat

/-- ENG_WRITE is enabled (R240). -/
def engEnabled (s : State) (c : Chan) (h : Half) (k : Word16) : Bool :=
  halfFullEnabled s c && decide (k.toNat < (halfLen s c h).toNat)

/-- `eng c.h[k] = w` (R240): ENG_WRITE. -/
def execEng (c : Chan) (h : Half) (k w : Word16) (s : State) : Host.Outcome State Fault Refusal :=
  if engEnabled s c h k then outcomeOf (s.store16 (engAddr s c h k) w) else .refused .engineNotEnabled

/-- HALF_FULL(c) (R241): a second one before service is an overrun. -/
def halfFull (c : Chan) (s : State) : State :=
  { s with overrun := if bitOf s.irqStatus c then setBit s.overrun c else s.overrun
           irqStatus := setBit s.irqStatus c }

/-- `half c` (R241): HALF_FULL. -/
def execHalf (c : Chan) (s : State) : Host.Outcome State Fault Refusal :=
  if halfFullEnabled s c then .next (halfFull c s) else .refused .engineNotEnabled

/-- `xerr c` (R242): XFER_ERROR sets ERR_STATUS[c] and nothing else. -/
def execXerr (c : Chan) (s : State) : Host.Outcome State Fault Refusal :=
  if xferErrorEnabled s c then .next { s with errStatus := setBit s.errStatus c }
  else .refused .engineNotEnabled

end Sys2Proof.Machine
end

