-- ==== Sys2Proof/Machine/PhaseAllocator.lean ====
section
/-! DEFINITION. The PhaseAllocator (41_phase_allocator.md): greedy first-fit offsets. `none` is
SchedulingInfeasible. -/

namespace Sys2Proof.Machine

/-- The collision test of R181 for one assigned channel (factor, offset), in the closed form of R182. A factor of 0
has the one slot at its offset, as R181's own test says. -/
def collides (c : Nat) (x : Nat × Nat) : Bool := decide (x.2 ≤ c) && decide ((c - x.2) % x.1 = 0)

/-- The first of the `fuel` candidates c, c+1, … that collides with no assigned channel (R181). -/
def firstFree (taken : List (Nat × Nat)) : Nat → Nat → Option Nat
  | 0, _ => none
  | fuel + 1, c => if taken.any (collides c) then firstFree taken fuel (c + 1) else some c

/-- The scan for the channels still without an offset; `taken` holds (factor, offset) of the assigned. -/
def assignRest (m : Nat) : List (Nat × Nat) → List Nat → Option (List Nat)
  | _, [] => some []
  | taken, f :: fs =>
    match firstFree taken m 0 with
    | none => none
    | some c => (assignRest m (taken ++ [(f, c)]) fs).map (c :: ·)

/-- `M` of R181: the largest factor. -/
def maxFactor (sf : List Nat) : Nat := sf.foldl max 0

/-- `assign_offsets` (R181): channel 0 gets offset 0, every other channel the least free candidate. -/
def assignOffsets (sf : List Nat) : Option (List Nat) :=
  match sf with
  | [] => some []
  | f :: fs => (assignRest (maxFactor sf) [(f, 0)] fs).map (0 :: ·)

end Sys2Proof.Machine
end

