-- ==== Sys2Proof/Machine/RateScheduler.lean ====
section
/-! DEFINITION. The RateScheduler and the ClockModel (40_rate_scheduler.md): slot factors, hold time, clock
plan, achieved rate, in exact naturals (R167). `none` is SchedulingInfeasible. -/

namespace Sys2Proof.Machine

/-- `cdiv(a, b)` (R14): the ceiling of a / b. -/
def cdiv (a b : Nat) : Nat := (a + b - 1) / b

/-- R156: a value assigned to a slot factor must fit 16 bits. -/
def fitFactor (v : Nat) : Option Nat := if v ≤ 65535 then some v else none

/-- The first of p, 2p, 4p, … that is at least s, among the first `fuel` of them. -/
def doubleUntil (s : Nat) : Nat → Nat → Nat
  | 0, p => p
  | fuel + 1, p => if s ≤ p then p else doubleUntil s fuel (2 * p)

/-- The smallest power of two that is at least s; s doublings suffice. -/
def leastPow2 (s : Nat) : Nat := doubleUntil s s 1

/-- `round_pow2(s)` (R154): the nearer neighbouring power of two, the middle going up. -/
def roundPow2 (s : Nat) : Nat :=
  if leastPow2 s = s then s
  else if s - leastPow2 s / 2 < leastPow2 s / 4 then leastPow2 s / 2
  else leastPow2 s

/-- A common multiple of the factors: their product. -/
def commonMultiple (sf : List Nat) : Nat := sf.foldl (· * ·) 1

/-- `util(sf, i) > 1` (R158), exactly: the sum of L div sf[k] exceeds L, L a common multiple. -/
def overUtilised (sf : List Nat) : Bool :=
  decide (commonMultiple sf < (sf.map fun x => commonMultiple sf / x).foldl (· + ·) 0)

/-- The doubling loop of R157, with a bound on its rounds. -/
def doubleLoop : Nat → List Nat → Option (List Nat)
  | 0, _ => none
  | fuel + 1, sf =>
    if overUtilised sf then
      if sf.all fun x => decide (2 * x ≤ 65535) then doubleLoop fuel (sf.map (2 * ·)) else none
    else some sf

/-- R157: double every factor while the utilisation exceeds 1. A factor of at least 1 passes 65535 within
16 doublings, so 17 rounds are the whole loop (log entry 23). -/
def relieve (sf : List Nat) : Option (List Nat) := doubleLoop 17 sf

/-- The body of the channel loop (R151) for a newly created factor v: range check, rounding if n > 1
(R155), then the doubling loop over the channels so far. -/
def addFactor (n : Nat) (sf : List Nat) (v : Nat) : Option (List Nat) :=
  match fitFactor v with
  | none => none
  | some v =>
    match (if n > 1 then fitFactor (roundPow2 v) else some v) with
    | none => none
    | some v => relieve (sf ++ [v])

/-- Step 2 for the remaining channels (R153): each factor is its predecessor's current factor times the
ceiling of the ratio of their rates. -/
def cascade (n : Nat) : List Nat → Nat → List Nat → Option (List Nat)
  | sf, _, [] => some sf
  | sf, prev, r :: rs =>
    match addFactor n sf (sf.getLastD 0 * cdiv prev r) with
    | none => none
    | some sf => cascade n sf r rs

/-- Steps 1 to 4 (R151, R152). -/
def slotFactors (base : Nat) (rates : List Nat) : Option (List Nat) :=
  match rates with
  | [] => none
  | r0 :: rs =>
    match addFactor (rs.length + 1) [] (max 2 (cdiv base r0)) with
    | none => none
    | some sf => cascade (rs.length + 1) sf r0 rs

/-- Step 5 (R159): with one sample on the primary channel its factor is divided by 4, floored at 2, and
the utilisation is re-established. -/
def singleSample (ns0 : Nat) (sf : List Nat) : Option (List Nat) :=
  match sf with
  | [] => some []
  | x :: xs => if ns0 = 1 then relieve (max 2 (x / 4) :: xs) else some (x :: xs)

/-- h[i] of R160: the hold time of one channel in nanoseconds. -/
def channelHold (delay : Nat → Nat) (c : SchedChan) : Nat :=
  max (max (delay c.gain.toNat) (if c.dac then 3500 else 0)) 100

/-- `hold_ns` (R160): the largest of the channels' hold times. -/
def holdNs (delay : Nat → Nat) (chans : List SchedChan) : Nat :=
  (chans.map (channelHold delay)).foldl max 0

/-- `on` of R162. -/
def onCyclesOf (base hold : Nat) : Nat := cdiv (hold * base) 1000000000

/-- `total` of R161 and R162, with the increment that keeps it apart from `on`. -/
def totalCyclesOf (base hold : Nat) : Nat :=
  if onCyclesOf base hold = cdiv (base * (hold + 100)) 1000000000 then
    cdiv (base * (hold + 100)) 1000000000 + 1
  else cdiv (base * (hold + 100)) 1000000000

/-- The static override (R163). -/
def staticTotal (static : Bool) (base rate0 total : Nat) : Nat :=
  if static && decide (total < cdiv base rate0) then cdiv base rate0 else total

/-- `compute_schedule` (R165). -/
def computeSchedule (delay : Nat → Nat) (a : SchedArgs) : Option Schedule :=
  match slotFactors a.base (a.chans.map (·.rate)) with
  | none => none
  | some sf0 =>
    match singleSample a.ns0 sf0 with
    | none => none
    | some sf =>
      some { on := onCyclesOf a.base (holdNs delay a.chans)
             total := staticTotal a.static a.base ((a.chans.map (·.rate)).headD 0)
               (totalCyclesOf a.base (holdNs delay a.chans))
             sf := sf }

/-- R164: the achieved rate in hertz. -/
def achievedRate (base sf : Nat) : Nat := base / sf

end Sys2Proof.Machine
end

