-- ==== Sys2Proof/Machine/Functions.lean ====
section
/-! DEFINITION. The rows of format FUNC: a pure function evaluated on its own. It reads and writes no state
of the block (R165, R194); its result stands in the model's result port (log entry 4). -/

namespace Sys2Proof.Machine

/-- The result port. -/
def State.answer (s : State) (r : FuncResult) : State := { s with ret := some r }

/-- `compute_schedule` (R150, R165): "the function is not defined outside" its operands (R150). -/
def execComputeSchedule (args : SchedArgs) (s : State) : Host.Outcome State Fault Refusal :=
  if args.ok then .next (s.answer (.schedule (computeSchedule Config.params.delay args)))
  else .refused .outsideOperands

/-- `round_pow2` (R154), for a natural s ≥ 1; at 0 the result is a free value (log entry 28). -/
def execRoundPow2 (x : Nat) (s : State) : Host.Outcome State Fault Refusal :=
  .next (s.answer (.factor (if 1 ≤ x then roundPow2 x else Config.roundPow2AtZero)))

/-- `assign_offsets` (R180, R181): total (R180, U17), so the scan of R181 answers for every list of factors, those
`compute_schedule` never returns among them (R184); for no factor the result is a free value (log entry 28). -/
def execAssignOffsets (sf : List Nat) (s : State) : Host.Outcome State Fault Refusal :=
  .next (s.answer (.offsets (if sf = [] then Config.offsetsOfNone else assignOffsets sf)))

/-- `apply` (R194, R200): total in the raw word and the input type. -/
def execApply (raw : Word16) (differential : Bool) (s : State) : Host.Outcome State Fault Refusal :=
  .next (s.answer (.sample (applyCal s raw differential)))

end Sys2Proof.Machine
end

