-- ==== Sys2Proof/Machine/Operands.lean ====
section
/-! DEFINITION. Operand assembly (R123): the register map (R22, R23), the word a register reads as (R261),
and the fields a write stores (R260, R124). -/

namespace Sys2Proof.Machine

/-! ### The register map -/

/-- R22: the global register at word index w = offset / 4, none where the offset is reserved. -/
def globalAt (w : Nat) : Option GlobalReg :=
  match w with
  | 0 => some .cmd
  | 1 => some .status
  | 2 => some .result
  | 3 => some .baseClk
  | 4 => some .mode
  | 5 => some .onCycles
  | 6 => some .totalCycles
  | 7 => some .irqStatus
  | 8 => some .irqMask
  | 9 => some .errStatus
  | 10 => some .fault
  | 11 => some .actBaseClk
  | 12 => some .actMode
  | 13 => some .chEnable
  | 16 => some .calSeOffset
  | 17 => some .calSeGain
  | 18 => some .calDiffOffset
  | 19 => some .calDiffGain
  | _ => none

/-- R23: the register at word index w inside a bank, none where it is reserved. -/
def bankAt (w : Nat) : Option BankReg :=
  match w with
  | 0 => some .reqRate
  | 1 => some .reqCfg
  | 2 => some .pingAddr
  | 3 => some .pongAddr
  | 4 => some .pingLen
  | 5 => some .pongLen
  | 6 => some .rxAddr
  | 7 => some .sched
  | 8 => some .achRate
  | 9 => some .fill
  | 10 => some .actPingAddr
  | 11 => some .actPongAddr
  | 12 => some .actLen
  | 13 => some .actRxAddr
  | 14 => some .actCfg
  | _ => none

/-- The register at a byte offset: none for a reserved offset, an offset that is no multiple of 4, and an
offset of 0x500 or above (R21, R86, R262). Channel i's bank is at 0x100 + 0x40 * i (R23). -/
def regAt (offset : Nat) : Option Reg :=
  if offset % 4 ≠ 0 then none
  else if offset < 0x100 then (globalAt (offset / 4)).map .glob
  else if h : (offset - 0x100) / 0x40 < 16 then
    (bankAt ((offset - 0x100) % 0x40 / 4)).map (.bank ⟨(offset - 0x100) / 0x40, h⟩)
  else none

/-! ### Words from fields -/

/-- A flag at bit position k of a register word. -/
def flagAt (k : Nat) (b : Bool) : Word := if b then BitVec.twoPow 32 k else 0

/-- A 16-bit field at bits 15:0. -/
def low16 (v : Word16) : Word := v.setWidth 32

/-- Two 16-bit fields: `hi` at bits 31:16, `lo` at bits 15:0. -/
def pair16 (hi lo : Word16) : Word := hi ++ lo

/-- The code of STATE (R122). -/
def PState.code : PState → Word
  | .idle => 0
  | .configured => 1
  | .running => 2

/-- The code of a result (R120). -/
def ErrCode.code : ErrCode → Byte
  | .ok => 0
  | .invalidSamplingRate => 1
  | .invalidSampleCount => 2
  | .invalidChannelCount => 3
  | .pingPongAddressCollision => 4
  | .addressOutOfRange => 5
  | .calibrationTimeout => 6
  | .transferError => 7
  | .schedulingInfeasible => 8
  | .invalidState => 9
  | .calibrationNotLoaded => 10
  | .invalidCommand => 11

/-- RESULT as a word (R22): CODE in bits 7:0, INFO in bits 15:8. -/
def Result.word (r : Result) : Word := low16 (r.info ++ r.code.code)

/-- STATUS (R25, R261): STATE, CAL_VALID in bit 2, IRQ_LINE in bit 3. -/
def statusWord (s : State) : Word := s.st.code ||| flagAt 2 s.calValid ||| flagAt 3 (irqLine s)

/-- MODE as a word (R22): N 4:0, STATIC 8, SHARED 9, ARD 10. -/
def Mode.word (m : Mode) : Word :=
  m.n.setWidth 32 ||| flagAt 8 m.static ||| flagAt 9 m.shared ||| flagAt 10 m.ard

/-- FAULT as a word (R22): OVERRUN 15:0, DEMUX_ERR 16. -/
def faultWord (s : State) : Word := low16 s.overrun ||| flagAt 16 s.demuxErr

/-- CH_ENABLE as a word (R22): CH_EN 15:0, CLK_EN 16. -/
def chEnableWord (s : State) : Word := low16 s.chEn ||| flagAt 16 s.clkEn

/-- REQ_CFG as a word (R23): NUM_SAMPLES 15:0, DIFF 16, DAC 17, GAIN 31:24. -/
def reqCfgWord (c : Channel) : Word :=
  low16 c.numSamples ||| flagAt 16 c.diff ||| flagAt 17 c.dac ||| (c.gain.setWidth 32 <<< 24)

/-- FILL as a word (R23): COUNT 15:0, HALF 16. -/
def fillWord (c : Channel) : Word := low16 c.count ||| flagAt 16 (decide (c.half = .pong))

/-- ACT_CFG as a word (R23): A_NS 15:0, A_DIFF 16. -/
def actCfgWord (c : Channel) : Word := low16 c.aNs ||| flagAt 16 c.aDiff

/-- R261: what a global register reads as; CMD reads 0. -/
def globalWord (s : State) : GlobalReg → Word
  | .cmd => 0
  | .status => statusWord s
  | .result => s.result.word
  | .baseClk => s.baseClk
  | .mode => s.mode.word
  | .onCycles => s.onCycles
  | .totalCycles => s.totalCycles
  | .irqStatus => low16 s.irqStatus
  | .irqMask => low16 s.irqMask
  | .errStatus => low16 s.errStatus
  | .fault => faultWord s
  | .actBaseClk => s.actBaseClk
  | .actMode => s.actMode.word
  | .chEnable => chEnableWord s
  | .calSeOffset => low16 s.calSeOffset
  | .calSeGain => s.calSeGain
  | .calDiffOffset => low16 s.calDiffOffset
  | .calDiffGain => s.calDiffGain

/-- R261: what a bank register reads as. -/
def bankWord (c : Channel) : BankReg → Word
  | .reqRate => c.reqRate
  | .reqCfg => reqCfgWord c
  | .pingAddr => c.pingAddr
  | .pongAddr => c.pongAddr
  | .pingLen => low16 c.pingLen
  | .pongLen => low16 c.pongLen
  | .rxAddr => c.rxAddr
  | .sched => pair16 c.off c.sf
  | .achRate => c.ach
  | .fill => fillWord c
  | .actPingAddr => c.aPingAddr
  | .actPongAddr => c.aPongAddr
  | .actLen => pair16 c.aPongLen c.aPingLen
  | .actRxAddr => c.aRxAddr
  | .actCfg => actCfgWord c

/-- What a register reads as. -/
def regWord (s : State) : Reg → Word
  | .glob g => globalWord s g
  | .bank i r => bankWord (s.chan i) r

/-- `rd(o)` (R261, R262): 0 where the offset names no register. -/
def readOffset (s : State) (offset : Nat) : Word :=
  match regAt offset with
  | some r => regWord s r
  | none => 0

/-! ### Fields from words (R260: bits at reserved positions are dropped) -/

/-- The fields of MODE in a written word (R28). -/
def modeOf (v : Word) : Mode where
  n := v.extractLsb' 0 5
  static := v.getLsbD 8
  shared := v.getLsbD 9
  ard := v.getLsbD 10

/-- A write to a bank register (R23, R260): a read-only register does not change. -/
def writeBank (c : Channel) (v : Word) : BankReg → Channel
  | .reqRate => { c with reqRate := v }
  | .reqCfg => { c with numSamples := v.extractLsb' 0 16, diff := v.getLsbD 16, dac := v.getLsbD 17,
                        gain := v.extractLsb' 24 8 }
  | .pingAddr => { c with pingAddr := v }
  | .pongAddr => { c with pongAddr := v }
  | .pingLen => { c with pingLen := v.extractLsb' 0 16 }
  | .pongLen => { c with pongLen := v.extractLsb' 0 16 }
  | .rxAddr => { c with rxAddr := v }
  | .sched => c
  | .achRate => c
  | .fill => c
  | .actPingAddr => c
  | .actPongAddr => c
  | .actLen => c
  | .actRxAddr => c
  | .actCfg => c

/-- A write to a register other than CMD (R22, R260): BASE_CLK, MODE and the staging banks change, a
read-only register does not. CMD is not storage (R24). -/
def writeReg (s : State) (v : Word) : Reg → State
  | .glob .baseClk => { s with baseClk := v }
  | .glob .mode => { s with mode := modeOf v }
  | .glob .cmd => s
  | .glob .status => s
  | .glob .result => s
  | .glob .onCycles => s
  | .glob .totalCycles => s
  | .glob .irqStatus => s
  | .glob .irqMask => s
  | .glob .errStatus => s
  | .glob .fault => s
  | .glob .actBaseClk => s
  | .glob .actMode => s
  | .glob .chEnable => s
  | .glob .calSeOffset => s
  | .glob .calSeGain => s
  | .glob .calDiffOffset => s
  | .glob .calDiffGain => s
  | .bank i r => s.setChan i (writeBank (s.chan i) v r)

/-- A write at an offset other than CMD's (R260, R262): nothing changes where it names no register. -/
def writeOffset (s : State) (offset : Nat) (v : Word) : State :=
  match regAt offset with
  | some r => writeReg s v r
  | none => s

end Sys2Proof.Machine
end

