-- ==== Sys2Proof/Machine/Pipeline.lean ====
section
/-! DEFINITION. The commands of the AcquisitionPipeline (43_acquisition_pipeline.md sections 1 to 3): NOP,
CONFIGURE, START, STOP, DEINIT, the reserved opcodes, and the reset event (R310). -/

namespace Sys2Proof.Machine

/-- NOP (R211): RESULT <- Ok. -/
def execNop (s : State) : Host.Outcome State Fault Refusal := .next s.succeed

/-! ### CONFIGURE, part 1: validation (R212); each check answers the failure it raises -/

/-- A failing check on no channel. -/
def failing (b : Bool) (e : ErrCode) : Option Result := if b then some { code := e, info := noInfo } else none

/-- A failing check on channel i. -/
def failingOn (i : Chan) (b : Bool) (e : ErrCode) : Option Result :=
  if b then some { code := e, info := chanInfo i } else none

/-- The first failure in a list of checks (R275). -/
def firstFailure (l : List (Option Result)) : Option Result := l.findSome? id

/-- A check made on the channels 0..n-1 ascending; n is MODE.N. -/
def checkChans (s : State) (f : Chan → Option Result) : Option Result :=
  (chansBelow s.mode.n.toNat).findSome? f

/-- B(i) of R213: channel i owns a buffer descriptor in the request. -/
def isRequestBuffer (s : State) (i : Chan) : Bool := !s.mode.shared || decide (i = 0)

/-- `buf_ok` (R90). -/
def bufOk (p : Params) (addr len : Nat) : Bool :=
  decide (1 ≤ len) && decide (len ≤ p.lenMax) && decide (addr % 2 = 0) &&
  decide (p.addrMin ≤ addr) && decide (addr + 2 * len - 1 ≤ p.addrMax)

/-- `rx_ok` (R91, R212). -/
def rxOk (p : Params) (addr ns : Nat) : Bool :=
  decide (addr % 2 = 0) && decide (p.addrMin ≤ addr) && decide (addr + 2 * ns - 1 ≤ p.addrMax)

/-- The channel before i; for channel 0 itself. -/
def prevChan (i : Chan) : Chan := ⟨i.val - 1, by omega⟩

/-- Check 5 for channel i: zero, above the device maximum, above its predecessor. -/
def checkRate (s : State) (i : Chan) : Option Result :=
  firstFailure
    [failingOn i (decide ((s.chan i).reqRate.toNat = 0)) .invalidSamplingRate,
     failingOn i (decide (5000000 < (s.chan i).reqRate.toNat)) .invalidSamplingRate,
     failingOn i (decide (0 < i.val) &&
       decide ((s.chan (prevChan i)).reqRate.toNat < (s.chan i).reqRate.toNat)) .invalidSamplingRate]

/-- Check 6 for channel i: range, then static mode. -/
def checkSamples (s : State) (i : Chan) : Option Result :=
  firstFailure
    [failingOn i (decide ((s.chan i).numSamples.toNat < 1) || decide (1023 < (s.chan i).numSamples.toNat))
       .invalidSampleCount,
     failingOn i (s.mode.static && decide ((s.chan i).numSamples.toNat ≠ 1)) .invalidSampleCount]

/-- Check 7 for channel i. -/
def checkCollision (s : State) (i : Chan) : Option Result :=
  failingOn i (isRequestBuffer s i && decide ((s.chan i).pingAddr = (s.chan i).pongAddr))
    .pingPongAddressCollision

/-- Check 8 for channel i: the ping-pong pair, then the receive buffer. -/
def checkBuffers (p : Params) (s : State) (i : Chan) : Option Result :=
  firstFailure
    [failingOn i (isRequestBuffer s i &&
       !(bufOk p (s.chan i).pingAddr.toNat (s.chan i).pingLen.toNat &&
         bufOk p (s.chan i).pongAddr.toNat (s.chan i).pongLen.toNat)) .addressOutOfRange,
     failingOn i (!rxOk p (s.chan i).rxAddr.toNat (s.chan i).numSamples.toNat) .addressOutOfRange]

/-- Checks 1 to 8 of R212, in their order; the first that fails decides. -/
def validate (p : Params) (s : State) : Option Result :=
  firstFailure
    [failing (decide (s.st ≠ .idle)) .invalidState,
     failing (decide (s.mode.n.toNat < 1) || decide (16 < s.mode.n.toNat)) .invalidChannelCount,
     failing (s.mode.static && decide (s.mode.n.toNat ≠ 1)) .invalidChannelCount,
     failing (decide (s.baseClk.toNat = 0)) .invalidSamplingRate,
     checkChans s (checkRate s),
     checkChans s (checkSamples s),
     checkChans s (checkCollision s),
     checkChans s (checkBuffers p s)]

/-- The operands CONFIGURE hands to `compute_schedule` (R150, R212 check 9). -/
def schedArgs (s : State) : SchedArgs where
  base := s.baseClk.toNat
  chans := (chansBelow s.mode.n.toNat).map fun i =>
    { rate := (s.chan i).reqRate.toNat, gain := (s.chan i).gain, dac := (s.chan i).dac }
  ns0 := (s.chan 0).numSamples.toNat
  static := s.mode.static

/-! ### CONFIGURE, parts 2 and 3: latch and primitives (R213, R214) -/

/-- The latched bank of an enabled channel (R213). -/
def latchEnabled (base sf off : Nat) (buffer : Bool) (c : Channel) : Channel :=
  { c with
    sf := BitVec.ofNat 16 sf
    off := BitVec.ofNat 16 off
    ach := BitVec.ofNat 32 (achievedRate base sf)
    aNs := c.numSamples
    aDiff := c.diff
    aRxAddr := c.rxAddr
    aPingAddr := if buffer then c.pingAddr else 0
    aPongAddr := if buffer then c.pongAddr else 0
    aPingLen := if buffer then c.pingLen else 0
    aPongLen := if buffer then c.pongLen else 0
    count := 0
    half := .ping }

/-- The latched bank of a channel that is not enabled: every active field 0 (R213, D43). -/
def latchDisabled (c : Channel) : Channel :=
  { c with
    sf := 0, off := 0, ach := 0, aNs := 0, aDiff := false, aRxAddr := 0, aPingAddr := 0, aPongAddr := 0,
    aPingLen := 0, aPongLen := 0, count := 0, half := .ping }

/-- Channel i's bank after a successful CONFIGURE (R213). -/
def latchBank (s : State) (sch : Schedule) (offs : List Nat) (i : Chan) (c : Channel) : Channel :=
  if i.val < s.mode.n.toNat then
    latchEnabled s.baseClk.toNat (sch.sf.getD i.val 0) (offs.getD i.val 0) (isRequestBuffer s i) c
  else latchDisabled c

/-- The register writes of R213, STATE and RESULT apart. -/
def latchConfig (s : State) (sch : Schedule) (offs : List Nat) : State :=
  { s with
    actBaseClk := s.baseClk
    actMode := s.mode
    onCycles := BitVec.ofNat 32 sch.on
    totalCycles := BitVec.ofNat 32 sch.total
    ch := mapBanks (latchBank s sch offs) s.ch
    overrun := 0
    demuxErr := false
    chEn := lowBits s.mode.n.toNat }

/-- Arm both halves of channel i if it is a buffer channel (R214). -/
def armBoth (i : Chan) (s : State) : State :=
  if isRequestBuffer s i then
    hwProgramBuffer i .pong (halfAddr s i .pong) (halfLen s i .pong)
      (hwProgramBuffer i .ping (halfAddr s i .ping) (halfLen s i .ping) s)
  else s

/-- The primitives of R214, in order. -/
def programCore (s : State) : State :=
  forChansBelow s.activeN hwEnableChannel
    (forChansBelow s.activeN armBoth (hwSetClockDivider s.onCycles s.totalCycles s))

/-- A successful CONFIGURE (R213, R214): latch, primitives, STATE last, RESULT <- Ok. -/
def configureDone (s : State) (sch : Schedule) (offs : List Nat) : State :=
  { programCore (latchConfig s sch offs) with st := .configured }.succeed

/-- CONFIGURE under given parameters (R212 to R215). -/
def configureWith (p : Params) (s : State) : State :=
  match validate p s with
  | some r => s.fail r.code r.info
  | none =>
    match computeSchedule p.delay (schedArgs s) with
    | none => s.fail .schedulingInfeasible noInfo
    | some sch =>
      match assignOffsets sch.sf with
      | none => s.fail .schedulingInfeasible noInfo
      | some offs => configureDone s sch offs

/-- CONFIGURE (R212 to R215) under this machine's parameters. -/
def execConfigure (s : State) : Host.Outcome State Fault Refusal := .next (configureWith Config.params s)

/-! ### START, STOP, DEINIT, reserved opcodes -/

/-- START as a function of the state (R216). -/
def startPipeline (s : State) : State :=
  if s.st ≠ .configured then s.fail .invalidState noInfo
  else if s.calValid then
    { forChansBelow s.activeN hwUnmaskInterrupt (hwSetClockEnable true s) with st := .running }.succeed
  else s.fail .calibrationNotLoaded noInfo

/-- START (R216). -/
def execStart (s : State) : Host.Outcome State Fault Refusal := .next (startPipeline s)

/-- Every fill counter to 0 (R217). -/
def clearCounts (s : State) : State :=
  { s with ch := mapBanks (fun _ c => { c with count := 0 }) s.ch }

/-- The primitives that stop the core (R217, R218): mask every enabled channel, switch the clock off. The
mask register is set whole in between, as R217 says. -/
def stopCore (s : State) : State :=
  hwSetClockEnable false { forChansBelow s.activeN hwMaskInterrupt s with irqMask := 0xFFFF }

/-- STOP as a function of the state (R217). -/
def stopPipeline (s : State) : State :=
  if s.st = .idle then s.fail .invalidState noInfo
  else { clearCounts { stopCore s with irqStatus := 0, errStatus := 0 } with st := .idle }.succeed

/-- STOP (R217). -/
def execStop (s : State) : Host.Outcome State Fault Refusal := .next (stopPipeline s)

/-- DEINIT as a function of the state (R218): never fails. -/
def deinitPipeline (s : State) : State :=
  if s.st = .idle then s.resetRegisters.succeed else (stopCore s).resetRegisters.succeed

/-- DEINIT (R218). -/
def execDeinit (s : State) : Host.Outcome State Fault Refusal := .next (deinitPipeline s)

/-- A reserved opcode (R219): InvalidCommand, nothing else changes. -/
def execReservedCmd (_v : Word) (s : State) : Host.Outcome State Fault Refusal :=
  .next (s.fail .invalidCommand noInfo)

/-- The reset event (R310): the reset values, and nothing appended to either trace. -/
def execReset (s : State) : Host.Outcome State Fault Refusal := .next s.resetRegisters

end Sys2Proof.Machine
end

