-- ==== Sys2Proof/Machine/HostAccess.lean ====
section
/-! DEFINITION. The HOST steps `wr` and `rd` (44_host_access.md). -/

namespace Sys2Proof.Machine

/-- A write to CMD runs the command whose opcode is the word (R24, R112, R260). -/
def runCommand (v : Word) (s : State) : Host.Outcome State Fault Refusal :=
  match v.toNat with
  | 0 => execNop s
  | 1 => execCalLoad s
  | 2 => execConfigure s
  | 3 => execStart s
  | 4 => execStop s
  | 5 => execDeinit s
  | _ => execReservedCmd v s

/-- `wr REG, v` (R260, R262). -/
def execWr (offset : Word16) (v : Word) (s : State) : Host.Outcome State Fault Refusal :=
  if offset = 0 then runCommand v s else .next (writeOffset s offset.toNat v)

/-- `rd REG -> v` (R261, R262): nothing in the block changes; the word it returns stands in the model's
read-data port. The record's own value operand is not read (log entry 5). -/
def execRd (offset : Word16) (_value : Word) (s : State) : Host.Outcome State Fault Refusal :=
  .next { s with rdata := readOffset s offset.toNat }

end Sys2Proof.Machine
end

