-- ==== Sys2Proof/Machine/Primitives.lean ====
section
/-! DEFINITION. The rows of format HWOP (R125) and of format EVT (R121), each executed as the one append it
is, with its effect on block state. The block itself issues them inside its commands and SERVICE; taking one
as a step of its own is the model's (log entry 3, safe). -/

namespace Sys2Proof.Machine

/-- `set_clock_divider(on, total)`. -/
def execSetClockDivider (on total : Word) (s : State) : Host.Outcome State Fault Refusal :=
  .next (hwSetClockDivider on total s)

/-- `program_buffer(channel, half, addr, len)`. -/
def execProgramBuffer (c : Chan) (h : Half) (addr : Word) (len : Word16) (s : State) :
    Host.Outcome State Fault Refusal :=
  .next (hwProgramBuffer c h addr len s)

/-- `enable_channel(channel)`. -/
def execEnableChannel (c : Chan) (s : State) : Host.Outcome State Fault Refusal := .next (hwEnableChannel c s)

/-- `unmask_interrupt(channel)`. -/
def execUnmaskInterrupt (c : Chan) (s : State) : Host.Outcome State Fault Refusal :=
  .next (hwUnmaskInterrupt c s)

/-- `read_interrupt_status() = bitmask`: the bitmask is what the read returns, IRQ_STATUS; the record's own
operand is not read (log entry 5). -/
def execReadInterruptStatus (_bitmask : Word16) (s : State) : Host.Outcome State Fault Refusal :=
  .next (hwReadInterruptStatus s)

/-- `clear_interrupt(channel)`. -/
def execClearInterrupt (c : Chan) (s : State) : Host.Outcome State Fault Refusal :=
  .next (hwClearInterrupt c s)

/-- `mask_interrupt(channel)`. -/
def execMaskInterrupt (c : Chan) (s : State) : Host.Outcome State Fault Refusal :=
  .next (hwMaskInterrupt c s)

/-- `set_clock_enable(b)`. -/
def execSetClockEnable (b : Bool) (s : State) : Host.Outcome State Fault Refusal :=
  .next (hwSetClockEnable b s)

/-- The event DataReady(channel). -/
def execDataReady (c : Chan) (s : State) : Host.Outcome State Fault Refusal := .next (s.emit .dataReady c)

/-- The event SampleGroupComplete(channel). -/
def execSampleGroupComplete (c : Chan) (s : State) : Host.Outcome State Fault Refusal :=
  .next (s.emit .sampleGroupComplete c)

/-- The event BufferFull(channel). -/
def execBufferFull (c : Chan) (s : State) : Host.Outcome State Fault Refusal := .next (s.emit .bufferFull c)

/-- The event TransferError(channel). -/
def execTransferError (c : Chan) (s : State) : Host.Outcome State Fault Refusal :=
  .next (s.emit .transferError c)

end Sys2Proof.Machine
end

