-- ==== Sys2Proof/Machine/Service.lean ====
section
/-! DEFINITION. SERVICE, the interrupt sequence (43_acquisition_pipeline.md section 4): its entry condition,
transfer errors, swap and re-arm, and the delivery of the just-filled halves. -/

namespace Sys2Proof.Machine

/-- The scratch values of one drain for one channel (R231): stored, done, dropped. -/
structure Tally where
  stored : Bool
  done : Nat
  dropped : Bool
  deriving DecidableEq, Repr

/-- A drain in progress: the state and the scratch values. -/
structure Drain where
  s : State
  tally : Vector Tally 16
  deriving DecidableEq, Repr

/-- The scratch values at the start of a drain (R231): all zero. -/
def startDrain (s : State) : Drain :=
  { s, tally := Vector.replicate 16 { stored := false, done := 0, dropped := false } }

/-- Channel t's fill counter after one stored sample (R232): back to 0 on completion unless A_ARD = 1. -/
def nextCount (ard : Bool) (c : Channel) : Word16 :=
  if c.count + 1 = c.aNs ∧ ard = false then 0 else c.count + 1

/-- Channel t's scratch values after one stored sample (R232). -/
def tallyStored (c : Channel) (x : Tally) : Tally :=
  { x with stored := true, done := if c.count + 1 = c.aNs then x.done + 1 else x.done }

/-- Where channel t's next sample is stored (R232). -/
def storeAddr (c : Channel) : Nat := c.aRxAddr.toNat + 2 * c.count.toNat

/-- `route(t, w)` (R232). -/
def route (t : Chan) (w : Word16) (d : Drain) : Except Fault Drain :=
  if (d.s.chan t).count = (d.s.chan t).aNs then
    .ok { d with tally := d.tally.set t.val { d.tally[t.val] with dropped := true } }
  else
    match d.s.store16 (storeAddr (d.s.chan t)) (applyCal d.s w (d.s.chan t).aDiff) with
    | .error f => .error f
    | .ok s' =>
      .ok { s := s'.setChan t { d.s.chan t with count := nextCount d.s.actMode.ard (d.s.chan t) }
            tally := d.tally.set t.val (tallyStored (d.s.chan t) d.tally[t.val]) }

/-- The channel id of a raw sample word, w[15:12] (R115). -/
def sampleChan (w : Word16) : Chan := (w.extractLsb' 12 4).toFin

/-- `demux(w)` (R233): route by the embedded id; an id that is not enabled is dropped and recorded. -/
def demux (w : Word16) (d : Drain) : Except Fault Drain :=
  if (sampleChan w).val < d.s.activeN then route (sampleChan w) w d
  else .ok { d with s := { d.s with demuxErr := true } }

/-- One sample of channel c's half (R231). -/
def deliver (c : Chan) (w : Word16) (d : Drain) : Except Fault Drain :=
  if d.s.actMode.shared then demux w d else route c w d

/-- The samples k, k+1, … of the buffer at address a, `left` of them, in ascending address order (R231). -/
def drainFrom (c : Chan) (a : Nat) : Nat → Nat → Drain → Except Fault Drain
  | 0, _, d => .ok d
  | left + 1, k, d =>
    match d.s.load16 (a + 2 * k) with
    | .error f => .error f
    | .ok w =>
      match deliver c w d with
      | .error f => .error f
      | .ok d' => drainFrom c a left (k + 1) d'

/-- The events of one channel at the end of a drain (R234). -/
def tallyEvents (t : Chan) (x : Tally) : List Event :=
  (if x.stored then [{ channel := t, kind := .dataReady }] else []) ++
  List.replicate x.done { channel := t, kind := .sampleGroupComplete } ++
  (if x.dropped then [{ channel := t, kind := .bufferFull }] else [])

/-- `events()` (R234): channels ascending. -/
def drainEvents (d : Drain) : List Event := allChans.flatMap fun t => tallyEvents t d.tally[t.val]

/-- `drain(c, h)` (R231). -/
def drain (c : Chan) (h : Half) (s : State) : Except Fault State :=
  match drainFrom c (halfAddr s c h).toNat (halfLen s c h).toNat 0 (startDrain s) with
  | .error f => .error f
  | .ok d => .ok (d.s.emitAll (drainEvents d))

/-- Phase E of R230 for one channel: ERR_STATUS[c] <- 0, TransferError(c). -/
def reportError (s : State) (c : Chan) : State :=
  { s with errStatus := clearBit s.errStatus c }.emit .transferError c

/-- Toggle channel c's active half (R230). -/
def toggleHalf (c : Chan) (s : State) : State :=
  s.setChan c { s.chan c with half := (s.chan c).half.other }

/-- Phase A of R230 for one channel: clear the interrupt, toggle the active half, re-arm the just-filled
half. -/
def swapHalf (s : State) (c : Chan) : State :=
  hwProgramBuffer c (s.chan c).half (halfAddr s c (s.chan c).half) (halfLen s c (s.chan c).half)
    (toggleHalf c (hwClearInterrupt c s))

/-- Phase B of R230: deliver the just-filled halves in order. -/
def deliverAll : List (Chan × Half) → State → Except Fault State
  | [], s => .ok s
  | (c, h) :: rest, s =>
    match drain c h s with
    | .error f => .error f
    | .ok s' => deliverAll rest s'

/-- The just-filled halves jf of R230. Each channel occurs once in S and phase E changes no half, so the
half a channel has at entry is the one phase A finds. -/
def justFilled (s : State) : List (Chan × Half) := (pendingFull s).map fun c => (c, (s.chan c).half)

/-- The state after the entry read and the phases E and A of R230. -/
def serviceSwapped (s : State) : State :=
  (pendingFull s).foldl swapHalf ((pendingErr s).foldl reportError (hwReadInterruptStatus s))

/-- SERVICE (R230), once enabled. -/
def service (s : State) : Except Fault State := deliverAll (justFilled s) (serviceSwapped s)

/-- `svc` (R230): one SERVICE step, when it is enabled. -/
def execSvc (s : State) : Host.Outcome State Fault Refusal :=
  if serviceEnabled s then outcomeOf (service s) else .refused .serviceNotEnabled

end Sys2Proof.Machine
end

