-- ==== Sys2Proof/Machine/Dispatch.lean ====
section
/-! DEFINITION. The meaning of each instruction, one arm per constructor. -/

namespace Sys2Proof.Machine

def exec (i : Instr) (s : State) : Host.Outcome State Fault Refusal :=
  match i with
  | .nop => Sys2Proof.Machine.execNop s
  | .calLoad => Sys2Proof.Machine.execCalLoad s
  | .configure => Sys2Proof.Machine.execConfigure s
  | .start => Sys2Proof.Machine.execStart s
  | .stop => Sys2Proof.Machine.execStop s
  | .deinit => Sys2Proof.Machine.execDeinit s
  | .reservedCmd v => Sys2Proof.Machine.execReservedCmd v s
  | .wr offset value => Sys2Proof.Machine.execWr offset value s
  | .rd offset value => Sys2Proof.Machine.execRd offset value s
  | .svc => Sys2Proof.Machine.execSvc s
  | .eng c h k w => Sys2Proof.Machine.execEng c h k w s
  | .half c => Sys2Proof.Machine.execHalf c s
  | .xerr c => Sys2Proof.Machine.execXerr c s
  | .trim answers => Sys2Proof.Machine.execTrim answers s
  | .reset => Sys2Proof.Machine.execReset s
  | .setClockDivider on total => Sys2Proof.Machine.execSetClockDivider on total s
  | .programBuffer c h addr len => Sys2Proof.Machine.execProgramBuffer c h addr len s
  | .enableChannel c => Sys2Proof.Machine.execEnableChannel c s
  | .unmaskInterrupt c => Sys2Proof.Machine.execUnmaskInterrupt c s
  | .readInterruptStatus bitmask => Sys2Proof.Machine.execReadInterruptStatus bitmask s
  | .clearInterrupt c => Sys2Proof.Machine.execClearInterrupt c s
  | .maskInterrupt c => Sys2Proof.Machine.execMaskInterrupt c s
  | .setClockEnable b => Sys2Proof.Machine.execSetClockEnable b s
  | .dataReady c => Sys2Proof.Machine.execDataReady c s
  | .sampleGroupComplete c => Sys2Proof.Machine.execSampleGroupComplete c s
  | .bufferFull c => Sys2Proof.Machine.execBufferFull c s
  | .transferError c => Sys2Proof.Machine.execTransferError c s
  | .computeSchedule args => Sys2Proof.Machine.execComputeSchedule args s
  | .roundPow2 x => Sys2Proof.Machine.execRoundPow2 x s
  | .assignOffsets sf => Sys2Proof.Machine.execAssignOffsets sf s
  | .apply raw differential => Sys2Proof.Machine.execApply raw differential s

end Sys2Proof.Machine
end

