-- ==== Sys2Proof/Machine/Fetch.lean ====
section
/-! DEFINITION. Taking the next step from the input list (R126: a program is a list of steps; log entry 1). -/

namespace Sys2Proof.Machine

/-- The instruction the next record decodes to, or why there is none. -/
def fetch (s : State) : Except Refusal Instr :=
  match s.input with
  | [] => .error .endOfTrace
  | slot :: _ =>
    match decode slot with
    | .ok i => .ok i
    | .error e => .error (.undecodable e)

/-- The state past the fetched record. -/
def State.advance (s : State) : State := { s with input := s.input.tail }

/-- The state with a record as the next step. -/
def State.withSlot (s : State) (slot : Slot) : State := { s with input := slot :: s.input }

end Sys2Proof.Machine
end

