-- ==== Sys2Proof/Machine/Step.lean ====
section
/-! DEFINITION. One step of the machine: take the next record, decode it, execute it past it. -/

namespace Sys2Proof.Machine

/-- One atomic step of the agent whose record comes next (R8, R10). -/
def step (s : State) : Host.Outcome State Fault Refusal :=
  match fetch s with
  | .ok i => exec i s.advance
  | .error r => .refused r

/-- The state with a table word's record as the next step (log entries 1 and 6). -/
def State.withFetchWord (s : State) (nbits w : Nat) : State := s.withSlot (tableSlot nbits w)

end Sys2Proof.Machine
end

