-- ==== Sys2Proof/Safety.lean ====
section
/-! DEFINITION. The terms in which claims are made: the constraints on the parameters (R6), the valid
request (R212), the laws every reachable state keeps (R51), and what counts as gone wrong (R296). -/

namespace Sys2Proof.Machine

/-- The constraints R6 states for the window and the longest half. -/
def ParamsOk (p : Params) : Prop :=
  p.addrMin % 2 = 0 ∧ p.addrMin ≤ p.addrMax ∧ p.addrMax < 2 ^ 32 ∧ 1 ≤ p.lenMax ∧ p.lenMax ≤ 65535 ∧
  p.delay 0 = 0 ∧ (∀ g, p.delay g ≤ p.delay (g + 1)) ∧ ∀ g, p.delay g ≤ 65535

/-- A buffer half of `len` samples at `addr` is addressable (R90). -/
def BufferAddressable (p : Params) (addr len : Nat) : Prop :=
  1 ≤ len ∧ len ≤ p.lenMax ∧ addr % 2 = 0 ∧ p.addrMin ≤ addr ∧ addr + 2 * len - 1 ≤ p.addrMax

/-- A receive buffer of `ns` samples at `addr` is addressable (R91). -/
def ReceiveAddressable (p : Params) (addr ns : Nat) : Prop :=
  addr % 2 = 0 ∧ p.addrMin ≤ addr ∧ addr + 2 * ns - 1 ≤ p.addrMax

/-- Channel i is one of the channels the request enables. -/
def Requested (s : State) (i : Chan) : Prop := i.val < s.mode.n.toNat

/-- Channel i owns a ping-pong pair in the request (R213: B(i)). -/
def RequestedBuffer (s : State) (i : Chan) : Prop := Requested s i ∧ (s.mode.shared = false ∨ i = 0)

/-- Checks 2 and 3 of R212 pass. -/
def CountGood (s : State) : Prop :=
  1 ≤ s.mode.n.toNat ∧ s.mode.n.toNat ≤ 16 ∧ (s.mode.static = true → s.mode.n.toNat = 1)

/-- Check 5 of R212 passes on channel i: not zero, not above the device maximum, not above its predecessor. -/
def RateGood (s : State) (i : Chan) : Prop :=
  1 ≤ (s.chan i).reqRate.toNat ∧ (s.chan i).reqRate.toNat ≤ 5000000 ∧
  ∀ j : Chan, j.val + 1 = i.val → (s.chan i).reqRate.toNat ≤ (s.chan j).reqRate.toNat

/-- Check 6 of R212 passes on channel i. -/
def SamplesGood (s : State) (i : Chan) : Prop :=
  1 ≤ (s.chan i).numSamples.toNat ∧ (s.chan i).numSamples.toNat ≤ 1023 ∧
  (s.mode.static = true → (s.chan i).numSamples.toNat = 1)

/-- Check 7 of R212 passes on channel i. -/
def HalvesDistinct (s : State) (i : Chan) : Prop :=
  RequestedBuffer s i → (s.chan i).pingAddr ≠ (s.chan i).pongAddr

/-- Check 8 of R212 passes on channel i. -/
def AddressesGood (p : Params) (s : State) (i : Chan) : Prop :=
  (RequestedBuffer s i →
    BufferAddressable p (s.chan i).pingAddr.toNat (s.chan i).pingLen.toNat ∧
    BufferAddressable p (s.chan i).pongAddr.toNat (s.chan i).pongLen.toNat) ∧
  ReceiveAddressable p (s.chan i).rxAddr.toNat (s.chan i).numSamples.toNat

/-- Channel i is the first requested channel on which a check fails (R275: channels ascending). -/
def FirstBad (s : State) (good : Chan → Prop) (i : Chan) : Prop :=
  Requested s i ∧ ¬ good i ∧ ∀ j : Chan, j.val < i.val → good j

/-- The staged request passes checks 1 to 8 of R212. -/
structure RequestValid (p : Params) (s : State) : Prop where
  idle : s.st = .idle
  count : CountGood s
  clock : s.baseClk ≠ 0
  rates : ∀ i, Requested s i → RateGood s i
  samples : ∀ i, Requested s i → SamplesGood s i
  distinct : ∀ i, Requested s i → HalvesDistinct s i
  addresses : ∀ i, Requested s i → AddressesGood p s i

/-- Channel c is enabled in the active configuration: c < A_N (R29). -/
def Enabled (s : State) (c : Chan) : Prop := c.val < s.activeN

/-- The active slot factors SF of the enabled channels, in channel order (R42). -/
def activeFactors (s : State) : List Nat := (chansBelow s.activeN).map fun c => (s.chan c).sf.toNat

/-- What the last successful CONFIGURE latched is legal (R51 (I4), R42, R31). It also holds after STOP and,
with A_N = 0, after reset. -/
structure LatchedOk (p : Params) (s : State) : Prop where
  count : s.activeN ≤ 16
  ring : s.actMode.shared = true → 1 ≤ s.activeN
  samples : ∀ c, Enabled s c → 1 ≤ (s.chan c).aNs.toNat ∧ (s.chan c).aNs.toNat ≤ 1023
  factors : ∀ c, Enabled s c → 2 ≤ (s.chan c).sf.toNat
  utilisation : overUtilised (activeFactors s) = false
  clockPlan : 1 ≤ s.activeN → s.onCycles.toNat < s.totalCycles.toNat
  receive : ∀ c, Enabled s c → ReceiveAddressable p (s.chan c).aRxAddr.toNat (s.chan c).aNs.toNat
  halves : ∀ c h, isBufferChan s c = true → BufferAddressable p (halfAddr s c h).toNat (halfLen s c h).toNat
  distinct : ∀ c, isBufferChan s c = true → (s.chan c).aPingAddr ≠ (s.chan c).aPongAddr

/-- The laws of R51, with the canonical form of MEM, for runs whose remaining steps are steps of the spec's
agents: records of format TRACE or words written to CMD (R126, R111). -/
structure BlockInv (s : State) : Prop where
  steps : ∀ slot ∈ s.input, slot.fmt = .trace ∨ slot.fmt = .cmd
  memory : s.mem.wf = true
  running : s.st = .running → s.calValid = true ∧ s.clkEn = true ∧
    ∀ c, bitOf s.irqMask c = false ↔ Enabled s c
  stopped : s.st ≠ .running → s.irqStatus = 0 ∧ s.errStatus = 0 ∧ s.irqMask = 0xFFFF ∧ s.clkEn = false ∧
    irqLine s = false
  session : s.st ≠ .idle → 1 ≤ s.activeN
  enabled : ∀ c, bitOf s.chEn c = true ↔ Enabled s c
  latched : LatchedOk Config.params s
  counts : ∀ c, (s.chan c).count.toNat ≤ (s.chan c).aNs.toNat
  rearmed : ∀ c, Enabled s c → s.actMode.ard = false → (s.chan c).count.toNat < (s.chan c).aNs.toNat
  pending : ∀ c, ¬ Enabled s c → bitOf s.irqStatus c = false ∧ bitOf s.errStatus c = false
  signalled : ∀ c, bitOf s.irqStatus c = true → isBufferChan s c = true

/-- Every half and every receive buffer a SERVICE step can reach lies inside the 2^32 bytes of MEM, and no
fill counter has passed its threshold. `BlockInv` implies it. -/
structure BuffersInMemory (s : State) : Prop where
  halves : ∀ c h, bitOf s.irqStatus c = true → (halfAddr s c h).toNat + 2 * (halfLen s c h).toNat ≤ 2 ^ 32
  receive : ∀ c, Enabled s c ∨ bitOf s.irqStatus c = true →
    (s.chan c).aRxAddr.toNat + 2 * (s.chan c).aNs.toNat ≤ 2 ^ 32
  counts : ∀ c, (s.chan c).count.toNat ≤ (s.chan c).aNs.toNat

/-- Address a lies in channel c's receive buffer (R41). -/
def InReceiveBuffer (s : State) (c : Chan) (a : Nat) : Prop :=
  (s.chan c).aRxAddr.toNat ≤ a ∧ a < (s.chan c).aRxAddr.toNat + 2 * (s.chan c).aNs.toNat

/-- No sticky fault is set: the source's promises about delivered data still hold (R296). -/
def NothingLost (s : State) : Prop := s.overrun = 0 ∧ s.demuxErr = false

/-- A channel bank without its staging fields (R20 (3)). -/
def Channel.eraseStaging (c : Channel) : Channel :=
  { c with
    reqRate := 0, numSamples := 0, diff := false, dac := false, gain := 0, pingAddr := 0, pongAddr := 0,
    pingLen := 0, pongLen := 0, rxAddr := 0 }

/-- The state without the staging registers (R20 (3), R99). -/
def State.eraseStaging (s : State) : State :=
  { s with
    baseClk := 0
    mode := { n := 0, static := false, shared := false, ard := false }
    ch := mapBanks (fun _ c => c.eraseStaging) s.ch }

/-- The outcome of a step without the staging registers. -/
def eraseOutcome : Host.Outcome State Fault Refusal → Host.Outcome State Fault Refusal
  | .next s => .next s.eraseStaging
  | .fault f => .fault f
  | .refused r => .refused r

/-- The command a step runs: a write to CMD runs the command its word is the opcode of (R24, R112). Every
other step is itself. -/
def commandOf (i : Instr) : Instr :=
  match i with
  | .wr o v => if o = 0 then decodeCmd v else .wr o v
  | i => i

/-- Channel c's half-full interrupt is pending and unmasked: c is in the snapshot S of R230. -/
def SignalsFull (s : State) (c : Chan) : Prop := bitOf s.irqStatus c = true ∧ bitOf s.irqMask c = false

/-- Channel c's transfer error is pending and unmasked: c is in the snapshot E of R230. -/
def SignalsError (s : State) (c : Chan) : Prop := bitOf s.errStatus c = true ∧ bitOf s.irqMask c = false

/-- The bits a host write stores at an offset (R22, R23, R124): 0 where the register is not RW. -/
def writableBits (offset : Nat) : Word :=
  match regAt offset with
  | some (.glob .baseClk) => 0xFFFFFFFF
  | some (.glob .mode) => 0x0000071F
  | some (.bank _ .reqRate) => 0xFFFFFFFF
  | some (.bank _ .reqCfg) => 0xFF03FFFF
  | some (.bank _ .pingAddr) => 0xFFFFFFFF
  | some (.bank _ .pongAddr) => 0xFFFFFFFF
  | some (.bank _ .pingLen) => 0x0000FFFF
  | some (.bank _ .pongLen) => 0x0000FFFF
  | some (.bank _ .rxAddr) => 0xFFFFFFFF
  | _ => 0

/-- The step reads the staging registers: CONFIGURE, and a host read of one of them (R99, R261). -/
def ReadsStaging (i : Instr) : Prop :=
  commandOf i = .configure ∨ ∃ o v, i = .rd o v ∧ writableBits o.toNat ≠ 0

/-! ### What a drain delivers, in closed form (R231 to R234) -/

/-- The listed channels are exactly those with P, in ascending order. -/
def AscendingList (l : List Chan) (P : Chan → Prop) : Prop := l.Pairwise (· < ·) ∧ ∀ c, c ∈ l ↔ P c

/-- Address of channel c's active half, the one its half-full interrupt reports (R230). -/
def filledAddr (s : State) (c : Chan) : Nat := (halfAddr s c (s.chan c).half).toNat

/-- Length of channel c's active half, in samples. -/
def filledLen (s : State) (c : Chan) : Nat := (halfLen s c (s.chan c).half).toNat

/-- Sample k of channel c's active half (R84). -/
def filledWord (s : State) (c : Chan) (k : Nat) : Word16 := s.mem.read16 (filledAddr s c + 2 * k)

/-- Address of channel c's receive buffer (R45). -/
def receiveAddr (s : State) (c : Chan) : Nat := (s.chan c).aRxAddr.toNat

/-- Channel c's fill counter (R44). -/
def fillCount (s : State) (c : Chan) : Nat := (s.chan c).count.toNat

/-- Channel c's fill threshold, A_NS (R46). -/
def threshold (s : State) (c : Chan) : Nat := (s.chan c).aNs.toNat

/-- l samples at address a and m samples at address b share no byte. -/
def SamplesApart (a l b m : Nat) : Prop := a + 2 * l ≤ b ∨ b + 2 * m ≤ a

/-- The place in the receive buffer of the j-th sample (from 0) that one drain routes to a channel with counter n
and threshold m; none where it is dropped (R232). -/
def samplePlace (ard : Bool) (n m j : Nat) : Option Nat :=
  if ard = true then (if n + j < m then some (n + j) else none)
  else if n < m then some ((n + j) % m) else none

/-- The counter after a drain that routes l samples to the channel (R232). -/
def countAfter (ard : Bool) (n m l : Nat) : Nat := if ard = true ∨ m ≤ n then min (n + l) m else (n + l) % m

/-- How many sample groups complete in such a drain (R232). -/
def groupsDone (ard : Bool) (n m l : Nat) : Nat :=
  if m ≤ n then 0 else if ard = true then (if m ≤ n + l then 1 else 0) else (n + l) / m

/-- The events of channel t at the end of such a drain (R234). -/
def drainReport (t : Chan) (ard : Bool) (n m l : Nat) : List Event :=
  (if n < m ∧ 1 ≤ l then [⟨t, .dataReady⟩] else []) ++
  List.replicate (groupsDone ard n m l) ⟨t, .sampleGroupComplete⟩ ++
  (if (ard = true ∨ m ≤ n) ∧ m < n + l then [⟨t, .bufferFull⟩] else [])

/-- The byte address where the j-th sample routed to channel u is stored, if it is. -/
def sampleAddr (s : State) (u : Chan) (j : Nat) : Option Nat :=
  (samplePlace s.actMode.ard (fillCount s u) (threshold s u) j).map fun p => receiveAddr s u + 2 * p

/-- No later one of the l samples routed to channel u is stored where the j-th is. -/
def LastThere (s : State) (u : Chan) (l j : Nat) : Prop :=
  ∀ j', j < j' → j' < l → sampleAddr s u j' ≠ sampleAddr s u j

/-- The samples of the ring's active half that carry channel u's id in bits 15:12, in order (R115, R233). -/
def ringSamples (s : State) (u : Chan) : List Nat :=
  (List.range (filledLen s 0)).filter fun k => decide ((filledWord s 0 k).toNat / 4096 = u.val)

/-! ### What the steps of the slot factors make (R151 to R159) -/

/-- q is the ceiling of a / b (R14). -/
def IsCeil (a b q : Nat) : Prop := a ≤ q * b ∧ ∀ q', a ≤ q' * b → q ≤ q'

/-- `util` (R158): the exact sum of the reciprocals. -/
def utilisation (sf : List Nat) : ℚ := (sf.map fun x : Nat => (1 : ℚ) / (x : ℚ)).sum

/-- The oversubscription loop (R157) takes `sf` to `out`: the least number of doublings that brings the
utilisation to at most 1, every factor fitting 16 bits (R156). -/
def Relieved (sf out : List Nat) : Prop :=
  ∃ j : Nat, out = sf.map (2 ^ j * ·) ∧ (∀ x ∈ out, x ≤ 65535) ∧ utilisation out ≤ 1 ∧
    ∀ i, i < j → 1 < utilisation (sf.map (2 ^ i * ·))

/-- The body of the channel loop for a created factor v (R151, R155 to R157): range, rounding when there are
several channels, range, then the loop over the channels so far. -/
def FactorAdded (a : SchedArgs) (prev : List Nat) (v : Nat) (cur : List Nat) : Prop :=
  v ≤ 65535 ∧ (1 < a.chans.length → roundPow2 v ≤ 65535) ∧
  Relieved (prev ++ [if 1 < a.chans.length then roundPow2 v else v]) cur

/-- A run of steps 1 to 5: `stages` holds the factors after each channel, `out` the factors at the end. -/
structure FactorRun (a : SchedArgs) (stages : List (List Nat)) (out : List Nat) : Prop where
  /-- One stage per channel. -/
  length : stages.length = a.chans.length
  /-- Step 1 (R152). -/
  first : ∀ c0 cur, a.chans[0]? = some c0 → stages[0]? = some cur →
    ∃ q, IsCeil a.base c0.rate q ∧ FactorAdded a [] (max 2 q) cur
  /-- Step 2 (R153), from the predecessor's current factor. -/
  next : ∀ (i : Nat) p c prev cur, a.chans[i]? = some p → a.chans[i + 1]? = some c →
    stages[i]? = some prev → stages[i + 1]? = some cur →
    ∃ q f, IsCeil p.rate c.rate q ∧ prev.getLast? = some f ∧ FactorAdded a prev (f * q) cur
  /-- Step 5 (R159). -/
  last : ∀ x xs, stages.getLast? = some (x :: xs) →
    if a.ns0 = 1 then Relieved (max 2 (x / 4) :: xs) out else out = x :: xs

end Sys2Proof.Machine
end

