-- ==== Sys2Proof/Certificates/Slice0/Obligations.lean ====
section
/-! DEFINITION. The statements for the provers, from the numbered rules of spec/. Each docstring names its
rules; a clause that rests on a choice of the model names the log entry. -/

open Sys2Proof Sys2Proof.Machine

/-! ### Encoding and the step -/

/-- R111, R112, R121, R125, R126: every well-formed instruction that has a record decodes from the record the
encoder writes; the pure functions have none (R110). The bytes of HWOP arguments are the model's choice
(log entry 7), and so are those of CMD and EVT words (log entry 29). -/
def Obligations.DecodeEncodeAgree : Prop :=
  ∀ i : Instr, i.wellFormed = true →
    (i.hasRecord = true → ∃ slot, encode i = some slot ∧ decode slot = .ok i) ∧
    (i.hasRecord = false → encode i = none)

/-- The converse: a record that decodes is well formed and is the one the encoder writes, so no bit of a
record is dropped (R111 compares all 32 bits, R126 the whole tag byte). The bytes of HWOP, CMD and EVT records are
the model's choice (log entries 7, 29). -/
def Obligations.DecodedRecordsEncodeBack : Prop :=
  ∀ (slot : Slot) (i : Instr), decode slot = .ok i → i.wellFormed = true ∧ encode i = some slot

/-- Records written out byte by byte from R112, R121, R125 and R126 decode to the steps they stand for. The bytes
of the CMD, HWOP and EVT records are the model's choice (log entries 7, 29). -/
def Obligations.SpecWordsDecode : Prop :=
  decode ⟨.cmd, [0x02, 0x00, 0x00, 0x00]⟩ = .ok .configure ∧
  decode ⟨.cmd, [0x02, 0x00, 0x01, 0x00]⟩ = .ok (.reservedCmd 0x00010002) ∧
  decode ⟨.trace, [0x01, 0x84, 0x01, 0x04, 0x00, 0x01, 0x03]⟩ = .ok (.wr 0x184 0x03010004) ∧
  decode ⟨.trace, [0x20, 0x00, 0x01, 0x01, 0x00, 0xEF, 0xBE]⟩ = .ok (.eng 0 .pong 1 0xBEEF) ∧
  decode ⟨.trace, [0x21, 0x03]⟩ = .ok (.half 3) ∧
  decode ⟨.hwop, [0x02, 0x05, 0x00, 0x00, 0x00]⟩ = .ok (.enableChannel 5) ∧
  decode ⟨.evt, [0x0F, 0x01, 0x00, 0x00]⟩ = .ok (.sampleGroupComplete 15)

/-- R126 ("every other tag value is not a step"), R125, R121, U19: a TRACE record with another tag, a HWOP
record with a tag above 7, an event word with a bit of 31:10 set or a channel above 15: no step, and the
machine refuses it (log entry 21). The bytes of an event word are the model's choice (log entry 29). -/
def Obligations.RecordsOutsideTheTablesAreRefused : Prop :=
  (∀ (tag : Byte) (ops : List Byte), tag ∉ [0x01, 0x02, 0x10, 0x20, 0x21, 0x22, 0x23, 0x30] →
    ∀ s : State, ∃ e, step (s.withSlot ⟨.trace, tag :: ops⟩) = .refused (.undecodable e)) ∧
  (∀ (tag : Byte) (args : List Byte), 8 ≤ tag.toNat →
    ∀ s : State, ∃ e, step (s.withSlot ⟨.hwop, tag :: args⟩) = .refused (.undecodable e)) ∧
  (∀ e : Word, 0x400 ≤ e.toNat ∨ 16 ≤ e.toNat % 256 →
    ∀ s : State, ∃ r, step (s.withSlot ⟨.evt, bytes32 e⟩) = .refused (.undecodable r))

/-- R8, R10, R126: a step takes the record at the head of the input list and runs the instruction it decodes
to, at the state past it; a record that does not decode, or none, is refused (log entries 1, 2, 21). -/
def Obligations.StepRunsDecodedInstruction : Prop :=
  (∀ (s : State) (slot : Slot) (rest : List Slot) (i : Instr), s.input = slot :: rest → decode slot = .ok i →
    step s = exec i { s with input := rest }) ∧
  (∀ (s : State) (slot : Slot) (rest : List Slot) (e : DecodeError), s.input = slot :: rest →
    decode slot = .error e → step s = .refused (.undecodable e)) ∧
  (∀ s : State, s.input = [] → step s = .refused .endOfTrace)

/-! ### Host access -/

/-- R111, R112: the whole word written to CMD is the opcode, and the write runs that command. -/
def Obligations.CmdWriteRunsTheCommand : Prop :=
  ∀ s : State,
    exec (.wr 0 0) s = exec .nop s ∧ exec (.wr 0 1) s = exec .calLoad s ∧
    exec (.wr 0 2) s = exec .configure s ∧ exec (.wr 0 3) s = exec .start s ∧
    exec (.wr 0 4) s = exec .stop s ∧ exec (.wr 0 5) s = exec .deinit s ∧
    ∀ v : Word, 6 ≤ v.toNat → exec (.wr 0 v) s = exec (.reservedCmd v) s

/-- R260, R124, R22, R23: a write at any offset but CMD's stores the bits of the defined fields of a RW
register there and drops the others; every other offset reads as before, and nothing but staging registers
changes. -/
def Obligations.WriteStoresTheDefinedBits : Prop :=
  ∀ (o : Word16) (v : Word) (s : State), o ≠ 0 →
    ∃ t, exec (.wr o v) s = .next t ∧
      readOffset t o.toNat = (readOffset s o.toNat &&& ~~~ writableBits o.toNat) ||| (v &&& writableBits o.toNat) ∧
      (∀ o' : Nat, o' ≠ o.toNat → readOffset t o' = readOffset s o') ∧
      t.eraseStaging = s.eraseStaging

/-- R260, R261, R262, R22, R23: a write to a read-only register, to a reserved offset, to an offset that is no
multiple of 4, or at 0x500 and above changes nothing at all; CMD, reserved offsets and the offsets outside the
block read 0, and a read changes nothing (the word stands in the model's read port, log entry 5). -/
def Obligations.OffsetsOutsideTheMapDoNothing : Prop :=
  ∀ (o : Word16) (v : Word) (s : State),
    (o ≠ 0 →
      (o.toNat % 4 ≠ 0 ∨ 0x500 ≤ o.toNat ∨
        (o.toNat < 0x100 ∧ o.toNat ≠ 0x00C ∧ o.toNat ≠ 0x010) ∨
        (0x100 ≤ o.toNat ∧ 0x1C ≤ (o.toNat - 0x100) % 0x40)) →
      exec (.wr o v) s = .next s) ∧
    ((o.toNat % 4 ≠ 0 ∨ 0x500 ≤ o.toNat ∨ o = 0 ∨ o = 0x038 ∨ o = 0x03C ∨
        (0x050 ≤ o.toNat ∧ o.toNat < 0x100) ∨ (0x100 ≤ o.toNat ∧ (o.toNat - 0x100) % 0x40 = 0x3C)) →
      exec (.rd o v) s = .next { s with rdata := 0 })

/-- R261 over the global registers of R22, with the codes of R120 and R122: the word a read returns, as the sum of its fields at their bit
positions; nothing else changes (R88). The word stands in the model's read port (log entry 5). -/
def Obligations.GlobalRegistersRead : Prop :=
  ∀ (v : Word) (s : State),
    let reads (o : Word16) (n : Nat) : Prop := ∃ t, exec (.rd o v) s = .next t ∧ t = { s with rdata := t.rdata } ∧ t.rdata.toNat = n
    reads 0x004 ((match s.st with | .idle => 0 | .configured => 1 | .running => 2) + 4 * s.calValid.toNat +
      8 * (irqLine s).toNat) ∧
    reads 0x008 ((match s.result.code with
        | .ok => 0 | .invalidSamplingRate => 1 | .invalidSampleCount => 2 | .invalidChannelCount => 3
        | .pingPongAddressCollision => 4 | .addressOutOfRange => 5 | .calibrationTimeout => 6 | .transferError => 7
        | .schedulingInfeasible => 8 | .invalidState => 9 | .calibrationNotLoaded => 10 | .invalidCommand => 11) +
      2 ^ 8 * s.result.info.toNat) ∧
    reads 0x00C s.baseClk.toNat ∧
    reads 0x010 (s.mode.n.toNat + 2 ^ 8 * s.mode.static.toNat + 2 ^ 9 * s.mode.shared.toNat +
      2 ^ 10 * s.mode.ard.toNat) ∧
    reads 0x014 s.onCycles.toNat ∧
    reads 0x018 s.totalCycles.toNat ∧
    reads 0x01C s.irqStatus.toNat ∧
    reads 0x020 s.irqMask.toNat ∧
    reads 0x024 s.errStatus.toNat ∧
    reads 0x028 (s.overrun.toNat + 2 ^ 16 * s.demuxErr.toNat) ∧
    reads 0x02C s.actBaseClk.toNat ∧
    reads 0x030 (s.actMode.n.toNat + 2 ^ 8 * s.actMode.static.toNat + 2 ^ 9 * s.actMode.shared.toNat +
      2 ^ 10 * s.actMode.ard.toNat) ∧
    reads 0x034 (s.chEn.toNat + 2 ^ 16 * s.clkEn.toNat) ∧
    reads 0x040 s.calSeOffset.toNat ∧
    reads 0x044 s.calSeGain.toNat ∧
    reads 0x048 s.calDiffOffset.toNat ∧
    reads 0x04C s.calDiffGain.toNat

/-- R261 over the bank of channel i at 0x100 + 0x40 * i (R23), as above. -/
def Obligations.BankRegistersRead : Prop :=
  ∀ (i : Chan) (v : Word) (s : State),
    let reads (k n : Nat) : Prop :=
      ∃ t, exec (.rd (BitVec.ofNat 16 (0x100 + 0x40 * i.val + k)) v) s = .next t ∧ t = { s with rdata := t.rdata } ∧
        t.rdata.toNat = n
    reads 0x00 (s.chan i).reqRate.toNat ∧
    reads 0x04 ((s.chan i).numSamples.toNat + 2 ^ 16 * (s.chan i).diff.toNat + 2 ^ 17 * (s.chan i).dac.toNat +
      2 ^ 24 * (s.chan i).gain.toNat) ∧
    reads 0x08 (s.chan i).pingAddr.toNat ∧
    reads 0x0C (s.chan i).pongAddr.toNat ∧
    reads 0x10 (s.chan i).pingLen.toNat ∧
    reads 0x14 (s.chan i).pongLen.toNat ∧
    reads 0x18 (s.chan i).rxAddr.toNat ∧
    reads 0x1C ((s.chan i).sf.toNat + 2 ^ 16 * (s.chan i).off.toNat) ∧
    reads 0x20 (s.chan i).ach.toNat ∧
    reads 0x24 ((s.chan i).count.toNat + 2 ^ 16 * (s.chan i).half.code) ∧
    reads 0x28 (s.chan i).aPingAddr.toNat ∧
    reads 0x2C (s.chan i).aPongAddr.toNat ∧
    reads 0x30 ((s.chan i).aPingLen.toNat + 2 ^ 16 * (s.chan i).aPongLen.toNat) ∧
    reads 0x34 (s.chan i).aRxAddr.toNat ∧
    reads 0x38 ((s.chan i).aNs.toNat + 2 ^ 16 * (s.chan i).aDiff.toNat)

/-- R99, R321, R29: the staging registers are read by CONFIGURE and by host reads of them, and by nothing
else: any other step does the same from two states that differ only in staging registers. -/
def Obligations.StagingIsNotLive : Prop :=
  ∀ (i : Instr) (s t : State), ¬ ReadsStaging i → s.eraseStaging = t.eraseStaging →
    eraseOutcome (exec i s) = eraseOutcome (exec i t)

/-! ### Commands -/

/-- R211: NOP writes RESULT <- Ok in every state, and nothing else. -/
def Obligations.NopWritesResultOk : Prop :=
  ∀ s : State, exec .nop s = .next { s with result := ⟨.ok, 0xFF⟩ }

/-- R219, R113: every opcode from 6 to 0xFFFF_FFFF answers InvalidCommand in every state, and changes nothing
but RESULT, which reads 0x0000_FF0B. -/
def Obligations.ReservedOpcodesAnswerInvalidCommand : Prop :=
  ∀ (v : Word) (s : State), 6 ≤ v.toNat →
    exec (.wr 0 v) s = .next { s with result := ⟨.invalidCommand, 0xFF⟩ } ∧
    exec (.reservedCmd v) s = .next { s with result := ⟨.invalidCommand, 0xFF⟩ } ∧
    readOffset { s with result := ⟨.invalidCommand, 0xFF⟩ } 0x008 = 0x0000FF0B

/-- R192, R190: CAL_LOAD. The four trim values are the device's unless a `trim` record fixed the answers
(R126); `a` is what TRIM answers this command. The model's own fields `trim` and `draws` may move (log entry
11); nothing else is left open. -/
def Obligations.CalLoadReadsTheTrimSource : Prop :=
  ∃ device : TrimAnswers, ∀ s : State, ∃ (a : TrimAnswers) (x : Option TrimAnswers) (n : Nat),
    (∀ b, s.trim = some b → a = b) ∧
    (s.trim = none → a = { device with ready := a.ready }) ∧
    exec .calLoad s = .next
      (if s.st ≠ .idle then { s with result := ⟨.invalidState, 0xFF⟩, trim := x, draws := n }
       else if s.calValid = true then { s with result := ⟨.invalidState, 0xFF⟩, trim := x, draws := n }
       else if a.ready = false then { s with result := ⟨.calibrationTimeout, 0xFF⟩, trim := x, draws := n }
       else { s with calSeOffset := a.seOffset, calSeGain := a.seGain, calDiffOffset := a.diffOffset,
                     calDiffGain := a.diffGain, calValid := true, result := ⟨.ok, 0xFF⟩, trim := x, draws := n })

/-- R126, R192, log entry 11: a `trim` record is no step of the block; it fixes the answers of the next
CAL_LOAD, which in Idle without calibration loads them, or times out when they say not ready. -/
def Obligations.TrimFixesTheNextCalLoad : Prop :=
  ∀ (a : TrimAnswers) (s : State),
    exec (.trim a) s = .next { s with trim := some a } ∧
    (s.st = .idle → s.calValid = false →
      ∃ t, exec .calLoad { s with trim := some a } = .next t ∧ t.trim = none ∧ t.calValid = a.ready ∧
        t.result = (if a.ready then ⟨.ok, 0xFF⟩ else ⟨.calibrationTimeout, 0xFF⟩) ∧
        (a.ready = true → t.calSeOffset = a.seOffset ∧ t.calSeGain = a.seGain ∧
          t.calDiffOffset = a.diffOffset ∧ t.calDiffGain = a.diffGain) ∧
        (a.ready = false → t.calSeOffset = s.calSeOffset ∧ t.calSeGain = s.calSeGain ∧
          t.calDiffOffset = s.calDiffOffset ∧ t.calDiffGain = s.calDiffGain))

/-- R212, R271, R275: the failure CONFIGURE reports is the first one in the fixed order, on the first channel
it holds for; RESULT alone is written. The last clause is check 9. -/
def Obligations.ConfigureReportsTheFirstFailure : Prop :=
  ∀ (p : Params) (s : State),
    let fails (e : ErrCode) (info : Byte) : Prop := configureWith p s = { s with result := ⟨e, info⟩ }
    (s.st ≠ .idle → fails .invalidState 0xFF) ∧
    (s.st = .idle → ¬ CountGood s → fails .invalidChannelCount 0xFF) ∧
    (s.st = .idle → CountGood s → s.baseClk = 0 → fails .invalidSamplingRate 0xFF) ∧
    (s.st = .idle → CountGood s → s.baseClk ≠ 0 →
      (∀ i, FirstBad s (RateGood s) i → fails .invalidSamplingRate (BitVec.ofNat 8 i.val)) ∧
      ((∀ i, Requested s i → RateGood s i) →
        (∀ i, FirstBad s (SamplesGood s) i → fails .invalidSampleCount (BitVec.ofNat 8 i.val)) ∧
        ((∀ i, Requested s i → SamplesGood s i) →
          (∀ i, FirstBad s (HalvesDistinct s) i → fails .pingPongAddressCollision (BitVec.ofNat 8 i.val)) ∧
          ((∀ i, Requested s i → HalvesDistinct s i) →
            (∀ i, FirstBad s (AddressesGood p s) i → fails .addressOutOfRange (BitVec.ofNat 8 i.val)) ∧
            ((∀ i, Requested s i → AddressesGood p s i) →
              computeSchedule p.delay (schedArgs s) = none → fails .schedulingInfeasible 0xFF)))))

/-- R150, R212 check 9: a request that passed checks 1 to 8 meets the preconditions of `compute_schedule`, which
is handed BASE_CLK, the enabled channels' rates, gains and DAC bits in channel order, channel 0's sample count
and MODE.STATIC. -/
def Obligations.ValidRequestsMeetThePreconditions : Prop :=
  ∀ (p : Params) (s : State), RequestValid p s →
    (schedArgs s).ok = true ∧ (schedArgs s).base = s.baseClk.toNat ∧ (schedArgs s).static = s.mode.static ∧
    (schedArgs s).ns0 = (s.chan 0).numSamples.toNat ∧ (schedArgs s).chans.length = s.mode.n.toNat ∧
    ∀ i : Chan, Requested s i →
      (schedArgs s).chans[i.val]? =
        some { rate := (s.chan i).reqRate.toNat, gain := (s.chan i).gain, dac := (s.chan i).dac }

/-- R213: what a successful CONFIGURE latches, register by register, each computed value fitting its field, and
what it leaves unchanged. The HWOPS it appends are the next statement's. -/
def Obligations.ConfigureLatchesTheRequest : Prop :=
  (∀ s : State, exec .configure s = .next (configureWith Config.params s)) ∧
  ∀ (p : Params) (s : State) (sch : Schedule) (offs : List Nat), ParamsOk p → RequestValid p s →
    computeSchedule p.delay (schedArgs s) = some sch → assignOffsets sch.sf = some offs →
    let t := configureWith p s
    t.st = .configured ∧ t.result = ⟨.ok, 0xFF⟩ ∧ t.actBaseClk = s.baseClk ∧ t.actMode = s.mode ∧
    t.onCycles.toNat = sch.on ∧ t.totalCycles.toNat = sch.total ∧ t.overrun = 0 ∧ t.demuxErr = false ∧
    (∀ c, bitOf t.chEn c = true ↔ Requested s c) ∧
    (∀ i, Requested s i →
      sch.sf[i.val]? = some (t.chan i).sf.toNat ∧ offs[i.val]? = some (t.chan i).off.toNat ∧
      (t.chan i).ach.toNat = s.baseClk.toNat / (t.chan i).sf.toNat ∧
      t.chan i =
        { s.chan i with
          sf := (t.chan i).sf, off := (t.chan i).off, ach := (t.chan i).ach
          aNs := (s.chan i).numSamples, aDiff := (s.chan i).diff, aRxAddr := (s.chan i).rxAddr
          aPingAddr := if s.mode.shared = false ∨ i = 0 then (s.chan i).pingAddr else 0
          aPongAddr := if s.mode.shared = false ∨ i = 0 then (s.chan i).pongAddr else 0
          aPingLen := if s.mode.shared = false ∨ i = 0 then (s.chan i).pingLen else 0
          aPongLen := if s.mode.shared = false ∨ i = 0 then (s.chan i).pongLen else 0
          count := 0, half := .ping }) ∧
    (∀ i, ¬ Requested s i →
      t.chan i =
        { s.chan i with
          sf := 0, off := 0, ach := 0, aNs := 0, aDiff := false, aRxAddr := 0, aPingAddr := 0, aPongAddr := 0
          aPingLen := 0, aPongLen := 0, count := 0, half := .ping }) ∧
    t = { s with
          st := t.st, result := t.result, actBaseClk := t.actBaseClk, actMode := t.actMode
          onCycles := t.onCycles, totalCycles := t.totalCycles, overrun := t.overrun, demuxErr := t.demuxErr
          chEn := t.chEn, ch := t.ch, hwops := t.hwops }

/-- R214: the records a successful CONFIGURE appends, in order, and their number: 1 + 2n + n, or 1 + 2 + n in the
shared variant. -/
def Obligations.ConfigureEmitsThePrimitives : Prop :=
  ∀ (p : Params) (s : State) (sch : Schedule) (offs : List Nat), ParamsOk p → RequestValid p s →
    computeSchedule p.delay (schedArgs s) = some sch → assignOffsets sch.sf = some offs →
    ∃ records : List Hwop, (configureWith p s).hwops = s.hwops ++ records ∧
      records =
        .setClockDivider (configureWith p s).onCycles (configureWith p s).totalCycles ::
        ((chansBelow s.mode.n.toNat).flatMap (fun i =>
            if s.mode.shared = false ∨ i = 0 then
              [.programBuffer i .ping (s.chan i).pingAddr (s.chan i).pingLen,
               .programBuffer i .pong (s.chan i).pongAddr (s.chan i).pongLen]
            else []) ++
         (chansBelow s.mode.n.toNat).map .enableChannel) ∧
      records.length = if s.mode.shared then 1 + 2 + s.mode.n.toNat else 1 + 2 * s.mode.n.toNat + s.mode.n.toNat

/-- R212 to R214 with R184: CONFIGURE completes. It is `configureWith` at this machine's parameters; under any
parameters a valid request whose slot factors fit is configured: `assign_offsets` never refuses it. -/
def Obligations.SchedulableRequestsAreConfigured : Prop :=
  (∀ s : State, exec .configure s = .next (configureWith Config.params s)) ∧
  ∀ (p : Params) (s : State) (sch : Schedule), RequestValid p s →
    computeSchedule p.delay (schedArgs s) = some sch →
    ∃ offs, assignOffsets sch.sf = some offs ∧ configureWith p s = configureDone s sch offs ∧
      (p = Config.params → exec .configure s = .next (configureDone s sch offs)) ∧
      (configureDone s sch offs).st = .configured ∧ (configureDone s sch offs).result = ⟨.ok, 0xFF⟩

/-- R215, R276: CONFIGURE has its whole effect (`configureDone`, which ConfigureLatchesTheRequest and
ConfigureEmitsThePrimitives spell out) out of Idle, on the schedule and the offsets of a valid request, or changes
nothing but RESULT, which then holds an error; there is no third outcome. -/
def Obligations.ConfigureIsAllOrNothing : Prop :=
  ∀ s : State, ∃ t, exec .configure s = .next t ∧
    ((t = { s with result := t.result } ∧ t.result.code ≠ .ok) ∨
     (s.st = .idle ∧ RequestValid Config.params s ∧
      ∃ sch offs, computeSchedule Config.params.delay (schedArgs s) = some sch ∧ assignOffsets sch.sf = some offs ∧
        t = configureDone s sch offs ∧ t.st = .configured ∧ t.result = ⟨.ok, 0xFF⟩))

/-- R216: START. -/
def Obligations.StartUnmasksAndRuns : Prop :=
  ∀ s : State,
    (s.st ≠ .configured → exec .start s = .next { s with result := ⟨.invalidState, 0xFF⟩ }) ∧
    (s.st = .configured → s.calValid = false →
      exec .start s = .next { s with result := ⟨.calibrationNotLoaded, 0xFF⟩ }) ∧
    (s.st = .configured → s.calValid = true →
      ∃ m : Word16, (∀ c, bitOf m c = true ↔ bitOf s.irqMask c = true ∧ ¬ Enabled s c) ∧
        exec .start s = .next
          { s with
            st := .running, clkEn := true, irqMask := m, result := ⟨.ok, 0xFF⟩
            hwops := s.hwops ++ .setClockEnable true :: (chansBelow s.activeN).map .unmaskInterrupt })

/-- R217: STOP. -/
def Obligations.StopMasksAndClears : Prop :=
  ∀ s : State,
    (s.st = .idle → exec .stop s = .next { s with result := ⟨.invalidState, 0xFF⟩ }) ∧
    (s.st ≠ .idle →
      ∃ banks : Vector Channel 16, (∀ i : Chan, banks[i.val] = { s.chan i with count := 0 }) ∧
        exec .stop s = .next
          { s with
            st := .idle, clkEn := false, irqMask := 0xFFFF, irqStatus := 0, errStatus := 0, ch := banks
            result := ⟨.ok, 0xFF⟩
            hwops := s.hwops ++ ((chansBelow s.activeN).map .maskInterrupt ++ [.setClockEnable false]) })

/-- R218: DEINIT returns every register to its reset value from any state, never fails, leaves MEM and EVENTS,
and appends STOP's primitives when the pipeline was not Idle. The model's own fields stay (log entry 16). -/
def Obligations.DeinitReturnsToReset : Prop :=
  ∀ s : State, exec .deinit s = .next
    { State.reset with
      mem := s.mem, events := s.events
      hwops := s.hwops ++
        (if s.st = .idle then [] else (chansBelow s.activeN).map .maskInterrupt ++ [.setClockEnable false])
      rdata := s.rdata, ret := s.ret, trim := s.trim, draws := s.draws, input := s.input }

/-- R310: the reset event gives every register its reset value, leaves MEM, and appends nothing to either trace.
The model's own fields stay (log entry 16). -/
def Obligations.ResetEventKeepsMemoryAndTraces : Prop :=
  ∀ s : State, exec .reset s = .next
    { State.reset with
      mem := s.mem, events := s.events, hwops := s.hwops
      rdata := s.rdata, ret := s.ret, trim := s.trim, draws := s.draws, input := s.input }

/-- R50, R310, R218: after reset, at the start of a run or by the event, and after DEINIT, RESULT reads
0x0000_FF00, IRQ_MASK reads 0x0000_FFFF and every other register reads 0; at the start of a run the traces are
empty. -/
def Obligations.ResetValuesReadBack : Prop :=
  State.reset.events = [] ∧ State.reset.hwops = [] ∧
  ∀ s t : State, (t = State.reset ∨ exec .reset s = .next t ∨ exec .deinit s = .next t) →
    ∀ o : Nat, readOffset t o = if o = 0x008 then 0x0000FF00 else if o = 0x020 then 0x0000FFFF else 0

/-! ### SERVICE -/

/-- R47: the interrupt line. -/
def Obligations.InterruptLineIsPendingUnmasked : Prop :=
  ∀ s : State, irqLine s = true ↔
    ∃ c : Chan, (bitOf s.irqStatus c = true ∨ bitOf s.errStatus c = true) ∧ bitOf s.irqMask c = false

/-- R230, R85, R81: an enabled SERVICE whose buffers lie in MEM completes, and stores nowhere but inside receive
buffers of enabled or signalling channels: every other byte reads as before. -/
def Obligations.ServiceCompletesInsideReceiveBuffers : Prop :=
  ∀ s : State, s.st = .running → irqLine s = true → BuffersInMemory s →
    ∃ t, exec .svc s = .next t ∧
      (∀ c, (t.chan c).count.toNat ≤ (s.chan c).aNs.toNat) ∧
      ∀ a : Nat, (∀ c, Enabled s c ∨ SignalsFull s c → ¬ InReceiveBuffer s c a) →
        Memory.read t.mem a = Memory.read s.mem a

/-- R230: the snapshot, phases E, A and the order of phase B. Every signalling channel loses its pending bits,
toggles its active half once and is re-armed with the half that was active; every other channel keeps its half; the
records are appended in order; errors are reported before anything is delivered; the events of the drains stand in
ascending order of the drained channels, and in the per-channel variant each drain reports its own channel only; the
line is low afterwards; nothing else but MEM, fill counters and DEMUX_ERR changes. -/
def Obligations.ServiceSwapsAndRearms : Prop :=
  ∀ s t : State, exec .svc s = .next t →
    (∀ c, bitOf t.irqStatus c = true ↔ bitOf s.irqStatus c = true ∧ bitOf s.irqMask c = true) ∧
    (∀ c, bitOf t.errStatus c = true ↔ bitOf s.errStatus c = true ∧ bitOf s.irqMask c = true) ∧
    (∀ c, SignalsFull s c →
      t.chan c = { s.chan c with half := (s.chan c).half.other, count := (t.chan c).count }) ∧
    (∀ c, ¬ SignalsFull s c → t.chan c = { s.chan c with count := (t.chan c).count }) ∧
    (∀ full errs, AscendingList full (SignalsFull s) → AscendingList errs (SignalsError s) →
      t.hwops = s.hwops ++ .readInterruptStatus s.irqStatus ::
        full.flatMap (fun c =>
          [.clearInterrupt c,
           .programBuffer c (s.chan c).half (halfAddr s c (s.chan c).half) (halfLen s c (s.chan c).half)]) ∧
      ∃ reports : Chan → List Event,
        t.events = s.events ++ errs.map (fun c => ⟨c, .transferError⟩) ++ full.flatMap reports ∧
        ∀ c, ∀ e ∈ reports c, e.kind ≠ .transferError ∧ (s.actMode.shared = false → e.channel = c)) ∧
    irqLine t = false ∧ (s.demuxErr = true → t.demuxErr = true) ∧
    t = { s with
          irqStatus := t.irqStatus, errStatus := t.errStatus, ch := t.ch, mem := t.mem, demuxErr := t.demuxErr
          events := t.events, hwops := t.hwops }

/-- R235, R230: with transfer errors only, SERVICE clears them, emits one TransferError for each channel in
ascending order, records the status read, and changes nothing else. -/
def Obligations.TransferErrorsAreReportedOnly : Prop :=
  ∀ s : State, s.st = .running → (∀ c, ¬ SignalsFull s c) → (∃ c, SignalsError s c) →
    ∃ (e : Word16) (l : List Chan), (∀ c, bitOf e c = true ↔ bitOf s.errStatus c = true ∧ bitOf s.irqMask c = true) ∧
      (∀ c, c ∈ l ↔ SignalsError s c) ∧ l.Pairwise (· < ·) ∧
      exec .svc s = .next
        { s with
          errStatus := e, events := s.events ++ l.map (fun c => ⟨c, .transferError⟩)
          hwops := s.hwops ++ [.readInterruptStatus s.irqStatus] }

/-- R230, R231, R232, R234, R200: the per-channel variant, any number of signalling channels, halves of any length,
auto-reset or not; the drained halves and the receive buffers share no byte. The samples of each half are routed in
ascending order: each is stored calibrated at its place, unless a later one overwrites it there; every other byte
reads as before; counters and events follow, the channels ascending. -/
def Obligations.ServiceDeliversCalibratedSamples : Prop :=
  ∀ s : State, s.st = .running → s.actMode.shared = false → (∃ d, SignalsFull s d) →
    (∀ c, SignalsFull s c → filledAddr s c + 2 * filledLen s c ≤ 2 ^ 32 ∧
      receiveAddr s c + 2 * threshold s c ≤ 2 ^ 32 ∧ fillCount s c ≤ threshold s c) →
    (∀ c d, SignalsFull s c → SignalsFull s d →
      SamplesApart (filledAddr s c) (filledLen s c) (receiveAddr s d) (threshold s d)) →
    (∀ c d, SignalsFull s c → SignalsFull s d → c ≠ d →
      SamplesApart (receiveAddr s c) (threshold s c) (receiveAddr s d) (threshold s d)) →
    ∃ t, exec .svc s = .next t ∧
      (∀ c k x, SignalsFull s c → k < filledLen s c → sampleAddr s c k = some x → LastThere s c (filledLen s c) k →
        t.mem.read16 x = applyCal s (filledWord s c k) (s.chan c).aDiff) ∧
      (∀ y, (∀ c k x, SignalsFull s c → k < filledLen s c → sampleAddr s c k = some x → y ≠ x ∧ y ≠ x + 1) →
        Memory.read t.mem y = Memory.read s.mem y) ∧
      (∀ c, SignalsFull s c →
        fillCount t c = countAfter s.actMode.ard (fillCount s c) (threshold s c) (filledLen s c)) ∧
      (∀ d, ¬ SignalsFull s d → t.chan d = s.chan d) ∧ t.demuxErr = s.demuxErr ∧
      ∀ full errs, AscendingList full (SignalsFull s) → AscendingList errs (SignalsError s) →
        t.events = s.events ++ errs.map (fun d => ⟨d, .transferError⟩) ++
          full.flatMap fun c => drainReport c s.actMode.ard (fillCount s c) (threshold s c) (filledLen s c)

/-- R232, R234, R230 with A_ARD = 0, per-channel variant, any number of signalling channels, any overlap of buffers:
a half of l samples on a counter at n < m leaves (n + l) mod m and completes (n + l) div m groups; the channels report
in ascending order. -/
def Obligations.AutoResetCompletesWholeGroups : Prop :=
  ∀ s : State, s.st = .running → s.actMode.shared = false → s.actMode.ard = false → (∃ d, SignalsFull s d) →
    BuffersInMemory s → (∀ c, SignalsFull s c → fillCount s c < threshold s c) →
    ∃ t, exec .svc s = .next t ∧
      (∀ c, SignalsFull s c → fillCount t c = (fillCount s c + filledLen s c) % threshold s c) ∧
      (∀ d, ¬ SignalsFull s d → t.chan d = s.chan d) ∧
      ∀ full errs, AscendingList full (SignalsFull s) → AscendingList errs (SignalsError s) →
        t.events = s.events ++ errs.map (fun d => ⟨d, .transferError⟩) ++
          full.flatMap fun c =>
            (if 1 ≤ filledLen s c then [⟨c, .dataReady⟩] else []) ++
            List.replicate ((fillCount s c + filledLen s c) / threshold s c) ⟨c, .sampleGroupComplete⟩

/-- R232, R234, R230, R324 with A_ARD = 1, per-channel variant, any number of signalling channels: the counter stops
at m, the group completes at most once, later samples are dropped with one BufferFull and store nothing: only the
places n to min(n + l, m) - 1 of each receive buffer can change, and they hold the samples, calibrated, when halves
and receive buffers share no byte. -/
def Obligations.FullReceiveBuffersDropSamples : Prop :=
  ∀ s : State, s.st = .running → s.actMode.shared = false → s.actMode.ard = true → (∃ d, SignalsFull s d) →
    BuffersInMemory s →
    ∃ t, exec .svc s = .next t ∧
      (∀ c, SignalsFull s c → fillCount t c = min (fillCount s c + filledLen s c) (threshold s c)) ∧
      (∀ d, ¬ SignalsFull s d → t.chan d = s.chan d) ∧
      (∀ y, (∀ c, SignalsFull s c → ¬ (receiveAddr s c + 2 * fillCount s c ≤ y ∧
          y < receiveAddr s c + 2 * min (fillCount s c + filledLen s c) (threshold s c))) →
        Memory.read t.mem y = Memory.read s.mem y) ∧
      ((∀ c d, SignalsFull s c → SignalsFull s d →
          SamplesApart (filledAddr s c) (filledLen s c) (receiveAddr s d) (threshold s d) ∧
          (c ≠ d → SamplesApart (receiveAddr s c) (threshold s c) (receiveAddr s d) (threshold s d))) →
        ∀ c k, SignalsFull s c → k < filledLen s c → fillCount s c + k < threshold s c →
          t.mem.read16 (receiveAddr s c + 2 * (fillCount s c + k)) =
            applyCal s (filledWord s c k) (s.chan c).aDiff) ∧
      ∀ full errs, AscendingList full (SignalsFull s) → AscendingList errs (SignalsError s) →
        t.events = s.events ++ errs.map (fun d => ⟨d, .transferError⟩) ++
          full.flatMap fun c =>
            (if fillCount s c < threshold s c ∧ 1 ≤ filledLen s c then [⟨c, .dataReady⟩] else []) ++
            (if fillCount s c < threshold s c ∧ threshold s c ≤ fillCount s c + filledLen s c then
              [⟨c, .sampleGroupComplete⟩] else []) ++
            (if threshold s c < fillCount s c + filledLen s c then [⟨c, .bufferFull⟩] else [])

/-- R233, R115, R231, R232, R234, R200: the shared ring, auto-reset or not, no enabled receive buffer overlapping the
drained half. The samples that carry an enabled channel's id in bits 15:12 are routed to it in order: its counter
moves by their number; they are stored at their places in its receive buffer, calibrated with its input type, when the
receive buffers share no byte, and every other byte reads as before; the marked channels report in ascending order.
DEMUX_ERR is set when some sample's id is not an enabled channel, and else keeps its value. -/
def Obligations.RingSamplesGoByTheirId : Prop :=
  ∀ s : State, s.st = .running → s.actMode.shared = true → (∀ d, SignalsFull s d ↔ d = 0) → BuffersInMemory s →
    (∀ u, Enabled s u → SamplesApart (filledAddr s 0) (filledLen s 0) (receiveAddr s u) (threshold s u)) →
    ∃ t, exec .svc s = .next t ∧
      (t.demuxErr = true ↔
        s.demuxErr = true ∨ ∃ k, k < filledLen s 0 ∧ s.activeN ≤ (filledWord s 0 k).toNat / 4096) ∧
      (∀ u, Enabled s u →
        fillCount t u = countAfter s.actMode.ard (fillCount s u) (threshold s u) (ringSamples s u).length) ∧
      (∀ u, ¬ Enabled s u → fillCount t u = fillCount s u) ∧
      (∀ y, (∀ u j x, Enabled s u → j < (ringSamples s u).length → sampleAddr s u j = some x → y ≠ x ∧ y ≠ x + 1) →
        Memory.read t.mem y = Memory.read s.mem y) ∧
      ((∀ u v, Enabled s u → Enabled s v → u ≠ v →
          SamplesApart (receiveAddr s u) (threshold s u) (receiveAddr s v) (threshold s v)) →
        ∀ u j k x, Enabled s u → (ringSamples s u)[j]? = some k → sampleAddr s u j = some x →
          LastThere s u (ringSamples s u).length j →
          t.mem.read16 x = applyCal s (filledWord s 0 k) (s.chan u).aDiff) ∧
      ∀ marked errs, AscendingList marked (Enabled s) → AscendingList errs (SignalsError s) →
        t.events = s.events ++ errs.map (fun d => ⟨d, .transferError⟩) ++
          marked.flatMap fun u =>
            drainReport u s.actMode.ard (fillCount s u) (threshold s u) (ringSamples s u).length

/-! ### ENGINE -/

/-- R240, R83, R220: ENG_WRITE, where enabled, stores w little-endian at addr(c, h) + 2k and changes no other byte
and no register. An address past the last byte of MEM cannot arise from a latched buffer (R81). -/
def Obligations.EngineWriteStoresOneSample : Prop :=
  ∀ (c : Chan) (h : Half) (k w : Word16) (s : State), s.st = .running → s.clkEn = true →
    (if s.actMode.shared then c = 0 else c.val < s.activeN) → k.toNat < (halfLen s c h).toNat →
    (halfAddr s c h).toNat + 2 * k.toNat + 1 < 2 ^ 32 →
    ∃ m : Memory, exec (.eng c h k w) s = .next { s with mem := m } ∧
      Memory.read m (engAddr s c h k) = w.extractLsb' 0 8 ∧
      Memory.read m (engAddr s c h k + 1) = w.extractLsb' 8 8 ∧
      engAddr s c h k = (halfAddr s c h).toNat + 2 * k.toNat ∧
      ∀ a, a ≠ engAddr s c h k → a ≠ engAddr s c h k + 1 → Memory.read m a = Memory.read s.mem a

/-- R241: HALF_FULL(c). -/
def Obligations.HalfFullSetsPendingOrOverrun : Prop :=
  ∀ (c : Chan) (s : State), s.st = .running → s.clkEn = true →
    (if s.actMode.shared then c = 0 else c.val < s.activeN) →
    ∃ p o : Word16, exec (.half c) s = .next { s with irqStatus := p, overrun := o } ∧
      (∀ d, bitOf p d = true ↔ bitOf s.irqStatus d = true ∨ d = c) ∧
      ∀ d, bitOf o d = true ↔ bitOf s.overrun d = true ∨ (d = c ∧ bitOf s.irqStatus c = true)

/-- R242: XFER_ERROR(c). -/
def Obligations.TransferErrorSetsItsPendingBit : Prop :=
  ∀ (c : Chan) (s : State), s.st = .running → c.val < s.activeN →
    ∃ e : Word16, exec (.xerr c) s = .next { s with errStatus := e } ∧
      ∀ d, bitOf e d = true ↔ bitOf s.errStatus d = true ∨ d = c

/-- R230, R240, R241, R242: a SERVICE or ENGINE step outside its enabling condition is no move; the model refuses
it by name (log entry 12, U8). -/
def Obligations.StepsOutsideTheirConditionAreRefused : Prop :=
  ∀ (c : Chan) (s : State),
    (¬ (s.st = .running ∧ irqLine s = true) → exec .svc s = .refused .serviceNotEnabled) ∧
    (∀ (h : Half) (k w : Word16),
      ¬ (s.st = .running ∧ s.clkEn = true ∧ (if s.actMode.shared then c = 0 else c.val < s.activeN) ∧
         k.toNat < (halfLen s c h).toNat) → exec (.eng c h k w) s = .refused .engineNotEnabled) ∧
    (¬ (s.st = .running ∧ s.clkEn = true ∧ (if s.actMode.shared then c = 0 else c.val < s.activeN)) →
      exec (.half c) s = .refused .engineNotEnabled) ∧
    (¬ (s.st = .running ∧ c.val < s.activeN) → exec (.xerr c) s = .refused .engineNotEnabled)

/-! ### The primitives and the events -/

/-- R125: each primitive appends its record to HWOPS and has the effect on block state its row gives, and no
other. Taking one as a step of its own is log entry 3; that the read's operand is not used is log entry 5. -/
def Obligations.PrimitivesAppendTheirRecord : Prop :=
  ∀ s : State,
    (∀ on total, exec (.setClockDivider on total) s =
      .next { s with hwops := s.hwops ++ [.setClockDivider on total] }) ∧
    (∀ c h a l, exec (.programBuffer c h a l) s = .next { s with hwops := s.hwops ++ [.programBuffer c h a l] }) ∧
    (∀ c, ∃ w : Word16, (∀ d, bitOf w d = true ↔ bitOf s.chEn d = true ∨ d = c) ∧
      exec (.enableChannel c) s = .next { s with chEn := w, hwops := s.hwops ++ [.enableChannel c] }) ∧
    (∀ c, ∃ w : Word16, (∀ d, bitOf w d = true ↔ bitOf s.irqMask d = true ∧ d ≠ c) ∧
      exec (.unmaskInterrupt c) s = .next { s with irqMask := w, hwops := s.hwops ++ [.unmaskInterrupt c] }) ∧
    (∀ b, exec (.readInterruptStatus b) s =
      .next { s with hwops := s.hwops ++ [.readInterruptStatus s.irqStatus] }) ∧
    (∀ c, ∃ w : Word16, (∀ d, bitOf w d = true ↔ bitOf s.irqStatus d = true ∧ d ≠ c) ∧
      exec (.clearInterrupt c) s = .next { s with irqStatus := w, hwops := s.hwops ++ [.clearInterrupt c] }) ∧
    (∀ c, ∃ w : Word16, (∀ d, bitOf w d = true ↔ bitOf s.irqMask d = true ∨ d = c) ∧
      exec (.maskInterrupt c) s = .next { s with irqMask := w, hwops := s.hwops ++ [.maskInterrupt c] }) ∧
    ∀ b, exec (.setClockEnable b) s = .next { s with clkEn := b, hwops := s.hwops ++ [.setClockEnable b] }

/-- R9, R121: an event is appended to EVENTS and nothing else changes. Taking one as a step of its own is log
entry 3. -/
def Obligations.EventsAreAppended : Prop :=
  ∀ (c : Chan) (s : State),
    exec (.dataReady c) s = .next { s with events := s.events ++ [⟨c, .dataReady⟩] } ∧
    exec (.sampleGroupComplete c) s = .next { s with events := s.events ++ [⟨c, .sampleGroupComplete⟩] } ∧
    exec (.bufferFull c) s = .next { s with events := s.events ++ [⟨c, .bufferFull⟩] } ∧
    exec (.transferError c) s = .next { s with events := s.events ++ [⟨c, .transferError⟩] }

/-! ### The pure functions -/

/-- Log entry 4: a pure function answers in the model's result port and changes nothing else. `assign_offsets` is
total: it answers for every list of factors, whatever their number and range (R180, R184). Outside its operands
`compute_schedule` is not defined and is refused (R150, log entry 15); `round_pow2` at 0 and `assign_offsets` of no
factor answer some value (R154, R181, log entry 28). -/
def Obligations.PureFunctionsAnswer : Prop :=
  (∀ s : State,
    (∀ a : SchedArgs, a.ok = true →
      exec (.computeSchedule a) s = .next { s with ret := some (.schedule (computeSchedule Config.params.delay a)) }) ∧
    (∀ x : Nat, 1 ≤ x → exec (.roundPow2 x) s = .next { s with ret := some (.factor (roundPow2 x)) }) ∧
    (∀ sf : List Nat, sf ≠ [] →
      exec (.assignOffsets sf) s = .next { s with ret := some (.offsets (assignOffsets sf)) }) ∧
    (∀ (raw : Word16) (d : Bool),
      exec (.apply raw d) s = .next { s with ret := some (.sample (applyCal s raw d)) }) ∧
    ∀ a : SchedArgs, a.ok = false → exec (.computeSchedule a) s = .refused .outsideOperands) ∧
  (∃ r : Nat, ∀ s : State, exec (.roundPow2 0) s = .next { s with ret := some (.factor r) }) ∧
  ∃ r : Option (List Nat), ∀ s : State, exec (.assignOffsets []) s = .next { s with ret := some (.offsets r) }

/-- R154: `round_pow2`. A power of two is kept; between two neighbouring powers p/2 < s < p the result is p/2 if
s - p/2 < p/4, else p. -/
def Obligations.RoundPow2PicksTheNearerPower : Prop :=
  (∀ k : Nat, roundPow2 (2 ^ k) = 2 ^ k) ∧
  ∀ s k : Nat, 2 ^ (k + 1) < s → s < 2 ^ (k + 2) →
    roundPow2 s = if s - 2 ^ (k + 1) < 2 ^ k then 2 ^ (k + 1) else 2 ^ (k + 2)

/-- R157, R156, R158: the oversubscription loop doubles all factors the least number of times that brings the
exact sum of reciprocals to at most 1, and is infeasible when a doubled factor passes 65535. -/
def Obligations.DoublingStopsAtTheFirstFit : Prop :=
  ∀ sf : List Nat, sf ≠ [] → (∀ x ∈ sf, 1 ≤ x ∧ x ≤ 65535) →
    let util (j : Nat) : ℚ := (sf.map fun x : Nat => (1 : ℚ) / ((2 ^ j * x : Nat) : ℚ)).sum
    ∃ j : Nat, util j ≤ 1 ∧ (∀ i, i < j → 1 < util i) ∧
      relieve sf = if ∀ x ∈ sf, 2 ^ j * x ≤ 65535 then some (sf.map (2 ^ j * ·)) else none

/-- R151 to R153, R155 to R159, R165: the slot factors are those of a run of steps 1 to 5, for any number of
channels: each new factor is the predecessor's current factor times the ceiling of the ratio of the rates, rounded
when there are several channels, then relieved over the channels so far; step 5 at the end. The call is infeasible
exactly when there is no such run. For one channel: max(2, ceil(base / rate)), not rounded, divided by 4 and floored
at 2 for a single sample, infeasible exactly when it passes 65535. -/
def Obligations.SlotFactorsFollowTheSteps : Prop :=
  ∀ (delay : Nat → Nat) (a : SchedArgs), a.ok = true →
    (∀ sch, computeSchedule delay a = some sch → ∃ stages, FactorRun a stages sch.sf) ∧
    (∀ stages out, FactorRun a stages out → ∃ sch, computeSchedule delay a = some sch ∧ sch.sf = out) ∧
    ∀ ch : SchedChan, a.chans = [ch] →
      ∃ q : Nat, (a.base ≤ q * ch.rate ∧ ∀ q', a.base ≤ q' * ch.rate → q ≤ q') ∧
        (65535 < max 2 q → computeSchedule delay a = none) ∧
        (max 2 q ≤ 65535 → ∃ sch, computeSchedule delay a = some sch ∧
          sch.sf = [if a.ns0 = 1 then max 2 (max 2 q / 4) else max 2 q])

/-- R160, R161, R162, R163: the clock plan of a successful schedule. hold is the largest of the channels' hold times;
on and the unadjusted total are the least naturals not below hold * base / 10^9 and (hold + 100) * base / 10^9;
total is raised by one where they are equal, and in static mode to ceil(base / rate[0]) where that is larger. -/
def Obligations.ClockPlanFollowsTheHoldTime : Prop :=
  ∀ (delay : Nat → Nat) (a : SchedArgs) (sch : Schedule), a.ok = true → computeSchedule delay a = some sch →
    ∃ hold on total raw : Nat,
      (∀ c ∈ a.chans, delay c.gain.toNat ≤ hold ∧ (c.dac = true → 3500 ≤ hold) ∧ 100 ≤ hold) ∧
      (∃ c ∈ a.chans, hold = delay c.gain.toNat ∨ (c.dac = true ∧ hold = 3500) ∨ hold = 100) ∧
      (hold * a.base ≤ on * 10 ^ 9 ∧ ∀ q, hold * a.base ≤ q * 10 ^ 9 → on ≤ q) ∧
      (a.base * (hold + 100) ≤ total * 10 ^ 9 ∧ ∀ q, a.base * (hold + 100) ≤ q * 10 ^ 9 → total ≤ q) ∧
      (∀ c0, a.chans.head? = some c0 →
        a.base ≤ raw * c0.rate ∧ ∀ q, a.base ≤ q * c0.rate → raw ≤ q) ∧
      sch.on = on ∧
      sch.total =
        max (if on = total then total + 1 else total) (if a.static then raw else 0)

/-- R166 (P1) to (P6): the laws of a successful schedule; every call is a result or SchedulingInfeasible. -/
def Obligations.SchedulesKeepTheLaws : Prop :=
  ∀ (delay : Nat → Nat) (a : SchedArgs), a.ok = true →
    computeSchedule delay a = none ∨
    ∃ sch, computeSchedule delay a = some sch ∧ sch.sf.length = a.chans.length ∧
      (∀ x ∈ sch.sf, 2 ≤ x ∧ x ≤ 65535) ∧
      (1 < a.chans.length → ∀ x ∈ sch.sf, ∃ k, x = 2 ^ k) ∧
      sch.sf.Pairwise (· ≤ ·) ∧
      (sch.sf.map fun x : Nat => (1 : ℚ) / (x : ℚ)).sum ≤ 1 ∧
      1 ≤ sch.on ∧ sch.on < sch.total

/-- R181: `assign_offsets` is the greedy first fit: channel 0 has offset 0, every later channel the least candidate
below M that lands on no slot of an earlier channel, and it fails exactly when a channel has no candidate. So for
every list of one factor or more, also those `compute_schedule` never returns (R180: total; R184). -/
def Obligations.OffsetsAreTheGreedyFirstFit : Prop :=
  ∀ sf : List Nat, sf ≠ [] →
    ∃ m : Nat, m ∈ sf ∧ (∀ x ∈ sf, x ≤ m) ∧
      let hits (offs : List Nat) (i c : Nat) : Prop :=
        ∃ j k o f : Nat, j < i ∧ k < m ∧ offs[j]? = some o ∧ sf[j]? = some f ∧ c = o + k * f
      let greedy (offs : List Nat) : Prop :=
        offs[0]? = some 0 ∧ ∀ i c : Nat, 1 ≤ i → offs[i]? = some c →
          c < m ∧ ¬ hits offs i c ∧ ∀ c' : Nat, c' < c → hits offs i c'
      (∀ offs, assignOffsets sf = some offs → offs.length = sf.length ∧ greedy offs) ∧
      (assignOffsets sf = none →
        ∃ offs, offs.length < sf.length ∧ greedy offs ∧ ∀ c, c < m → hits offs offs.length c)

/-- R184: on the output of `compute_schedule` the scan always succeeds, every offset is below its factor, and no two
channels ever share a tick, neither in the unbounded schedule nor modulo the largest factor. -/
def Obligations.ScheduleOffsetsNeverCollide : Prop :=
  ∀ (delay : Nat → Nat) (a : SchedArgs) (sch : Schedule), a.ok = true → computeSchedule delay a = some sch →
    ∃ offs, assignOffsets sch.sf = some offs ∧ offs.length = sch.sf.length ∧
      (∀ i o f : Nat, offs[i]? = some o → sch.sf[i]? = some f → o < f) ∧
      ∀ i j oi oj fi fj : Nat, i ≠ j → offs[i]? = some oi → offs[j]? = some oj →
        sch.sf[i]? = some fi → sch.sf[j]? = some fj →
        ∀ k l : Nat, oi + k * fi ≠ oj + l * fj ∧
          (oi + k * fi) % maxFactor sch.sf ≠ (oj + l * fj) % maxFactor sch.sf

/-- R195 to R200: `apply` in integer arithmetic. a is the 12-bit value with bit 11 flipped, q the floor of
(a - off) * GN / 1000, c its clamp to [0, 4095], the result c with bit 11 flipped, zero-extended. -/
def Obligations.ApplyFollowsTheFormula : Prop :=
  ∀ (s : State) (raw : Word16) (d : Bool), ∃ a gn c : Nat, ∃ q : ℤ,
    a = (raw.toNat % 4096 + 2048) % 4096 ∧
    gn = 1000 * ((if d then s.calDiffGain else s.calSeGain).toNat / 2 ^ 14) +
      (if d then s.calDiffGain else s.calSeGain).toNat % 2 ^ 14 ∧
    (1000 * q ≤ ((a : ℤ) - ((if d then s.calDiffOffset else s.calSeOffset).toNat : ℤ)) * gn ∧
     ((a : ℤ) - ((if d then s.calDiffOffset else s.calSeOffset).toNat : ℤ)) * gn < 1000 * (q + 1)) ∧
    (c : ℤ) = max 0 (min q 4095) ∧
    (applyCal s raw d).toNat = if 2048 ≤ c then c - 2048 else c + 2048

/-- R201 (L1) to (L6): range; identity with offset 0 and gain 1.000; monotone in the flipped input; not invertible;
depends on raw[11:0] only; the flip of step 1 undoes itself. -/
def Obligations.ApplyKeepsItsLaws : Prop :=
  (∀ raw off g, (calibrate raw off g).toNat ≤ 0x0FFF) ∧
  (∀ (raw : Word16) (g : Word), gainThousandths g = 1000 → (calibrate raw 0 g).toNat = raw.toNat % 4096) ∧
  (∀ (a b : Nat) off g, a ≤ b → clamp12 (scaled a off g) ≤ clamp12 (scaled b off g)) ∧
  (∃ off g, ∃ x y : Word16, x.toNat % 4096 ≠ y.toNat % 4096 ∧ calibrate x off g = calibrate y off g) ∧
  (∀ (x y : Word16) off g, x.toNat % 4096 = y.toNat % 4096 → calibrate x off g = calibrate y off g) ∧
  ∀ raw : Word16, flipSign (BitVec.ofNat 16 (flipSign raw)) = raw.toNat % 4096

/-! ### The whole machine -/

/-- R37, C4: once loaded the calibration is immutable until DEINIT or reset, and nothing but CAL_LOAD, DEINIT and
reset ever writes it. -/
def Obligations.CalibrationIsImmutable : Prop :=
  ∀ (i : Instr) (s t : State), exec i s = .next t →
    commandOf i ≠ .deinit → i ≠ .reset → (s.calValid = true ∨ commandOf i ≠ .calLoad) →
    t.calSeOffset = s.calSeOffset ∧ t.calSeGain = s.calSeGain ∧ t.calDiffOffset = s.calDiffOffset ∧
    t.calDiffGain = s.calDiffGain ∧ t.calValid = s.calValid

/-- R9: EVENTS and HWOPS are append-only, through every step. -/
def Obligations.TracesAreAppendOnly : Prop :=
  ∀ s t : State, step s = .next t →
    (∃ es, t.events = s.events ++ es) ∧ ∃ hs, t.hwops = s.hwops ++ hs

/-- R30, R210: STATE is written only by a successful CONFIGURE (Idle to Configured), START (Configured to Running,
with the calibration loaded), STOP and DEINIT (to Idle), and reset. -/
def Obligations.StateTransitions : Prop :=
  ∀ (i : Instr) (s t : State), exec i s = .next t → t.st ≠ s.st →
    (commandOf i = .configure ∧ s.st = .idle ∧ t.st = .configured) ∨
    (commandOf i = .start ∧ s.st = .configured ∧ s.calValid = true ∧ t.st = .running) ∨
    (commandOf i = .stop ∧ s.st ≠ .idle ∧ t.st = .idle) ∨
    (commandOf i = .deinit ∧ t.st = .idle) ∨ (i = .reset ∧ t.st = .idle)

/-- R82, R83, R49: no step but SERVICE and ENG_WRITE writes MEM. -/
def Obligations.OnlyServiceAndEngineWriteMemory : Prop :=
  ∀ (i : Instr) (s t : State), exec i s = .next t → i ≠ .svc → (∀ c h k w, i ≠ .eng c h k w) →
    ∀ a : Nat, Memory.read t.mem a = Memory.read s.mem a

/-- R44, R49: while Running, nothing but SERVICE, STOP, DEINIT and reset moves a fill counter, an active half or any
other run-time or active field of a channel bank. -/
def Obligations.OnlyServiceMovesTheBanksWhileRunning : Prop :=
  ∀ (i : Instr) (s t : State), exec i s = .next t → s.st = .running → i ≠ .svc → i ≠ .reset →
    commandOf i ≠ .stop → commandOf i ≠ .deinit →
    ∀ c, (t.chan c).eraseStaging = (s.chan c).eraseStaging

/-- R35: a sticky fault stays set through every step but a successful CONFIGURE, DEINIT and reset. -/
def Obligations.FaultFlagsAreSticky : Prop :=
  ∀ (i : Instr) (s t : State), exec i s = .next t →
    ¬ (commandOf i = .configure ∧ t.st = .configured ∧ s.st = .idle) → commandOf i ≠ .deinit → i ≠ .reset →
    (∀ c, bitOf s.overrun c = true → bitOf t.overrun c = true) ∧ (s.demuxErr = true → t.demuxErr = true)

/-- R83, log entry 8: every step keeps the canonical form of MEM. -/
def Obligations.MemoryStaysCanonical : Prop :=
  ∀ s t : State, step s = .next t → s.mem.wf = true → t.mem.wf = true

/-- R50, R51: the reset state meets the invariant, for any run of steps of the spec's agents. -/
def Obligations.ResetMeetsTheInvariant : Prop :=
  ∀ l : List Slot, (∀ slot ∈ l, slot.fmt = .trace ∨ slot.fmt = .cmd) → BlockInv { State.reset with input := l }

/-- R51 (I1) to (I6), R42, R91: every step of the spec's agents keeps the invariant. -/
def Obligations.StepKeepsTheInvariant : Prop :=
  ∀ s t : State, BlockInv s → step s = .next t → BlockInv t

/-- R81, R85: from a state that meets the invariant no step faults: no run-time rule forms an address outside MEM. -/
def Obligations.NoFaultUnderTheInvariant : Prop :=
  ∀ (s : State) (f : Fault), BlockInv s → step s ≠ .fault f
end

