-- ==== Sys2Proof/Laws/Allocator.lean ====
section
/-! SUPPORT. The laws of the PhaseAllocator's pieces: the closed form of the collision test, what a scan
answers, and the shape of the offsets (R181, R182). -/

namespace Sys2Proof.Machine

/-- The test of R181 in its existential form: candidate c lands on a slot of the channel with factor f and
offset o, for some k below m. -/
def LandsOn (m c f o : Nat) : Prop := ∃ k, k < m ∧ c = o + k * f

/-- R182: for a candidate below M the closed form and the scan over k agree, for every factor. -/
theorem collides_iff {m c f o : Nat} (hc : c < m) :
    collides c (f, o) = true ↔ LandsOn m c f o := by
  simp only [collides, Bool.and_eq_true, decide_eq_true_eq, LandsOn]
  constructor
  · rintro ⟨h1, h2⟩
    obtain ⟨k, hk⟩ := Nat.dvd_of_mod_eq_zero h2
    rcases Nat.eq_zero_or_pos f with rfl | hf
    · exact ⟨0, by omega, by omega⟩
    · refine ⟨k, ?_, ?_⟩
      · have : k ≤ f * k := Nat.le_mul_of_pos_left k hf
        omega
      · rw [Nat.mul_comm]; omega
  · rintro ⟨k, _, rfl⟩
    exact ⟨Nat.le_add_right _ _, by rw [Nat.add_sub_cancel_left]; exact Nat.mul_mod_left k f⟩

/-- What a scan finds: the least candidate that collides with no assigned channel. -/
theorem firstFree_eq_some {taken : List (Nat × Nat)} {fuel c x : Nat} (h : firstFree taken fuel c = some x) :
    c ≤ x ∧ x < c + fuel ∧ (∀ p ∈ taken, collides x p = false) ∧
      ∀ y, c ≤ y → y < x → ∃ p ∈ taken, collides y p = true := by
  induction fuel generalizing c with
  | zero => simp [firstFree] at h
  | succ n ih =>
    unfold firstFree at h
    split_ifs at h with hc
    · obtain ⟨h1, h2, h3, h4⟩ := ih h
      refine ⟨by omega, by omega, h3, fun y hy hyx => ?_⟩
      rcases Nat.eq_or_lt_of_le hy with rfl | hy
      · simpa [List.any_eq_true] using hc
      · exact h4 y hy hyx
    · obtain rfl := Option.some.inj h
      refine ⟨le_rfl, by omega, fun p hp => ?_, fun y h1 h2 => by omega⟩
      have := hc
      simp only [List.any_eq_true, not_exists, not_and, Bool.not_eq_true] at this
      exact this p hp

/-- When a scan finds nothing every candidate collides. -/
theorem firstFree_eq_none {taken : List (Nat × Nat)} {fuel c : Nat} (h : firstFree taken fuel c = none) :
    ∀ y, c ≤ y → y < c + fuel → ∃ p ∈ taken, collides y p = true := by
  induction fuel generalizing c with
  | zero => intro y h1 h2; omega
  | succ n ih =>
    unfold firstFree at h
    split_ifs at h with hc
    intro y h1 h2
    rcases Nat.eq_or_lt_of_le h1 with rfl | h1
    · simpa [List.any_eq_true] using hc
    · exact ih h y h1 (by omega)

/-- The scan answers exactly when some candidate is free. -/
theorem firstFree_isSome {taken : List (Nat × Nat)} {fuel c x : Nat} (h1 : c ≤ x) (h2 : x < c + fuel)
    (h3 : ∀ p ∈ taken, collides x p = false) : ∃ y, firstFree taken fuel c = some y ∧ y ≤ x := by
  cases h : firstFree taken fuel c with
  | none =>
    obtain ⟨p, hp, hc⟩ := firstFree_eq_none h x h1 h2
    simp [h3 p hp] at hc
  | some y =>
    refine ⟨y, rfl, ?_⟩
    obtain ⟨_, _, _, h4⟩ := firstFree_eq_some h
    by_contra hlt
    obtain ⟨p, hp, hc⟩ := h4 x h1 (by omega)
    simp [h3 p hp] at hc

theorem length_assignRest {m : Nat} {taken : List (Nat × Nat)} {fs out : List Nat}
    (h : assignRest m taken fs = some out) : out.length = fs.length := by
  induction fs generalizing taken out with
  | nil => obtain rfl := Option.some.inj h; rfl
  | cons f fs ih =>
    unfold assignRest at h
    cases hf : firstFree taken m 0 with
    | none => simp [hf] at h
    | some c =>
      simp only [hf, Option.map_eq_some_iff] at h
      obtain ⟨rest, hr, rfl⟩ := h
      simp [ih hr]

/-- One offset per channel (R180). -/
theorem length_assignOffsets {sf out : List Nat} (h : assignOffsets sf = some out) :
    out.length = sf.length := by
  cases sf with
  | nil => obtain rfl := Option.some.inj h; rfl
  | cons f fs =>
    simp only [assignOffsets, Option.map_eq_some_iff] at h
    obtain ⟨rest, hr, rfl⟩ := h
    simp [length_assignRest hr]

theorem assignRest_lt {m : Nat} {taken : List (Nat × Nat)} {fs out : List Nat}
    (h : assignRest m taken fs = some out) : ∀ o ∈ out, o < m := by
  induction fs generalizing taken out with
  | nil => obtain rfl := Option.some.inj h; simp
  | cons f fs ih =>
    unfold assignRest at h
    cases hf : firstFree taken m 0 with
    | none => simp [hf] at h
    | some c =>
      simp only [hf, Option.map_eq_some_iff] at h
      obtain ⟨rest, hr, rfl⟩ := h
      intro o ho
      rcases List.mem_cons.1 ho with rfl | ho
      · have := (firstFree_eq_some hf).2.1
        omega
      · exact ih hr o ho

theorem le_foldl_max {l : List Nat} {a x : Nat} (h : x ≤ a ∨ x ∈ l) : x ≤ l.foldl max a := by
  induction l generalizing a with
  | nil => simpa using h
  | cons y l ih =>
    apply ih
    rcases h with h | h
    · exact .inl (le_trans h (le_max_left _ _))
    · rcases List.mem_cons.1 h with rfl | h
      · exact .inl (le_max_right _ _)
      · exact .inr h

/-- `M` is at least every factor (R181). -/
theorem le_maxFactor {sf : List Nat} {x : Nat} (h : x ∈ sf) : x ≤ maxFactor sf := le_foldl_max (.inr h)

theorem foldl_max_mem (l : List Nat) (a : Nat) : l.foldl max a = a ∨ l.foldl max a ∈ l := by
  induction l generalizing a with
  | nil => simp
  | cons y l ih =>
    rcases ih (max a y) with h | h
    · rw [List.foldl_cons, h]
      rcases max_choice a y with h' | h'
      · exact .inl h'
      · exact .inr (by rw [h']; exact List.mem_cons_self)
    · exact .inr (List.mem_cons_of_mem _ h)

/-- `M` is one of the factors. -/
theorem maxFactor_mem {sf : List Nat} (h : sf ≠ []) : maxFactor sf ∈ sf := by
  rcases foldl_max_mem sf 0 with h0 | h0
  · obtain ⟨x, hx⟩ := List.exists_mem_of_ne_nil sf h
    have h1 : x ≤ maxFactor sf := le_maxFactor hx
    have h2 : maxFactor sf = 0 := h0
    rwa [h2, ← Nat.le_zero.1 (h2 ▸ h1)]
  · exact h0

end Sys2Proof.Machine
end

