-- ==== Sys2Proof/Laws/Config.lean ====
section
/-! SUPPORT. The parameters of this machine meet the constraints of R6, whatever the opaque constants are. -/

namespace Sys2Proof.Machine

theorem runningMax_mono (raw : Nat → BitVec 16) (g : Nat) :
    Config.runningMax raw g ≤ Config.runningMax raw (g + 1) := Nat.le_max_left _ _

theorem runningMax_le (raw : Nat → BitVec 16) (g : Nat) : Config.runningMax raw g ≤ 65535 := by
  induction g with
  | zero => exact Nat.zero_le _
  | succ g ih =>
    have := (raw (g + 1)).isLt
    exact Nat.max_le.2 ⟨ih, by omega⟩

/-- R6: the constraints hold of this machine's parameters. -/
theorem paramsOk_params : ParamsOk Config.params := by
  have h1 := Config.addrMinHalf.isLt
  have h2 := Config.lenMaxRaw.isLt
  refine ⟨?_, ?_, ?_, ?_, ?_, rfl, runningMax_mono _, runningMax_le _⟩ <;> simp only [Config.params] <;> omega

end Sys2Proof.Machine
end

