-- ==== Sys2Proof/Laws/Delivery.lean ====
section
/-! SUPPORT. The closed forms of a drain, one sample at a time: the counter, the place and the completed groups
after one more routed sample, as `route` makes them (R232). -/

namespace Sys2Proof.Machine

variable {ard : Bool} {n m l j : Nat}

/-- A drain that routes nothing moves no counter. -/
theorem countAfter_zero (h : n ≤ m) : countAfter ard n m 0 = n := by
  unfold countAfter
  split_ifs with h'
  · simpa using h
  · exact Nat.mod_eq_of_lt (by push Not at h'; simpa using h'.2)

/-- With auto-reset and room for a sample, the counter is the number of samples modulo the threshold. -/
theorem countAfter_auto (h : n < m) : countAfter false n m l = (n + l) % m := if_neg (by simpa using h)

/-- Without auto-reset, or at the threshold, the counter stops there. -/
theorem countAfter_stop (h : ard = true ∨ m ≤ n) : countAfter ard n m l = min (n + l) m := if_pos h

theorem countAfter_le : countAfter ard n m l ≤ m := by
  unfold countAfter
  split_ifs with h
  · exact Nat.min_le_right _ _
  · push Not at h
    exact (Nat.mod_lt _ (by omega)).le

/-- The j-th sample is stored at the counter the samples before it left, and dropped at the threshold. -/
theorem samplePlace_eq (h : n ≤ m) :
    samplePlace ard n m j = if countAfter ard n m j = m then none else some (countAfter ard n m j) := by
  cases ard with
  | true =>
    rw [countAfter_stop (.inl rfl), samplePlace, if_pos rfl]
    split_ifs <;> first | omega | (congr 1; omega) | rfl
  | false =>
    rcases h.lt_or_eq with h' | rfl
    · rw [countAfter_auto h', samplePlace, if_neg (by decide), if_pos h',
        if_neg (Nat.mod_lt _ (by omega)).ne]
    · rw [countAfter_stop (.inr le_rfl), samplePlace, if_neg (by decide), if_neg (lt_irrefl _), if_pos (by omega)]

/-- The counter after one more sample. -/
theorem countAfter_succ (h : n ≤ m) :
    countAfter ard n m (l + 1) =
      if countAfter ard n m l = m then m
      else if countAfter ard n m l + 1 = m ∧ ard = false then 0 else countAfter ard n m l + 1 := by
  cases ard with
  | true =>
    simp only [countAfter_stop (.inl rfl : (true = true) ∨ m ≤ n), Bool.true_eq_false, and_false, if_false]
    split_ifs <;> omega
  | false =>
    rcases h.lt_or_eq with h' | rfl
    · have hm := Nat.mod_lt (n + l) (show 0 < m by omega)
      simp only [countAfter_auto h', if_neg hm.ne, and_true, ← Nat.add_assoc]
      split_ifs with h1
      · rw [Nat.add_mod, ← h1]
        rcases Nat.lt_or_ge 1 m with h2 | h2
        · rw [h1, Nat.mod_eq_of_lt h2, h1, Nat.mod_self]
        · rw [h1, show m = 1 by omega, Nat.mod_one]
      · rw [Nat.add_mod, Nat.mod_eq_of_lt (show 1 < m by omega), Nat.mod_eq_of_lt (by omega)]
    · simp only [countAfter_stop (.inr le_rfl : (false = true) ∨ n ≤ n)]
      split_ifs <;> omega

/-- One more sample completes a group exactly when it fills the last place (R232). -/
theorem groupsDone_succ (h : n ≤ m) :
    groupsDone ard n m (l + 1) =
      groupsDone ard n m l + if countAfter ard n m l ≠ m ∧ countAfter ard n m l + 1 = m then 1 else 0 := by
  unfold groupsDone
  rcases h.lt_or_eq with h' | rfl
  · cases ard with
    | true =>
      simp only [countAfter_stop (.inl rfl : (true = true) ∨ m ≤ n), if_neg (Nat.not_le.2 h'), if_true]
      split_ifs <;> omega
    | false =>
      have hm := Nat.mod_lt (n + l) (show 0 < m by omega)
      simp only [countAfter_auto h', if_neg (Nat.not_le.2 h'), Bool.false_eq_true, if_false, ← Nat.add_assoc,
        Nat.succ_div, Nat.dvd_iff_mod_eq_zero]
      have e : (n + l + 1) % m = 0 ↔ (n + l) % m + 1 = m := by
        have := @countAfter_succ false n m l h
        rw [countAfter_auto h', countAfter_auto h', if_neg hm.ne, ← Nat.add_assoc] at this
        rw [this]; split_ifs with h1 <;> simp_all
      simp only [e, hm.ne, ne_eq, not_false_eq_true, true_and]
  · simp only [countAfter_stop (.inr le_rfl : ard = true ∨ n ≤ n), le_refl, if_true]
    split_ifs <;> omega

/-- Nothing has completed before the first sample. -/
theorem groupsDone_zero : groupsDone ard n m 0 = 0 := by
  unfold groupsDone
  split_ifs with h1 h2 h3 <;> first | omega | exact Nat.div_eq_of_lt (by omega)

end Sys2Proof.Machine
end

