-- ==== Sys2Proof/Laws/Flags.lean ====
section
/-! SUPPORT. The laws of the one-bit-per-channel registers, the channel lists, the interrupt line, and the
banks. -/

namespace Sys2Proof.Machine

/-! ### Bits -/

@[simp] theorem bitOf_setBit (w : Word16) (c d : Chan) :
    bitOf (setBit w c) d = (bitOf w d || decide (d = c)) := by
  simp only [bitOf, setBit, BitVec.getLsbD_or, BitVec.getLsbD_twoPow, Fin.ext_iff]
  rw [show decide (c.val = d.val) = decide (d.val = c.val) from decide_eq_decide.2 eq_comm]
  simp [c.isLt]

@[simp] theorem bitOf_clearBit (w : Word16) (c d : Chan) :
    bitOf (clearBit w c) d = (bitOf w d && !decide (d = c)) := by
  have hd := d.isLt
  simp only [bitOf, clearBit, BitVec.getLsbD_and, BitVec.getLsbD_not, BitVec.getLsbD_twoPow, Fin.ext_iff, hd,
    decide_true, Bool.true_and]
  rw [show decide (c.val = d.val) = decide (d.val = c.val) from decide_eq_decide.2 eq_comm]
  simp [c.isLt]

@[simp] theorem bitOf_zero (c : Chan) : bitOf 0#16 c = false := by simp [bitOf]

@[simp] theorem bitOf_ones (c : Chan) : bitOf 65535#16 c = true := by
  revert c; decide

theorem bitOf_lowBits (n : Nat) (c : Chan) : bitOf (lowBits n) c = decide (c.val < n) := by
  rw [bitOf, lowBits, BitVec.getLsbD_ofNat, Nat.testBit_two_pow_sub_one]
  simp [c.isLt]

/-- Two words with the same sixteen bits are equal. -/
theorem word16_ext {v w : Word16} (h : ∀ c : Chan, bitOf v c = bitOf w c) : v = w := by
  apply BitVec.eq_of_getLsbD_eq
  intro i hi
  exact h ⟨i, hi⟩

theorem eq_zero_of_bits {w : Word16} (h : ∀ c : Chan, bitOf w c = false) : w = 0 :=
  word16_ext fun c => by simp [h c]

/-! ### Channel lists -/

@[simp] theorem mem_allChans (c : Chan) : c ∈ allChans := by
  revert c; decide

theorem nodup_allChans : allChans.Nodup := by decide

@[simp] theorem mem_chansBelow {n : Nat} {c : Chan} : c ∈ chansBelow n ↔ c.val < n := by
  simp [chansBelow]

theorem nodup_chansBelow (n : Nat) : (chansBelow n).Nodup := nodup_allChans.filter _

theorem length_chansBelow {n : Nat} (h : n ≤ 16) : (chansBelow n).length = n := by
  revert h; revert n; decide

/-- The k-th of the channels below n is channel k. -/
theorem getElem_chansBelow {n k : Nat} (h : k < (chansBelow n).length) : ((chansBelow n)[k]).val = k := by
  have aux : ∀ m, m ≤ 16 → ∀ k (h : k < (chansBelow m).length), ((chansBelow m)[k]).val = k := by decide
  by_cases hn : n ≤ 16
  · exact aux n hn k h
  · have e : chansBelow n = chansBelow 16 := by
      apply List.filter_congr
      intro c _
      have := c.isLt
      simp only [decide_eq_decide]
      omega
    simp only [e] at h ⊢
    exact aux 16 le_rfl k h

@[simp] theorem mem_pendingFull {s : State} {c : Chan} :
    c ∈ pendingFull s ↔ bitOf s.irqStatus c = true ∧ bitOf s.irqMask c = false := by
  simp [pendingFull]

@[simp] theorem mem_pendingErr {s : State} {c : Chan} :
    c ∈ pendingErr s ↔ bitOf s.errStatus c = true ∧ bitOf s.irqMask c = false := by
  simp [pendingErr]

theorem nodup_pendingFull (s : State) : (pendingFull s).Nodup := nodup_allChans.filter _

theorem nodup_pendingErr (s : State) : (pendingErr s).Nodup := nodup_allChans.filter _

/-- IRQ_LINE (R47). -/
theorem irqLine_iff {s : State} :
    irqLine s = true ↔ ∃ c, (bitOf s.irqStatus c = true ∨ bitOf s.errStatus c = true) ∧
      bitOf s.irqMask c = false := by
  simp [irqLine, List.any_eq_true]

theorem irqLine_eq_false {s : State} :
    irqLine s = false ↔ ∀ c, bitOf s.irqStatus c = true ∨ bitOf s.errStatus c = true →
      bitOf s.irqMask c = true := by
  rw [← Bool.not_eq_true, irqLine_iff]
  push Not
  simp

/-! ### Banks -/

@[simp] theorem chan_setChan_same (s : State) (c : Chan) (x : Channel) : (s.setChan c x).chan c = x := by
  simp [State.chan, State.setChan]

theorem chan_setChan_other (s : State) {c d : Chan} (x : Channel) (h : d ≠ c) :
    (s.setChan c x).chan d = s.chan d := by
  have h' : c.val ≠ d.val := fun e => h (Fin.ext e.symm)
  simp [State.chan, State.setChan, h']

theorem chan_setChan (s : State) (c d : Chan) (x : Channel) :
    (s.setChan c x).chan d = if d = c then x else s.chan d := by
  split_ifs with h
  · subst h; simp
  · exact chan_setChan_other s x h

/-- Every bank after an update of all of them. -/
theorem getElem_mapBanks (f : Chan → Channel → Channel) (v : Vector Channel 16) (c : Chan) :
    (mapBanks f v)[c.val] = f c v[c.val] := by
  fin_cases c <;> rfl

/-- Two states with the same banks channel by channel have the same bank vector. -/
theorem banks_ext {v w : Vector Channel 16} (h : ∀ c : Chan, v[c.val] = w[c.val]) : v = w := by
  apply Vector.ext
  intro i hi
  exact h ⟨i, hi⟩

end Sys2Proof.Machine
end

