-- ==== Sys2Proof/Laws/Memory.lean ====
section
/-! SUPPORT. The laws of MEM: read after write, a write leaves every other byte alone, and every operation
keeps the canonical form. -/

namespace Sys2Proof.Machine

theorem Memory.get?_write_same (m : Memory) (a : Nat) (v : Byte) :
    Memory.get? (Memory.write m a v) a = some v := by
  induction m with
  | nil => simp [Memory.write, Memory.get?]
  | cons x m ih =>
    obtain ⟨k, b⟩ := x
    simp only [Memory.write]
    split_ifs with h1 h2
    · simp [Memory.get?]
    · simp [Memory.get?]
    · simp [Memory.get?, h2, ih]

theorem Memory.get?_write_other (m : Memory) {a b : Nat} (v : Byte) (h : b ≠ a) :
    Memory.get? (Memory.write m a v) b = Memory.get? m b := by
  induction m with
  | nil => simp [Memory.write, Memory.get?, h]
  | cons x m ih =>
    obtain ⟨k, y⟩ := x
    simp only [Memory.write]
    split_ifs with h1 h2
    · simp [Memory.get?, h]
    · subst h2; simp [Memory.get?, h]
    · simp [Memory.get?, ih]

/-- A byte reads as what was last written to it. -/
@[simp] theorem Memory.read_write_same (m : Memory) (a : Nat) (v : Byte) :
    Memory.read (Memory.write m a v) a = v := by
  simp [Memory.read, Memory.get?_write_same]

/-- A write leaves every other byte alone. -/
theorem Memory.read_write_other (m : Memory) {a b : Nat} (v : Byte) (h : b ≠ a) :
    Memory.read (Memory.write m a v) b = Memory.read m b := by
  simp [Memory.read, Memory.get?_write_other m v h]

/-- Reading any byte after a write. -/
theorem Memory.read_write (m : Memory) (a b : Nat) (v : Byte) :
    Memory.read (Memory.write m a v) b = if b = a then v else Memory.read m b := by
  split_ifs with h
  · subst h; simp
  · exact Memory.read_write_other m v h

theorem Memory.risesFrom_write (m : Memory) {lo a : Nat} (v : Byte) (ha : lo ≤ a)
    (h : Memory.risesFrom lo m = true) : Memory.risesFrom lo (Memory.write m a v) = true := by
  induction m generalizing lo with
  | nil => simp [Memory.write, Memory.risesFrom, ha]
  | cons x m ih =>
    obtain ⟨k, b⟩ := x
    simp only [Memory.risesFrom, Bool.and_eq_true, decide_eq_true_eq] at h
    simp only [Memory.write]
    split_ifs with h1 h2
    · simp [Memory.risesFrom, ha, h.2, Nat.succ_le_of_lt h1]
    · subst h2; simp [Memory.risesFrom, ha, h.2]
    · simp [Memory.risesFrom, h.1, ih (by omega) h.2]

theorem Memory.mem_write {m : Memory} {a : Nat} {v : Byte} {x : Host.Cell} (h : x ∈ Memory.write m a v) :
    x = (a, v) ∨ x ∈ m := by
  induction m with
  | nil => simpa [Memory.write] using h
  | cons y m ih =>
    obtain ⟨k, b⟩ := y
    simp only [Memory.write] at h
    split_ifs at h with h1 h2
    · simpa using h
    · rcases List.mem_cons.1 h with h | h
      · exact .inl h
      · exact .inr (List.mem_cons_of_mem _ h)
    · rcases List.mem_cons.1 h with h | h
      · exact .inr (h ▸ List.mem_cons_self)
      · exact (ih h).imp_right (List.mem_cons_of_mem _)

/-- A write inside the address space keeps the canonical form. -/
theorem Memory.wf_write {m : Memory} {a : Nat} (v : Byte) (ha : a < 2 ^ 32) (h : m.wf = true) :
    (Memory.write m a v).wf = true := by
  simp only [Memory.wf, Bool.and_eq_true, List.all_eq_true, decide_eq_true_eq] at *
  refine ⟨Memory.risesFrom_write m v (Nat.zero_le a) h.1, fun x hx => ?_⟩
  rcases Memory.mem_write hx with rfl | hx
  · exact ha
  · exact h.2 x hx

/-- A 16-bit write inside the address space keeps the canonical form. -/
theorem Memory.wf_write16 {m : Memory} {a : Nat} (v : Word16) (ha : a + 1 < 2 ^ 32) (h : m.wf = true) :
    (m.write16 a v).wf = true :=
  Memory.wf_write _ ha (Memory.wf_write _ (by omega) h)

/-- The bytes after a 16-bit write: the low byte at the lower address (R83), every other as before. -/
theorem Memory.read_write16 (m : Memory) (a b : Nat) (v : Word16) :
    Memory.read (m.write16 a v) b =
      if b = a then v.extractLsb' 0 8 else if b = a + 1 then v.extractLsb' 8 8 else Memory.read m b := by
  simp only [Memory.write16, Memory.read_write]
  split_ifs <;> first | rfl | omega

/-- A byte outside the two written ones reads as before. -/
theorem Memory.read_write16_other (m : Memory) {a b : Nat} (v : Word16) (h : b ≠ a) (h' : b ≠ a + 1) :
    Memory.read (m.write16 a v) b = Memory.read m b := by
  simp [Memory.read_write16, h, h']

theorem halves_append (v : Word16) : v.extractLsb' 8 8 ++ v.extractLsb' 0 8 = v := by
  ext i hi
  simp only [BitVec.getElem_append, BitVec.getElem_extractLsb']
  split_ifs with h
  · simp [BitVec.getLsbD_eq_getElem (show i < 16 by omega)]
  · rw [show 8 + (i - 8) = i by omega, BitVec.getLsbD_eq_getElem (show i < 16 by omega)]

/-- A 16-bit read after a 16-bit write at the same address. -/
@[simp] theorem Memory.read16_write16_same (m : Memory) (a : Nat) (v : Word16) :
    (m.write16 a v).read16 a = v := by
  simp [Memory.read16, Memory.read_write16, halves_append]

/-- A 16-bit read after a 16-bit write at an address at least two away. -/
theorem Memory.read16_write16_other (m : Memory) {a b : Nat} (v : Word16) (h : b + 2 ≤ a ∨ a + 2 ≤ b) :
    (m.write16 a v).read16 b = m.read16 b := by
  simp only [Memory.read16]
  rw [Memory.read_write16_other, Memory.read_write16_other] <;> omega

/-- The memory right after reset has the canonical form. -/
theorem Memory.wf_reset : State.reset.mem.wf = true := rfl

/-! ### The block's accesses -/

/-- A store of the block: where both bytes exist, MEM alone changes. -/
theorem State.store16_eq_ok {s t : State} {a : Nat} {v : Word16} (h : s.store16 a v = .ok t) :
    a + 1 < 2 ^ 32 ∧ t = { s with mem := s.mem.write16 a v } := by
  unfold State.store16 addressOk at h
  split_ifs at h with hc
  · exact ⟨of_decide_eq_true hc, by simpa using h.symm⟩

/-- A store whose bytes exist completes. -/
theorem State.store16_of_lt (s : State) {a : Nat} (v : Word16) (h : a + 1 < 2 ^ 32) :
    s.store16 a v = .ok { s with mem := s.mem.write16 a v } := by
  simp only [State.store16, addressOk, decide_eq_true h, if_true]

/-- A load whose bytes exist completes. -/
theorem State.load16_of_lt (s : State) {a : Nat} (h : a + 1 < 2 ^ 32) :
    s.load16 a = .ok (s.mem.read16 a) := by
  simp only [State.load16, addressOk, decide_eq_true h, if_true]

/-- What a load answers. -/
theorem State.load16_eq_ok {s : State} {a : Nat} {w : Word16} (h : s.load16 a = .ok w) :
    a + 1 < 2 ^ 32 ∧ w = s.mem.read16 a := by
  unfold State.load16 addressOk at h
  split_ifs at h with hc
  · exact ⟨of_decide_eq_true hc, by simpa using h.symm⟩

end Sys2Proof.Machine
end

