-- ==== Sys2Proof/Laws/State.lean ====
section
/-! SUPPORT. One lemma per field per named update of the state, each true by rfl, so that no later proof
unfolds a record update. -/

namespace Sys2Proof.Machine

variable (s : State)

/-! ### State.setChan -/

@[simp] theorem State.setChan_st (c : Chan) (x : Channel) : (s.setChan c x).st = s.st := rfl
@[simp] theorem State.setChan_calValid (c : Chan) (x : Channel) : (s.setChan c x).calValid = s.calValid := rfl
@[simp] theorem State.setChan_calSeOffset (c : Chan) (x : Channel) : (s.setChan c x).calSeOffset = s.calSeOffset := rfl
@[simp] theorem State.setChan_calSeGain (c : Chan) (x : Channel) : (s.setChan c x).calSeGain = s.calSeGain := rfl
@[simp] theorem State.setChan_calDiffOffset (c : Chan) (x : Channel) : (s.setChan c x).calDiffOffset = s.calDiffOffset := rfl
@[simp] theorem State.setChan_calDiffGain (c : Chan) (x : Channel) : (s.setChan c x).calDiffGain = s.calDiffGain := rfl
@[simp] theorem State.setChan_result (c : Chan) (x : Channel) : (s.setChan c x).result = s.result := rfl
@[simp] theorem State.setChan_baseClk (c : Chan) (x : Channel) : (s.setChan c x).baseClk = s.baseClk := rfl
@[simp] theorem State.setChan_mode (c : Chan) (x : Channel) : (s.setChan c x).mode = s.mode := rfl
@[simp] theorem State.setChan_onCycles (c : Chan) (x : Channel) : (s.setChan c x).onCycles = s.onCycles := rfl
@[simp] theorem State.setChan_totalCycles (c : Chan) (x : Channel) : (s.setChan c x).totalCycles = s.totalCycles := rfl
@[simp] theorem State.setChan_irqStatus (c : Chan) (x : Channel) : (s.setChan c x).irqStatus = s.irqStatus := rfl
@[simp] theorem State.setChan_irqMask (c : Chan) (x : Channel) : (s.setChan c x).irqMask = s.irqMask := rfl
@[simp] theorem State.setChan_errStatus (c : Chan) (x : Channel) : (s.setChan c x).errStatus = s.errStatus := rfl
@[simp] theorem State.setChan_overrun (c : Chan) (x : Channel) : (s.setChan c x).overrun = s.overrun := rfl
@[simp] theorem State.setChan_demuxErr (c : Chan) (x : Channel) : (s.setChan c x).demuxErr = s.demuxErr := rfl
@[simp] theorem State.setChan_actBaseClk (c : Chan) (x : Channel) : (s.setChan c x).actBaseClk = s.actBaseClk := rfl
@[simp] theorem State.setChan_actMode (c : Chan) (x : Channel) : (s.setChan c x).actMode = s.actMode := rfl
@[simp] theorem State.setChan_chEn (c : Chan) (x : Channel) : (s.setChan c x).chEn = s.chEn := rfl
@[simp] theorem State.setChan_clkEn (c : Chan) (x : Channel) : (s.setChan c x).clkEn = s.clkEn := rfl
@[simp] theorem State.setChan_ch (c : Chan) (x : Channel) : (s.setChan c x).ch = s.ch.set c.val x := rfl
@[simp] theorem State.setChan_mem (c : Chan) (x : Channel) : (s.setChan c x).mem = s.mem := rfl
@[simp] theorem State.setChan_events (c : Chan) (x : Channel) : (s.setChan c x).events = s.events := rfl
@[simp] theorem State.setChan_hwops (c : Chan) (x : Channel) : (s.setChan c x).hwops = s.hwops := rfl
@[simp] theorem State.setChan_rdata (c : Chan) (x : Channel) : (s.setChan c x).rdata = s.rdata := rfl
@[simp] theorem State.setChan_ret (c : Chan) (x : Channel) : (s.setChan c x).ret = s.ret := rfl
@[simp] theorem State.setChan_trim (c : Chan) (x : Channel) : (s.setChan c x).trim = s.trim := rfl
@[simp] theorem State.setChan_draws (c : Chan) (x : Channel) : (s.setChan c x).draws = s.draws := rfl
@[simp] theorem State.setChan_input (c : Chan) (x : Channel) : (s.setChan c x).input = s.input := rfl

/-! ### State.emit -/

@[simp] theorem State.emit_st (k : EventKind) (c : Chan) : (s.emit k c).st = s.st := rfl
@[simp] theorem State.emit_calValid (k : EventKind) (c : Chan) : (s.emit k c).calValid = s.calValid := rfl
@[simp] theorem State.emit_calSeOffset (k : EventKind) (c : Chan) : (s.emit k c).calSeOffset = s.calSeOffset := rfl
@[simp] theorem State.emit_calSeGain (k : EventKind) (c : Chan) : (s.emit k c).calSeGain = s.calSeGain := rfl
@[simp] theorem State.emit_calDiffOffset (k : EventKind) (c : Chan) : (s.emit k c).calDiffOffset = s.calDiffOffset := rfl
@[simp] theorem State.emit_calDiffGain (k : EventKind) (c : Chan) : (s.emit k c).calDiffGain = s.calDiffGain := rfl
@[simp] theorem State.emit_result (k : EventKind) (c : Chan) : (s.emit k c).result = s.result := rfl
@[simp] theorem State.emit_baseClk (k : EventKind) (c : Chan) : (s.emit k c).baseClk = s.baseClk := rfl
@[simp] theorem State.emit_mode (k : EventKind) (c : Chan) : (s.emit k c).mode = s.mode := rfl
@[simp] theorem State.emit_onCycles (k : EventKind) (c : Chan) : (s.emit k c).onCycles = s.onCycles := rfl
@[simp] theorem State.emit_totalCycles (k : EventKind) (c : Chan) : (s.emit k c).totalCycles = s.totalCycles := rfl
@[simp] theorem State.emit_irqStatus (k : EventKind) (c : Chan) : (s.emit k c).irqStatus = s.irqStatus := rfl
@[simp] theorem State.emit_irqMask (k : EventKind) (c : Chan) : (s.emit k c).irqMask = s.irqMask := rfl
@[simp] theorem State.emit_errStatus (k : EventKind) (c : Chan) : (s.emit k c).errStatus = s.errStatus := rfl
@[simp] theorem State.emit_overrun (k : EventKind) (c : Chan) : (s.emit k c).overrun = s.overrun := rfl
@[simp] theorem State.emit_demuxErr (k : EventKind) (c : Chan) : (s.emit k c).demuxErr = s.demuxErr := rfl
@[simp] theorem State.emit_actBaseClk (k : EventKind) (c : Chan) : (s.emit k c).actBaseClk = s.actBaseClk := rfl
@[simp] theorem State.emit_actMode (k : EventKind) (c : Chan) : (s.emit k c).actMode = s.actMode := rfl
@[simp] theorem State.emit_chEn (k : EventKind) (c : Chan) : (s.emit k c).chEn = s.chEn := rfl
@[simp] theorem State.emit_clkEn (k : EventKind) (c : Chan) : (s.emit k c).clkEn = s.clkEn := rfl
@[simp] theorem State.emit_ch (k : EventKind) (c : Chan) : (s.emit k c).ch = s.ch := rfl
@[simp] theorem State.emit_mem (k : EventKind) (c : Chan) : (s.emit k c).mem = s.mem := rfl
@[simp] theorem State.emit_events (k : EventKind) (c : Chan) : (s.emit k c).events = s.events ++ [{ channel := c, kind := k }] := rfl
@[simp] theorem State.emit_hwops (k : EventKind) (c : Chan) : (s.emit k c).hwops = s.hwops := rfl
@[simp] theorem State.emit_rdata (k : EventKind) (c : Chan) : (s.emit k c).rdata = s.rdata := rfl
@[simp] theorem State.emit_ret (k : EventKind) (c : Chan) : (s.emit k c).ret = s.ret := rfl
@[simp] theorem State.emit_trim (k : EventKind) (c : Chan) : (s.emit k c).trim = s.trim := rfl
@[simp] theorem State.emit_draws (k : EventKind) (c : Chan) : (s.emit k c).draws = s.draws := rfl
@[simp] theorem State.emit_input (k : EventKind) (c : Chan) : (s.emit k c).input = s.input := rfl

/-! ### State.emitAll -/

@[simp] theorem State.emitAll_st (l : List Event) : (s.emitAll l).st = s.st := rfl
@[simp] theorem State.emitAll_calValid (l : List Event) : (s.emitAll l).calValid = s.calValid := rfl
@[simp] theorem State.emitAll_calSeOffset (l : List Event) : (s.emitAll l).calSeOffset = s.calSeOffset := rfl
@[simp] theorem State.emitAll_calSeGain (l : List Event) : (s.emitAll l).calSeGain = s.calSeGain := rfl
@[simp] theorem State.emitAll_calDiffOffset (l : List Event) : (s.emitAll l).calDiffOffset = s.calDiffOffset := rfl
@[simp] theorem State.emitAll_calDiffGain (l : List Event) : (s.emitAll l).calDiffGain = s.calDiffGain := rfl
@[simp] theorem State.emitAll_result (l : List Event) : (s.emitAll l).result = s.result := rfl
@[simp] theorem State.emitAll_baseClk (l : List Event) : (s.emitAll l).baseClk = s.baseClk := rfl
@[simp] theorem State.emitAll_mode (l : List Event) : (s.emitAll l).mode = s.mode := rfl
@[simp] theorem State.emitAll_onCycles (l : List Event) : (s.emitAll l).onCycles = s.onCycles := rfl
@[simp] theorem State.emitAll_totalCycles (l : List Event) : (s.emitAll l).totalCycles = s.totalCycles := rfl
@[simp] theorem State.emitAll_irqStatus (l : List Event) : (s.emitAll l).irqStatus = s.irqStatus := rfl
@[simp] theorem State.emitAll_irqMask (l : List Event) : (s.emitAll l).irqMask = s.irqMask := rfl
@[simp] theorem State.emitAll_errStatus (l : List Event) : (s.emitAll l).errStatus = s.errStatus := rfl
@[simp] theorem State.emitAll_overrun (l : List Event) : (s.emitAll l).overrun = s.overrun := rfl
@[simp] theorem State.emitAll_demuxErr (l : List Event) : (s.emitAll l).demuxErr = s.demuxErr := rfl
@[simp] theorem State.emitAll_actBaseClk (l : List Event) : (s.emitAll l).actBaseClk = s.actBaseClk := rfl
@[simp] theorem State.emitAll_actMode (l : List Event) : (s.emitAll l).actMode = s.actMode := rfl
@[simp] theorem State.emitAll_chEn (l : List Event) : (s.emitAll l).chEn = s.chEn := rfl
@[simp] theorem State.emitAll_clkEn (l : List Event) : (s.emitAll l).clkEn = s.clkEn := rfl
@[simp] theorem State.emitAll_ch (l : List Event) : (s.emitAll l).ch = s.ch := rfl
@[simp] theorem State.emitAll_mem (l : List Event) : (s.emitAll l).mem = s.mem := rfl
@[simp] theorem State.emitAll_events (l : List Event) : (s.emitAll l).events = s.events ++ l := rfl
@[simp] theorem State.emitAll_hwops (l : List Event) : (s.emitAll l).hwops = s.hwops := rfl
@[simp] theorem State.emitAll_rdata (l : List Event) : (s.emitAll l).rdata = s.rdata := rfl
@[simp] theorem State.emitAll_ret (l : List Event) : (s.emitAll l).ret = s.ret := rfl
@[simp] theorem State.emitAll_trim (l : List Event) : (s.emitAll l).trim = s.trim := rfl
@[simp] theorem State.emitAll_draws (l : List Event) : (s.emitAll l).draws = s.draws := rfl
@[simp] theorem State.emitAll_input (l : List Event) : (s.emitAll l).input = s.input := rfl

/-! ### State.log -/

@[simp] theorem State.log_st (h : Hwop) : (s.log h).st = s.st := rfl
@[simp] theorem State.log_calValid (h : Hwop) : (s.log h).calValid = s.calValid := rfl
@[simp] theorem State.log_calSeOffset (h : Hwop) : (s.log h).calSeOffset = s.calSeOffset := rfl
@[simp] theorem State.log_calSeGain (h : Hwop) : (s.log h).calSeGain = s.calSeGain := rfl
@[simp] theorem State.log_calDiffOffset (h : Hwop) : (s.log h).calDiffOffset = s.calDiffOffset := rfl
@[simp] theorem State.log_calDiffGain (h : Hwop) : (s.log h).calDiffGain = s.calDiffGain := rfl
@[simp] theorem State.log_result (h : Hwop) : (s.log h).result = s.result := rfl
@[simp] theorem State.log_baseClk (h : Hwop) : (s.log h).baseClk = s.baseClk := rfl
@[simp] theorem State.log_mode (h : Hwop) : (s.log h).mode = s.mode := rfl
@[simp] theorem State.log_onCycles (h : Hwop) : (s.log h).onCycles = s.onCycles := rfl
@[simp] theorem State.log_totalCycles (h : Hwop) : (s.log h).totalCycles = s.totalCycles := rfl
@[simp] theorem State.log_irqStatus (h : Hwop) : (s.log h).irqStatus = s.irqStatus := rfl
@[simp] theorem State.log_irqMask (h : Hwop) : (s.log h).irqMask = s.irqMask := rfl
@[simp] theorem State.log_errStatus (h : Hwop) : (s.log h).errStatus = s.errStatus := rfl
@[simp] theorem State.log_overrun (h : Hwop) : (s.log h).overrun = s.overrun := rfl
@[simp] theorem State.log_demuxErr (h : Hwop) : (s.log h).demuxErr = s.demuxErr := rfl
@[simp] theorem State.log_actBaseClk (h : Hwop) : (s.log h).actBaseClk = s.actBaseClk := rfl
@[simp] theorem State.log_actMode (h : Hwop) : (s.log h).actMode = s.actMode := rfl
@[simp] theorem State.log_chEn (h : Hwop) : (s.log h).chEn = s.chEn := rfl
@[simp] theorem State.log_clkEn (h : Hwop) : (s.log h).clkEn = s.clkEn := rfl
@[simp] theorem State.log_ch (h : Hwop) : (s.log h).ch = s.ch := rfl
@[simp] theorem State.log_mem (h : Hwop) : (s.log h).mem = s.mem := rfl
@[simp] theorem State.log_events (h : Hwop) : (s.log h).events = s.events := rfl
@[simp] theorem State.log_hwops (h : Hwop) : (s.log h).hwops = s.hwops ++ [h] := rfl
@[simp] theorem State.log_rdata (h : Hwop) : (s.log h).rdata = s.rdata := rfl
@[simp] theorem State.log_ret (h : Hwop) : (s.log h).ret = s.ret := rfl
@[simp] theorem State.log_trim (h : Hwop) : (s.log h).trim = s.trim := rfl
@[simp] theorem State.log_draws (h : Hwop) : (s.log h).draws = s.draws := rfl
@[simp] theorem State.log_input (h : Hwop) : (s.log h).input = s.input := rfl

/-! ### State.fail -/

@[simp] theorem State.fail_st (e : ErrCode) (i : Byte) : (s.fail e i).st = s.st := rfl
@[simp] theorem State.fail_calValid (e : ErrCode) (i : Byte) : (s.fail e i).calValid = s.calValid := rfl
@[simp] theorem State.fail_calSeOffset (e : ErrCode) (i : Byte) : (s.fail e i).calSeOffset = s.calSeOffset := rfl
@[simp] theorem State.fail_calSeGain (e : ErrCode) (i : Byte) : (s.fail e i).calSeGain = s.calSeGain := rfl
@[simp] theorem State.fail_calDiffOffset (e : ErrCode) (i : Byte) : (s.fail e i).calDiffOffset = s.calDiffOffset := rfl
@[simp] theorem State.fail_calDiffGain (e : ErrCode) (i : Byte) : (s.fail e i).calDiffGain = s.calDiffGain := rfl
@[simp] theorem State.fail_result (e : ErrCode) (i : Byte) : (s.fail e i).result = { code := e, info := i } := rfl
@[simp] theorem State.fail_baseClk (e : ErrCode) (i : Byte) : (s.fail e i).baseClk = s.baseClk := rfl
@[simp] theorem State.fail_mode (e : ErrCode) (i : Byte) : (s.fail e i).mode = s.mode := rfl
@[simp] theorem State.fail_onCycles (e : ErrCode) (i : Byte) : (s.fail e i).onCycles = s.onCycles := rfl
@[simp] theorem State.fail_totalCycles (e : ErrCode) (i : Byte) : (s.fail e i).totalCycles = s.totalCycles := rfl
@[simp] theorem State.fail_irqStatus (e : ErrCode) (i : Byte) : (s.fail e i).irqStatus = s.irqStatus := rfl
@[simp] theorem State.fail_irqMask (e : ErrCode) (i : Byte) : (s.fail e i).irqMask = s.irqMask := rfl
@[simp] theorem State.fail_errStatus (e : ErrCode) (i : Byte) : (s.fail e i).errStatus = s.errStatus := rfl
@[simp] theorem State.fail_overrun (e : ErrCode) (i : Byte) : (s.fail e i).overrun = s.overrun := rfl
@[simp] theorem State.fail_demuxErr (e : ErrCode) (i : Byte) : (s.fail e i).demuxErr = s.demuxErr := rfl
@[simp] theorem State.fail_actBaseClk (e : ErrCode) (i : Byte) : (s.fail e i).actBaseClk = s.actBaseClk := rfl
@[simp] theorem State.fail_actMode (e : ErrCode) (i : Byte) : (s.fail e i).actMode = s.actMode := rfl
@[simp] theorem State.fail_chEn (e : ErrCode) (i : Byte) : (s.fail e i).chEn = s.chEn := rfl
@[simp] theorem State.fail_clkEn (e : ErrCode) (i : Byte) : (s.fail e i).clkEn = s.clkEn := rfl
@[simp] theorem State.fail_ch (e : ErrCode) (i : Byte) : (s.fail e i).ch = s.ch := rfl
@[simp] theorem State.fail_mem (e : ErrCode) (i : Byte) : (s.fail e i).mem = s.mem := rfl
@[simp] theorem State.fail_events (e : ErrCode) (i : Byte) : (s.fail e i).events = s.events := rfl
@[simp] theorem State.fail_hwops (e : ErrCode) (i : Byte) : (s.fail e i).hwops = s.hwops := rfl
@[simp] theorem State.fail_rdata (e : ErrCode) (i : Byte) : (s.fail e i).rdata = s.rdata := rfl
@[simp] theorem State.fail_ret (e : ErrCode) (i : Byte) : (s.fail e i).ret = s.ret := rfl
@[simp] theorem State.fail_trim (e : ErrCode) (i : Byte) : (s.fail e i).trim = s.trim := rfl
@[simp] theorem State.fail_draws (e : ErrCode) (i : Byte) : (s.fail e i).draws = s.draws := rfl
@[simp] theorem State.fail_input (e : ErrCode) (i : Byte) : (s.fail e i).input = s.input := rfl

/-! ### State.succeed -/

@[simp] theorem State.succeed_st : (s.succeed).st = s.st := rfl
@[simp] theorem State.succeed_calValid : (s.succeed).calValid = s.calValid := rfl
@[simp] theorem State.succeed_calSeOffset : (s.succeed).calSeOffset = s.calSeOffset := rfl
@[simp] theorem State.succeed_calSeGain : (s.succeed).calSeGain = s.calSeGain := rfl
@[simp] theorem State.succeed_calDiffOffset : (s.succeed).calDiffOffset = s.calDiffOffset := rfl
@[simp] theorem State.succeed_calDiffGain : (s.succeed).calDiffGain = s.calDiffGain := rfl
@[simp] theorem State.succeed_result : (s.succeed).result = { code := .ok, info := noInfo } := rfl
@[simp] theorem State.succeed_baseClk : (s.succeed).baseClk = s.baseClk := rfl
@[simp] theorem State.succeed_mode : (s.succeed).mode = s.mode := rfl
@[simp] theorem State.succeed_onCycles : (s.succeed).onCycles = s.onCycles := rfl
@[simp] theorem State.succeed_totalCycles : (s.succeed).totalCycles = s.totalCycles := rfl
@[simp] theorem State.succeed_irqStatus : (s.succeed).irqStatus = s.irqStatus := rfl
@[simp] theorem State.succeed_irqMask : (s.succeed).irqMask = s.irqMask := rfl
@[simp] theorem State.succeed_errStatus : (s.succeed).errStatus = s.errStatus := rfl
@[simp] theorem State.succeed_overrun : (s.succeed).overrun = s.overrun := rfl
@[simp] theorem State.succeed_demuxErr : (s.succeed).demuxErr = s.demuxErr := rfl
@[simp] theorem State.succeed_actBaseClk : (s.succeed).actBaseClk = s.actBaseClk := rfl
@[simp] theorem State.succeed_actMode : (s.succeed).actMode = s.actMode := rfl
@[simp] theorem State.succeed_chEn : (s.succeed).chEn = s.chEn := rfl
@[simp] theorem State.succeed_clkEn : (s.succeed).clkEn = s.clkEn := rfl
@[simp] theorem State.succeed_ch : (s.succeed).ch = s.ch := rfl
@[simp] theorem State.succeed_mem : (s.succeed).mem = s.mem := rfl
@[simp] theorem State.succeed_events : (s.succeed).events = s.events := rfl
@[simp] theorem State.succeed_hwops : (s.succeed).hwops = s.hwops := rfl
@[simp] theorem State.succeed_rdata : (s.succeed).rdata = s.rdata := rfl
@[simp] theorem State.succeed_ret : (s.succeed).ret = s.ret := rfl
@[simp] theorem State.succeed_trim : (s.succeed).trim = s.trim := rfl
@[simp] theorem State.succeed_draws : (s.succeed).draws = s.draws := rfl
@[simp] theorem State.succeed_input : (s.succeed).input = s.input := rfl

/-! ### State.resetRegisters -/

@[simp] theorem State.resetRegisters_st : (s.resetRegisters).st = State.reset.st := rfl
@[simp] theorem State.resetRegisters_calValid : (s.resetRegisters).calValid = State.reset.calValid := rfl
@[simp] theorem State.resetRegisters_calSeOffset : (s.resetRegisters).calSeOffset = State.reset.calSeOffset := rfl
@[simp] theorem State.resetRegisters_calSeGain : (s.resetRegisters).calSeGain = State.reset.calSeGain := rfl
@[simp] theorem State.resetRegisters_calDiffOffset : (s.resetRegisters).calDiffOffset = State.reset.calDiffOffset := rfl
@[simp] theorem State.resetRegisters_calDiffGain : (s.resetRegisters).calDiffGain = State.reset.calDiffGain := rfl
@[simp] theorem State.resetRegisters_result : (s.resetRegisters).result = State.reset.result := rfl
@[simp] theorem State.resetRegisters_baseClk : (s.resetRegisters).baseClk = State.reset.baseClk := rfl
@[simp] theorem State.resetRegisters_mode : (s.resetRegisters).mode = State.reset.mode := rfl
@[simp] theorem State.resetRegisters_onCycles : (s.resetRegisters).onCycles = State.reset.onCycles := rfl
@[simp] theorem State.resetRegisters_totalCycles : (s.resetRegisters).totalCycles = State.reset.totalCycles := rfl
@[simp] theorem State.resetRegisters_irqStatus : (s.resetRegisters).irqStatus = State.reset.irqStatus := rfl
@[simp] theorem State.resetRegisters_irqMask : (s.resetRegisters).irqMask = State.reset.irqMask := rfl
@[simp] theorem State.resetRegisters_errStatus : (s.resetRegisters).errStatus = State.reset.errStatus := rfl
@[simp] theorem State.resetRegisters_overrun : (s.resetRegisters).overrun = State.reset.overrun := rfl
@[simp] theorem State.resetRegisters_demuxErr : (s.resetRegisters).demuxErr = State.reset.demuxErr := rfl
@[simp] theorem State.resetRegisters_actBaseClk : (s.resetRegisters).actBaseClk = State.reset.actBaseClk := rfl
@[simp] theorem State.resetRegisters_actMode : (s.resetRegisters).actMode = State.reset.actMode := rfl
@[simp] theorem State.resetRegisters_chEn : (s.resetRegisters).chEn = State.reset.chEn := rfl
@[simp] theorem State.resetRegisters_clkEn : (s.resetRegisters).clkEn = State.reset.clkEn := rfl
@[simp] theorem State.resetRegisters_ch : (s.resetRegisters).ch = State.reset.ch := rfl
@[simp] theorem State.resetRegisters_mem : (s.resetRegisters).mem = s.mem := rfl
@[simp] theorem State.resetRegisters_events : (s.resetRegisters).events = s.events := rfl
@[simp] theorem State.resetRegisters_hwops : (s.resetRegisters).hwops = s.hwops := rfl
@[simp] theorem State.resetRegisters_rdata : (s.resetRegisters).rdata = s.rdata := rfl
@[simp] theorem State.resetRegisters_ret : (s.resetRegisters).ret = s.ret := rfl
@[simp] theorem State.resetRegisters_trim : (s.resetRegisters).trim = s.trim := rfl
@[simp] theorem State.resetRegisters_draws : (s.resetRegisters).draws = s.draws := rfl
@[simp] theorem State.resetRegisters_input : (s.resetRegisters).input = s.input := rfl

/-! ### State.advance -/

@[simp] theorem State.advance_st : (s.advance).st = s.st := rfl
@[simp] theorem State.advance_calValid : (s.advance).calValid = s.calValid := rfl
@[simp] theorem State.advance_calSeOffset : (s.advance).calSeOffset = s.calSeOffset := rfl
@[simp] theorem State.advance_calSeGain : (s.advance).calSeGain = s.calSeGain := rfl
@[simp] theorem State.advance_calDiffOffset : (s.advance).calDiffOffset = s.calDiffOffset := rfl
@[simp] theorem State.advance_calDiffGain : (s.advance).calDiffGain = s.calDiffGain := rfl
@[simp] theorem State.advance_result : (s.advance).result = s.result := rfl
@[simp] theorem State.advance_baseClk : (s.advance).baseClk = s.baseClk := rfl
@[simp] theorem State.advance_mode : (s.advance).mode = s.mode := rfl
@[simp] theorem State.advance_onCycles : (s.advance).onCycles = s.onCycles := rfl
@[simp] theorem State.advance_totalCycles : (s.advance).totalCycles = s.totalCycles := rfl
@[simp] theorem State.advance_irqStatus : (s.advance).irqStatus = s.irqStatus := rfl
@[simp] theorem State.advance_irqMask : (s.advance).irqMask = s.irqMask := rfl
@[simp] theorem State.advance_errStatus : (s.advance).errStatus = s.errStatus := rfl
@[simp] theorem State.advance_overrun : (s.advance).overrun = s.overrun := rfl
@[simp] theorem State.advance_demuxErr : (s.advance).demuxErr = s.demuxErr := rfl
@[simp] theorem State.advance_actBaseClk : (s.advance).actBaseClk = s.actBaseClk := rfl
@[simp] theorem State.advance_actMode : (s.advance).actMode = s.actMode := rfl
@[simp] theorem State.advance_chEn : (s.advance).chEn = s.chEn := rfl
@[simp] theorem State.advance_clkEn : (s.advance).clkEn = s.clkEn := rfl
@[simp] theorem State.advance_ch : (s.advance).ch = s.ch := rfl
@[simp] theorem State.advance_mem : (s.advance).mem = s.mem := rfl
@[simp] theorem State.advance_events : (s.advance).events = s.events := rfl
@[simp] theorem State.advance_hwops : (s.advance).hwops = s.hwops := rfl
@[simp] theorem State.advance_rdata : (s.advance).rdata = s.rdata := rfl
@[simp] theorem State.advance_ret : (s.advance).ret = s.ret := rfl
@[simp] theorem State.advance_trim : (s.advance).trim = s.trim := rfl
@[simp] theorem State.advance_draws : (s.advance).draws = s.draws := rfl
@[simp] theorem State.advance_input : (s.advance).input = s.input.tail := rfl

/-! ### State.withSlot -/

@[simp] theorem State.withSlot_st (x : Slot) : (s.withSlot x).st = s.st := rfl
@[simp] theorem State.withSlot_calValid (x : Slot) : (s.withSlot x).calValid = s.calValid := rfl
@[simp] theorem State.withSlot_calSeOffset (x : Slot) : (s.withSlot x).calSeOffset = s.calSeOffset := rfl
@[simp] theorem State.withSlot_calSeGain (x : Slot) : (s.withSlot x).calSeGain = s.calSeGain := rfl
@[simp] theorem State.withSlot_calDiffOffset (x : Slot) : (s.withSlot x).calDiffOffset = s.calDiffOffset := rfl
@[simp] theorem State.withSlot_calDiffGain (x : Slot) : (s.withSlot x).calDiffGain = s.calDiffGain := rfl
@[simp] theorem State.withSlot_result (x : Slot) : (s.withSlot x).result = s.result := rfl
@[simp] theorem State.withSlot_baseClk (x : Slot) : (s.withSlot x).baseClk = s.baseClk := rfl
@[simp] theorem State.withSlot_mode (x : Slot) : (s.withSlot x).mode = s.mode := rfl
@[simp] theorem State.withSlot_onCycles (x : Slot) : (s.withSlot x).onCycles = s.onCycles := rfl
@[simp] theorem State.withSlot_totalCycles (x : Slot) : (s.withSlot x).totalCycles = s.totalCycles := rfl
@[simp] theorem State.withSlot_irqStatus (x : Slot) : (s.withSlot x).irqStatus = s.irqStatus := rfl
@[simp] theorem State.withSlot_irqMask (x : Slot) : (s.withSlot x).irqMask = s.irqMask := rfl
@[simp] theorem State.withSlot_errStatus (x : Slot) : (s.withSlot x).errStatus = s.errStatus := rfl
@[simp] theorem State.withSlot_overrun (x : Slot) : (s.withSlot x).overrun = s.overrun := rfl
@[simp] theorem State.withSlot_demuxErr (x : Slot) : (s.withSlot x).demuxErr = s.demuxErr := rfl
@[simp] theorem State.withSlot_actBaseClk (x : Slot) : (s.withSlot x).actBaseClk = s.actBaseClk := rfl
@[simp] theorem State.withSlot_actMode (x : Slot) : (s.withSlot x).actMode = s.actMode := rfl
@[simp] theorem State.withSlot_chEn (x : Slot) : (s.withSlot x).chEn = s.chEn := rfl
@[simp] theorem State.withSlot_clkEn (x : Slot) : (s.withSlot x).clkEn = s.clkEn := rfl
@[simp] theorem State.withSlot_ch (x : Slot) : (s.withSlot x).ch = s.ch := rfl
@[simp] theorem State.withSlot_mem (x : Slot) : (s.withSlot x).mem = s.mem := rfl
@[simp] theorem State.withSlot_events (x : Slot) : (s.withSlot x).events = s.events := rfl
@[simp] theorem State.withSlot_hwops (x : Slot) : (s.withSlot x).hwops = s.hwops := rfl
@[simp] theorem State.withSlot_rdata (x : Slot) : (s.withSlot x).rdata = s.rdata := rfl
@[simp] theorem State.withSlot_ret (x : Slot) : (s.withSlot x).ret = s.ret := rfl
@[simp] theorem State.withSlot_trim (x : Slot) : (s.withSlot x).trim = s.trim := rfl
@[simp] theorem State.withSlot_draws (x : Slot) : (s.withSlot x).draws = s.draws := rfl
@[simp] theorem State.withSlot_input (x : Slot) : (s.withSlot x).input = x :: s.input := rfl

/-! ### State.answer -/

@[simp] theorem State.answer_st (r : FuncResult) : (s.answer r).st = s.st := rfl
@[simp] theorem State.answer_calValid (r : FuncResult) : (s.answer r).calValid = s.calValid := rfl
@[simp] theorem State.answer_calSeOffset (r : FuncResult) : (s.answer r).calSeOffset = s.calSeOffset := rfl
@[simp] theorem State.answer_calSeGain (r : FuncResult) : (s.answer r).calSeGain = s.calSeGain := rfl
@[simp] theorem State.answer_calDiffOffset (r : FuncResult) : (s.answer r).calDiffOffset = s.calDiffOffset := rfl
@[simp] theorem State.answer_calDiffGain (r : FuncResult) : (s.answer r).calDiffGain = s.calDiffGain := rfl
@[simp] theorem State.answer_result (r : FuncResult) : (s.answer r).result = s.result := rfl
@[simp] theorem State.answer_baseClk (r : FuncResult) : (s.answer r).baseClk = s.baseClk := rfl
@[simp] theorem State.answer_mode (r : FuncResult) : (s.answer r).mode = s.mode := rfl
@[simp] theorem State.answer_onCycles (r : FuncResult) : (s.answer r).onCycles = s.onCycles := rfl
@[simp] theorem State.answer_totalCycles (r : FuncResult) : (s.answer r).totalCycles = s.totalCycles := rfl
@[simp] theorem State.answer_irqStatus (r : FuncResult) : (s.answer r).irqStatus = s.irqStatus := rfl
@[simp] theorem State.answer_irqMask (r : FuncResult) : (s.answer r).irqMask = s.irqMask := rfl
@[simp] theorem State.answer_errStatus (r : FuncResult) : (s.answer r).errStatus = s.errStatus := rfl
@[simp] theorem State.answer_overrun (r : FuncResult) : (s.answer r).overrun = s.overrun := rfl
@[simp] theorem State.answer_demuxErr (r : FuncResult) : (s.answer r).demuxErr = s.demuxErr := rfl
@[simp] theorem State.answer_actBaseClk (r : FuncResult) : (s.answer r).actBaseClk = s.actBaseClk := rfl
@[simp] theorem State.answer_actMode (r : FuncResult) : (s.answer r).actMode = s.actMode := rfl
@[simp] theorem State.answer_chEn (r : FuncResult) : (s.answer r).chEn = s.chEn := rfl
@[simp] theorem State.answer_clkEn (r : FuncResult) : (s.answer r).clkEn = s.clkEn := rfl
@[simp] theorem State.answer_ch (r : FuncResult) : (s.answer r).ch = s.ch := rfl
@[simp] theorem State.answer_mem (r : FuncResult) : (s.answer r).mem = s.mem := rfl
@[simp] theorem State.answer_events (r : FuncResult) : (s.answer r).events = s.events := rfl
@[simp] theorem State.answer_hwops (r : FuncResult) : (s.answer r).hwops = s.hwops := rfl
@[simp] theorem State.answer_rdata (r : FuncResult) : (s.answer r).rdata = s.rdata := rfl
@[simp] theorem State.answer_ret (r : FuncResult) : (s.answer r).ret = some r := rfl
@[simp] theorem State.answer_trim (r : FuncResult) : (s.answer r).trim = s.trim := rfl
@[simp] theorem State.answer_draws (r : FuncResult) : (s.answer r).draws = s.draws := rfl
@[simp] theorem State.answer_input (r : FuncResult) : (s.answer r).input = s.input := rfl

end Sys2Proof.Machine
end

