-- ==== Sys2Proof/Laws/Ops.lean ====
section
/-! SUPPORT. What the shared operations of the commands do, each said once as one equation: runs of
primitives over channels, STOP's primitives, the latch of CONFIGURE. -/

namespace Sys2Proof.Machine

/-! ### Folding a bit operation over channels -/

theorem bitOf_foldl_setBit (l : List Chan) (w : Word16) (d : Chan) :
    bitOf (l.foldl setBit w) d = (bitOf w d || decide (d ∈ l)) := by
  induction l generalizing w with
  | nil => simp
  | cons c l ih => simp [ih, Bool.or_assoc]

theorem bitOf_foldl_clearBit (l : List Chan) (w : Word16) (d : Chan) :
    bitOf (l.foldl clearBit w) d = (bitOf w d && !decide (d ∈ l)) := by
  induction l generalizing w with
  | nil => simp
  | cons c l ih => simp [ih, Bool.and_assoc]

/-! ### Runs of primitives -/

theorem foldl_hwUnmaskInterrupt (l : List Chan) (s : State) :
    l.foldl (fun s c => hwUnmaskInterrupt c s) s =
      { s with irqMask := l.foldl clearBit s.irqMask, hwops := s.hwops ++ l.map .unmaskInterrupt } := by
  induction l generalizing s with
  | nil => simp
  | cons c l ih =>
    rw [List.foldl_cons, ih]
    simp [hwUnmaskInterrupt, State.log]

theorem foldl_hwMaskInterrupt (l : List Chan) (s : State) :
    l.foldl (fun s c => hwMaskInterrupt c s) s =
      { s with irqMask := l.foldl setBit s.irqMask, hwops := s.hwops ++ l.map .maskInterrupt } := by
  induction l generalizing s with
  | nil => simp
  | cons c l ih =>
    rw [List.foldl_cons, ih]
    simp [hwMaskInterrupt, State.log]

theorem foldl_hwEnableChannel (l : List Chan) (s : State) :
    l.foldl (fun s c => hwEnableChannel c s) s =
      { s with chEn := l.foldl setBit s.chEn, hwops := s.hwops ++ l.map .enableChannel } := by
  induction l generalizing s with
  | nil => simp
  | cons c l ih =>
    rw [List.foldl_cons, ih]
    simp [hwEnableChannel, State.log]

/-- The records that arm both halves of channel i, none if it is no buffer channel of the request (R214). -/
def armRecords (s : State) (i : Chan) : List Hwop :=
  if isRequestBuffer s i then
    [.programBuffer i .ping (halfAddr s i .ping) (halfLen s i .ping),
     .programBuffer i .pong (halfAddr s i .pong) (halfLen s i .pong)]
  else []

theorem armBoth_eq (i : Chan) (s : State) : armBoth i s = { s with hwops := s.hwops ++ armRecords s i } := by
  unfold armBoth armRecords
  split_ifs <;> simp [hwProgramBuffer, State.log, halfAddr, halfLen, State.chan]

theorem foldl_armBoth (l : List Chan) (s : State) :
    l.foldl (fun s c => armBoth c s) s = { s with hwops := s.hwops ++ l.flatMap (armRecords s) } := by
  induction l generalizing s with
  | nil => simp
  | cons c l ih =>
    rw [List.foldl_cons, ih, armBoth_eq, List.flatMap_cons, ← List.append_assoc]
    rfl

/-- The primitives of a successful CONFIGURE change CH_EN and HWOPS only (R214). -/
theorem programCore_eq (s : State) :
    programCore s =
      { s with
        chEn := (chansBelow s.activeN).foldl setBit s.chEn
        hwops := s.hwops ++ (.setClockDivider s.onCycles s.totalCycles ::
          ((chansBelow s.activeN).flatMap (armRecords s) ++ (chansBelow s.activeN).map .enableChannel)) } := by
  simp only [programCore, forChansBelow, foldl_armBoth, foldl_hwEnableChannel, hwSetClockDivider, State.log,
    List.append_assoc, List.cons_append, List.nil_append]
  rfl

/-- STOP's primitives change IRQ_MASK, CLK_EN and HWOPS only (R217). -/
theorem stopCore_eq (s : State) :
    stopCore s =
      { s with
        irqMask := 0xFFFF
        clkEn := false
        hwops := s.hwops ++ ((chansBelow s.activeN).map .maskInterrupt ++ [.setClockEnable false]) } := by
  simp only [stopCore, forChansBelow, foldl_hwMaskInterrupt, hwSetClockEnable, State.log, List.append_assoc]

/-- A successful START (R216). -/
theorem startPipeline_eq {s : State} (h : s.st = .configured) (hv : s.calValid = true) :
    startPipeline s =
      { s with
        st := .running
        clkEn := true
        irqMask := (chansBelow s.activeN).foldl clearBit s.irqMask
        hwops := s.hwops ++ (.setClockEnable true :: (chansBelow s.activeN).map .unmaskInterrupt)
        result := { code := .ok, info := 0xFF } } := by
  simp [startPipeline, h, hv, forChansBelow, foldl_hwUnmaskInterrupt, hwSetClockEnable, State.log, State.succeed,
    noInfo, State.activeN]

/-- A STOP that is accepted (R217). -/
theorem stopPipeline_eq {s : State} (h : s.st ≠ .idle) :
    stopPipeline s =
      { s with
        st := .idle
        clkEn := false
        irqMask := 0xFFFF
        irqStatus := 0
        errStatus := 0
        ch := mapBanks (fun _ c => { c with count := 0 }) s.ch
        hwops := s.hwops ++ ((chansBelow s.activeN).map .maskInterrupt ++ [.setClockEnable false])
        result := { code := .ok, info := 0xFF } } := by
  simp [stopPipeline, h, stopCore_eq, clearCounts, State.succeed, noInfo]

/-- DEINIT (R218): the reset values, with STOP's primitives appended when the pipeline was not Idle. -/
theorem deinitPipeline_eq (s : State) :
    deinitPipeline s =
      { s.resetRegisters with
        hwops := s.hwops ++ (if s.st = .idle then [] else
          (chansBelow s.activeN).map .maskInterrupt ++ [.setClockEnable false]) } := by
  unfold deinitPipeline
  split_ifs with h
  · simp [State.succeed, noInfo, State.resetRegisters, State.reset]
  · simp [stopCore_eq, State.succeed, noInfo, State.resetRegisters, State.reset]

/-- A successful CONFIGURE in one equation (R213, R214). -/
theorem configureDone_eq (s : State) (sch : Schedule) (offs : List Nat) :
    configureDone s sch offs =
      { s with
        st := .configured
        result := { code := .ok, info := 0xFF }
        onCycles := BitVec.ofNat 32 sch.on
        totalCycles := BitVec.ofNat 32 sch.total
        overrun := 0
        demuxErr := false
        actBaseClk := s.baseClk
        actMode := s.mode
        chEn := (chansBelow s.mode.n.toNat).foldl setBit (lowBits s.mode.n.toNat)
        ch := mapBanks (latchBank s sch offs) s.ch
        hwops := s.hwops ++ (.setClockDivider (BitVec.ofNat 32 sch.on) (BitVec.ofNat 32 sch.total) ::
          ((chansBelow s.mode.n.toNat).flatMap (armRecords (latchConfig s sch offs)) ++
           (chansBelow s.mode.n.toNat).map .enableChannel)) } := by
  simp only [configureDone, programCore_eq, State.succeed, noInfo, State.activeN]
  rfl

/-- Channel c's bank after a successful CONFIGURE. -/
theorem chan_configureDone (s : State) (sch : Schedule) (offs : List Nat) (c : Chan) :
    (configureDone s sch offs).chan c = latchBank s sch offs c (s.chan c) := by
  rw [configureDone_eq]
  exact getElem_mapBanks _ _ _

/-- What a CONFIGURE can do: a failed check writes RESULT, an infeasible schedule writes RESULT, or the
request is latched (R212 to R215). -/
theorem configureWith_cases (p : Params) (s : State) :
    (∃ r, validate p s = some r ∧ configureWith p s = { s with result := r }) ∨
    (validate p s = none ∧ configureWith p s = { s with result := { code := .schedulingInfeasible, info := 0xFF } } ∧
      (computeSchedule p.delay (schedArgs s) = none ∨
       ∃ sch, computeSchedule p.delay (schedArgs s) = some sch ∧ assignOffsets sch.sf = none)) ∨
    (∃ sch offs, validate p s = none ∧ computeSchedule p.delay (schedArgs s) = some sch ∧
      assignOffsets sch.sf = some offs ∧ configureWith p s = configureDone s sch offs) := by
  unfold configureWith
  cases hv : validate p s with
  | some r => exact .inl ⟨r, rfl, rfl⟩
  | none =>
    right
    cases hc : computeSchedule p.delay (schedArgs s) with
    | none => exact .inl ⟨rfl, rfl, .inl rfl⟩
    | some sch =>
      cases ho : assignOffsets sch.sf with
      | none => exact .inl ⟨rfl, by simp [ho, State.fail, noInfo], .inr ⟨sch, rfl, ho⟩⟩
      | some offs => exact .inr ⟨sch, offs, rfl, rfl, ho, by simp [ho]⟩

/-- What a CAL_LOAD can do (R192). -/
theorem calLoad_cases (s : State) :
    ((s.st ≠ .idle ∨ s.calValid = true) ∧
      calLoad s = { s with result := { code := .invalidState, info := 0xFF } }) ∨
    (s.st = .idle ∧ s.calValid = false ∧ (trimAnswers s).ready = false ∧
      calLoad s = { s with trim := none, draws := s.draws + 1,
                           result := { code := .calibrationTimeout, info := 0xFF } }) ∨
    (s.st = .idle ∧ s.calValid = false ∧ (trimAnswers s).ready = true ∧
      calLoad s = { s with
        trim := none, draws := s.draws + 1
        calSeOffset := (trimAnswers s).seOffset, calSeGain := (trimAnswers s).seGain
        calDiffOffset := (trimAnswers s).diffOffset, calDiffGain := (trimAnswers s).diffGain
        calValid := true, result := { code := .ok, info := 0xFF } }) := by
  unfold calLoad
  split_ifs with h1 h2 h3
  · exact .inl ⟨.inl h1, rfl⟩
  · exact .inl ⟨.inr h2, rfl⟩
  · exact .inr (.inr ⟨not_not.1 h1, by simpa using h2, h3, rfl⟩)
  · exact .inr (.inl ⟨not_not.1 h1, by simpa using h2, by simpa using h3, rfl⟩)

/-- A write to CMD is the decoded command (R24, R112). -/
theorem runCommand_eq_exec (v : Word) (s : State) : runCommand v s = exec (decodeCmd v) s := by
  unfold runCommand decodeCmd
  split <;> simp_all [exec]

end Sys2Proof.Machine
end

