-- ==== Sys2Proof/Laws/PerInstr.lean ====
section
/-! SUPPORT. A law of every instruction as syntax, one lemma per constructor: the encoder writes exactly as
many bytes as the record's format and tag fix (R111, R121, R125, R126). -/

namespace Sys2Proof.Laws.EncodeLength

/-- The number of bytes a record has by its format and first byte. -/
def slotLength (sl : Slot) : Nat :=
  match sl.fmt with
  | .cmd => 4
  | .evt => 4
  | .trace => traceLength (sl.bytes.headD 0).toNat
  | .hwop => hwopLength (sl.bytes.headD 0).toNat

/-- The record the encoder writes for i has the length its format and tag fix. -/
def Statement (i : Instr) : Prop := ∀ sl, encode i = some sl → sl.bytes.length = slotLength sl

/-- A record known in full settles the statement. -/
theorem of_encode {i : Instr} {sl : Slot} (h : encode i = some sl) (hl : sl.bytes.length = slotLength sl) :
    Statement i := by
  intro sl' h'
  obtain rfl : sl = sl' := Option.some.inj (h.symm.trans h')
  exact hl

/-- An instruction without a record has nothing to show. -/
theorem of_none {i : Instr} (h : encode i = none) : Statement i := by
  intro sl h'
  exact absurd (h.symm.trans h') (by simp)

theorem nop : Statement .nop := of_encode rfl rfl
theorem calLoad : Statement .calLoad := of_encode rfl rfl
theorem configure : Statement .configure := of_encode rfl rfl
theorem start : Statement .start := of_encode rfl rfl
theorem stop : Statement .stop := of_encode rfl rfl
theorem deinit : Statement .deinit := of_encode rfl rfl
theorem reservedCmd (v : Word) : Statement (.reservedCmd v) := of_encode rfl rfl
theorem wr (o : Word16) (v : Word) : Statement (.wr o v) := of_encode rfl rfl
theorem rd (o : Word16) (v : Word) : Statement (.rd o v) := of_encode rfl rfl
theorem svc : Statement .svc := of_encode rfl rfl
theorem eng (c : Chan) (h : Half) (k w : Word16) : Statement (.eng c h k w) := of_encode rfl rfl
theorem half (c : Chan) : Statement (.half c) := of_encode rfl rfl
theorem xerr (c : Chan) : Statement (.xerr c) := of_encode rfl rfl
theorem trim (a : TrimAnswers) : Statement (.trim a) := of_encode rfl rfl
theorem reset : Statement .reset := of_encode rfl rfl
theorem setClockDivider (on total : Word) : Statement (.setClockDivider on total) := of_encode rfl rfl
theorem programBuffer (c : Chan) (h : Half) (a : Word) (l : Word16) : Statement (.programBuffer c h a l) :=
  of_encode rfl rfl
theorem enableChannel (c : Chan) : Statement (.enableChannel c) := of_encode rfl rfl
theorem unmaskInterrupt (c : Chan) : Statement (.unmaskInterrupt c) := of_encode rfl rfl
theorem readInterruptStatus (m : Word16) : Statement (.readInterruptStatus m) := of_encode rfl rfl
theorem clearInterrupt (c : Chan) : Statement (.clearInterrupt c) := of_encode rfl rfl
theorem maskInterrupt (c : Chan) : Statement (.maskInterrupt c) := of_encode rfl rfl
theorem setClockEnable (b : Bool) : Statement (.setClockEnable b) := of_encode rfl rfl
theorem dataReady (c : Chan) : Statement (.dataReady c) := of_encode rfl rfl
theorem sampleGroupComplete (c : Chan) : Statement (.sampleGroupComplete c) := of_encode rfl rfl
theorem bufferFull (c : Chan) : Statement (.bufferFull c) := of_encode rfl rfl
theorem transferError (c : Chan) : Statement (.transferError c) := of_encode rfl rfl
theorem computeSchedule (a : SchedArgs) : Statement (.computeSchedule a) := of_none rfl
theorem roundPow2 (x : Nat) : Statement (.roundPow2 x) := of_none rfl
theorem assignOffsets (sf : List Nat) : Statement (.assignOffsets sf) := of_none rfl
theorem apply (raw : Word16) (d : Bool) : Statement (.apply raw d) := of_none rfl

end Sys2Proof.Laws.EncodeLength
end

