-- ==== Sys2Proof/Laws/Schedule.lean ====
section
/-! SUPPORT. The laws of the RateScheduler's pieces: the ceiling, the power-of-two rounding, the exact
utilisation test, the doubling loop, and what the channel loop keeps (R151 to R159, R166). -/

namespace Sys2Proof.Machine

/-! ### cdiv (R14) -/

/-- `cdiv(a, b)` is the least q with a ≤ q * b. -/
theorem cdiv_le_iff {a b q : Nat} (hb : 0 < b) : cdiv a b ≤ q ↔ a ≤ q * b := by
  unfold cdiv
  rw [← Nat.lt_succ_iff, Nat.div_lt_iff_lt_mul hb, Nat.succ_mul]
  omega

theorem le_cdiv_mul (a : Nat) {b : Nat} (hb : 0 < b) : a ≤ cdiv a b * b := (cdiv_le_iff hb).1 le_rfl

theorem one_le_cdiv {a b : Nat} (ha : 1 ≤ a) (hb : 0 < b) : 1 ≤ cdiv a b := by
  by_contra h
  have := (cdiv_le_iff (a := a) (q := 0) hb).1 (by omega)
  omega

/-! ### round_pow2 (R154) -/

theorem doubleUntil_spec (s : Nat) (fuel k : Nat) (hs : s ≤ 2 ^ (k + fuel)) (hk : ∀ j, s ≤ 2 ^ j → k ≤ j) :
    ∃ m, doubleUntil s fuel (2 ^ k) = 2 ^ m ∧ s ≤ 2 ^ m ∧ ∀ j, s ≤ 2 ^ j → m ≤ j := by
  induction fuel generalizing k with
  | zero => exact ⟨k, rfl, by simpa using hs, hk⟩
  | succ n ih =>
    unfold doubleUntil
    split_ifs with h
    · exact ⟨k, rfl, h, hk⟩
    · rw [← pow_succ']
      refine ih (k + 1) (by rwa [show k + 1 + n = k + (n + 1) by omega]) fun j hj => ?_
      have := hk j hj
      rcases Nat.lt_or_eq_of_le this with h' | h'
      · exact h'
      · exact absurd (h' ▸ hj) h

/-- `leastPow2 s` is the smallest power of two that is at least s. -/
theorem leastPow2_spec (s : Nat) : ∃ m, leastPow2 s = 2 ^ m ∧ s ≤ 2 ^ m ∧ ∀ j, s ≤ 2 ^ j → m ≤ j :=
  doubleUntil_spec s s 0 (by simpa using Nat.lt_two_pow_self.le) fun _ _ => Nat.zero_le _

/-- A power of two is its own rounding. -/
theorem roundPow2_pow (k : Nat) : roundPow2 (2 ^ k) = 2 ^ k := by
  obtain ⟨m, hm, hle, hmin⟩ := leastPow2_spec (2 ^ k)
  have h1 : m = k := le_antisymm (hmin k le_rfl) ((Nat.pow_le_pow_iff_right (by norm_num)).1 hle)
  subst h1
  simp [roundPow2, hm]

/-- Strictly between 2^k and 2^(k+1) the least power of two above is 2^(k+1). -/
theorem leastPow2_between {s k : Nat} (h1 : 2 ^ k < s) (h2 : s < 2 ^ (k + 1)) : leastPow2 s = 2 ^ (k + 1) := by
  obtain ⟨m, hm, hle, hmin⟩ := leastPow2_spec s
  have h3 : m ≤ k + 1 := hmin _ h2.le
  have h4 : k < m := (Nat.pow_lt_pow_iff_right (by norm_num)).1 (lt_of_lt_of_le h1 hle)
  rw [hm, show m = k + 1 by omega]

/-- Every s ≥ 1 is a power of two or lies strictly between two neighbouring ones. -/
theorem pow2_or_between {s : Nat} (hs : 1 ≤ s) : ∃ k, s = 2 ^ k ∨ (2 ^ k < s ∧ s < 2 ^ (k + 1)) := by
  refine ⟨Nat.log2 s, ?_⟩
  have h1 := Nat.log2_self_le (by omega : s ≠ 0)
  have h2 := Nat.lt_log2_self (n := s)
  omega

/-- The rounding of s ≥ 1 is 2^k or 2^(k+1) where 2^k ≤ s < 2^(k+1). -/
theorem roundPow2_cases {s : Nat} (hs : 1 ≤ s) :
    ∃ k, 2 ^ k ≤ s ∧ s < 2 ^ (k + 1) ∧ (roundPow2 s = 2 ^ k ∨ roundPow2 s = 2 ^ (k + 1)) := by
  obtain ⟨k, h | ⟨h1, h2⟩⟩ := pow2_or_between hs
  · subst h
    exact ⟨k, le_rfl, Nat.pow_lt_pow_right (by norm_num) (by omega), .inl (roundPow2_pow k)⟩
  · refine ⟨k, h1.le, h2, ?_⟩
    unfold roundPow2
    rw [leastPow2_between h1 h2]
    have : 2 ^ (k + 1) / 2 = 2 ^ k := by rw [pow_succ]; omega
    rw [this]
    split_ifs <;> simp_all

/-- The rounding of s ≥ 2 is at least 2. -/
theorem two_le_roundPow2 {s : Nat} (hs : 2 ≤ s) : 2 ≤ roundPow2 s := by
  obtain ⟨k, h1, h2, h⟩ := roundPow2_cases (by omega : 1 ≤ s)
  have hk : 1 ≤ k := by
    by_contra h0
    have : k = 0 := by omega
    subst this
    simp at h2
    omega
  have : 2 ^ 1 ≤ 2 ^ k := Nat.pow_le_pow_right (by norm_num) hk
  have h3 : 2 ^ (k + 1) = 2 * 2 ^ k := pow_succ' 2 k
  rcases h with h | h <;> omega

/-- The rounding does not go below a power of two that divides s. -/
theorem le_roundPow2 {q s : Nat} (hq : ∃ j, q = 2 ^ j) (hs : q ≤ s) : q ≤ roundPow2 s := by
  obtain ⟨j, rfl⟩ := hq
  have h0 : 1 ≤ s := le_trans (Nat.one_le_two_pow) hs
  obtain ⟨k, h1, h2, h⟩ := roundPow2_cases h0
  have hj : j < k + 1 := (Nat.pow_lt_pow_iff_right (by norm_num : 1 < 2)).1 (lt_of_le_of_lt hs h2)
  have h3 : 2 ^ j ≤ 2 ^ k := Nat.pow_le_pow_right (by norm_num) (by omega)
  have h4 : 2 ^ (k + 1) = 2 * 2 ^ k := pow_succ' 2 k
  rcases h with h | h <;> omega

/-! ### The utilisation (R158) -/

theorem foldl_mul_eq (l : List Nat) (a : Nat) : l.foldl (· * ·) a = a * l.prod := by
  induction l generalizing a with
  | nil => simp
  | cons x l ih => simp [ih, Nat.mul_assoc]

theorem foldl_add_eq (l : List Nat) (a : Nat) : l.foldl (· + ·) a = a + l.sum := by
  induction l generalizing a with
  | nil => simp
  | cons x l ih => simp [ih, Nat.add_assoc]

theorem commonMultiple_eq (sf : List Nat) : commonMultiple sf = sf.prod := by
  simp [commonMultiple, foldl_mul_eq]

theorem sum_div_of_dvd (l : List Nat) (m : Nat) (hm : ∀ x ∈ l, x ∣ m) (hx : ∀ x ∈ l, 1 ≤ x) :
    (((l.map fun x => m / x).sum : Nat) : ℚ) = m * (l.map fun x : Nat => (1 : ℚ) / (x : ℚ)).sum := by
  induction l with
  | nil => simp
  | cons x l ih =>
    have h1 := ih (fun y hy => hm y (List.mem_cons_of_mem _ hy)) (fun y hy => hx y (List.mem_cons_of_mem _ hy))
    have h2 : x ∣ m := hm x List.mem_cons_self
    have h3 : (x : ℚ) ≠ 0 := by
      have := hx x List.mem_cons_self
      exact_mod_cast (by omega : x ≠ 0)
    simp only [List.map_cons, List.sum_cons, Nat.cast_add, h1, Nat.cast_div h2 h3]
    ring

/-- The integer test of the scheduler is the exact test `util > 1`. -/
theorem overUtilised_iff {sf : List Nat} (hx : ∀ x ∈ sf, 1 ≤ x) :
    overUtilised sf = true ↔ 1 < utilisation sf := by
  have h := sum_div_of_dvd sf (commonMultiple sf)
    (fun x hx => by rw [commonMultiple_eq]; exact List.dvd_prod hx) hx
  have hpos : (0 : ℚ) < (commonMultiple sf : ℚ) := by
    rw [commonMultiple_eq]
    exact_mod_cast List.prod_pos fun x h => hx x h
  simp only [overUtilised, decide_eq_true_eq, foldl_add_eq, Nat.zero_add]
  rw [← Nat.cast_lt (α := ℚ), h]
  change _ < (commonMultiple sf : ℚ) * utilisation sf ↔ _
  constructor
  · intro h'
    by_contra hle
    have : (commonMultiple sf : ℚ) * utilisation sf ≤ commonMultiple sf * 1 :=
      mul_le_mul_of_nonneg_left (not_lt.1 hle) hpos.le
    linarith
  · intro h'
    nlinarith

/-! ### The doubling loop (R157) -/

/-- What the doubling loop answers: the factors times a power of two, not over-utilised, and in range if any
doubling was made. -/
theorem doubleLoop_spec {fuel : Nat} {sf out : List Nat} (h : doubleLoop fuel sf = some out) :
    overUtilised out = false ∧ ∃ j, out = sf.map (2 ^ j * ·) ∧ (1 ≤ j → ∀ x ∈ out, x ≤ 65535) := by
  induction fuel generalizing sf with
  | zero => simp [doubleLoop] at h
  | succ n ih =>
    unfold doubleLoop at h
    split_ifs at h with h1 h2
    · obtain ⟨ho, j, hj, hr⟩ := ih h
      refine ⟨ho, j + 1, ?_, fun _ => ?_⟩
      · rw [hj, List.map_map]
        congr 1
        funext x
        simp [pow_succ, Nat.mul_assoc]
      · rcases Nat.eq_zero_or_pos j with rfl | hj0
        · intro x hx
          simp only [hj, pow_zero, one_mul, List.map_id'] at hx
          obtain ⟨y, hy, rfl⟩ := List.mem_map.1 hx
          exact of_decide_eq_true (List.all_eq_true.1 h2 y hy)
        · exact hr hj0
    · obtain rfl := Option.some.inj h
      exact ⟨by simpa using h1, 0, by simp, by omega⟩

theorem relieve_spec {sf out : List Nat} (h : relieve sf = some out) :
    overUtilised out = false ∧ ∃ j, out = sf.map (2 ^ j * ·) ∧ (1 ≤ j → ∀ x ∈ out, x ≤ 65535) :=
  doubleLoop_spec h

/-- Where the factors fit and are not over-utilised, the loop makes no doubling. -/
theorem relieve_of_not_over {sf : List Nat} (h : overUtilised sf = false) : relieve sf = some sf := by
  simp [relieve, doubleLoop, h]

/-- The bound on the rounds is never what ends the loop: it fails only because the factors are still
over-utilised and a doubling would pass 65535 (R156, R157). -/
theorem doubleLoop_eq_none {fuel : Nat} {sf : List Nat} {b : Nat} (hne : sf ≠ [])
    (hb : ∀ x ∈ sf, b ≤ x) (hr : ∀ x ∈ sf, x ≤ 65535) (hf : 65535 < b * 2 ^ fuel)
    (h : doubleLoop fuel sf = none) :
    ∃ j, (∀ i ≤ j, overUtilised (sf.map (2 ^ i * ·)) = true) ∧ ∃ x ∈ sf, 65535 < 2 ^ (j + 1) * x := by
  induction fuel generalizing sf b with
  | zero =>
    obtain ⟨x, hx⟩ := List.exists_mem_of_ne_nil sf hne
    have h1 := hb x hx
    have h2 := hr x hx
    simp at hf
    omega
  | succ n ih =>
    unfold doubleLoop at h
    split_ifs at h with h1 h2
    · have hne' : sf.map (2 * ·) ≠ [] := by simpa using hne
      have hb' : ∀ y ∈ sf.map (2 * ·), 2 * b ≤ y := by
        intro y hy
        obtain ⟨x, hx, rfl⟩ := List.mem_map.1 hy
        have := hb x hx
        omega
      have hr' : ∀ y ∈ sf.map (2 * ·), y ≤ 65535 := by
        intro y hy
        obtain ⟨x, hx, rfl⟩ := List.mem_map.1 hy
        exact of_decide_eq_true (List.all_eq_true.1 h2 x hx)
      have hf' : 65535 < 2 * b * 2 ^ n := by
        rw [pow_succ] at hf
        calc 65535 < b * (2 ^ n * 2) := hf
          _ = 2 * b * 2 ^ n := by ring
      obtain ⟨j, hj, x, hx, hxx⟩ := ih hne' hb' hr' hf' h
      refine ⟨j + 1, fun i hi => ?_, ?_⟩
      · rcases i with _ | i
        · simpa using h1
        · have := hj i (by omega)
          rw [List.map_map] at this
          rw [← this]
          congr 2
          funext x
          simp [pow_succ, Nat.mul_assoc]
      · obtain ⟨y, hy, rfl⟩ := List.mem_map.1 hx
        refine ⟨y, hy, ?_⟩
        calc 65535 < 2 ^ (j + 1) * (2 * y) := hxx
          _ = 2 ^ (j + 1 + 1) * y := by rw [pow_succ 2 (j + 1)]; ring
    · refine ⟨0, fun i hi => ?_, ?_⟩
      · obtain rfl : i = 0 := by omega
        simpa using h1
      · simp only [List.all_eq_true, decide_eq_true_eq, not_forall] at h2
        obtain ⟨x, hx, hxx⟩ := h2
        exact ⟨x, hx, by omega⟩

/-- `relieve` ends without an answer only where R156 says so. -/
theorem relieve_eq_none {sf : List Nat} (hne : sf ≠ []) (hx : ∀ x ∈ sf, 1 ≤ x ∧ x ≤ 65535)
    (h : relieve sf = none) :
    ∃ j, (∀ i ≤ j, overUtilised (sf.map (2 ^ i * ·)) = true) ∧ ∃ x ∈ sf, 65535 < 2 ^ (j + 1) * x :=
  doubleLoop_eq_none (b := 1) hne (fun x h => (hx x h).1) (fun x h => (hx x h).2) (by norm_num) h

/-! ### What the channel loop keeps (R166) -/

/-- The laws the factors created so far keep in a request of n channels: in range (P1), powers of two when
n > 1 (P2), not falling (P3), not over-utilised (P4). -/
structure FactorLaws (n : Nat) (sf : List Nat) : Prop where
  low : ∀ x ∈ sf, 2 ≤ x
  high : ∀ x ∈ sf, x ≤ 65535
  pow2 : 1 < n → ∀ x ∈ sf, ∃ k, x = 2 ^ k
  sorted : sf.Pairwise (· ≤ ·)
  fits : overUtilised sf = false

theorem fitFactor_eq_some {v w : Nat} (h : fitFactor v = some w) : w = v ∧ v ≤ 65535 := by
  unfold fitFactor at h
  split_ifs at h with hv
  exact ⟨(Option.some.inj h).symm, hv⟩

theorem isPow2_mul {j x : Nat} (h : ∃ k, x = 2 ^ k) : ∃ k, 2 ^ j * x = 2 ^ k := by
  obtain ⟨k, rfl⟩ := h
  exact ⟨j + k, (pow_add 2 j k).symm⟩

/-- Doubling all factors of a list keeps range below, powers of two and order. -/
theorem pairwise_map_mul {sf : List Nat} (j : Nat) (h : sf.Pairwise (· ≤ ·)) :
    (sf.map (2 ^ j * ·)).Pairwise (· ≤ ·) := by
  rw [List.pairwise_map]
  exact h.imp fun hab => Nat.mul_le_mul_left _ hab

/-- What the loop body for one channel does: it appends a factor and relieves the list. -/
theorem addFactor_spec {n : Nat} {sf out : List Nat} {v : Nat} (h : addFactor n sf v = some out) :
    ∃ u j, (u = v ∧ ¬ 1 < n ∨ u = roundPow2 v ∧ 1 < n) ∧ v ≤ 65535 ∧ u ≤ 65535 ∧
      overUtilised out = false ∧ out = (sf ++ [u]).map (2 ^ j * ·) ∧ (1 ≤ j → ∀ x ∈ out, x ≤ 65535) := by
  unfold addFactor at h
  cases hv : fitFactor v with
  | none => simp [hv] at h
  | some w =>
    obtain ⟨rfl, hle⟩ := fitFactor_eq_some hv
    simp only [hv] at h
    split_ifs at h with hn
    · cases hw : fitFactor (roundPow2 w) with
      | none => simp [hw] at h
      | some u =>
        simp only [hw] at h
        obtain ⟨rfl, hle'⟩ := fitFactor_eq_some hw
        obtain ⟨ho, j, hj, hr⟩ := relieve_spec h
        exact ⟨_, j, .inr ⟨rfl, hn⟩, hle, hle', ho, hj, hr⟩
    · obtain ⟨ho, j, hj, hr⟩ := relieve_spec h
      exact ⟨_, j, .inl ⟨rfl, hn⟩, hle, hle, ho, hj, hr⟩

/-- The loop body keeps the laws, if the new factor is at least 2 and not below its predecessors. -/
theorem addFactor_laws {n : Nat} {sf out : List Nat} {v : Nat} (h : addFactor n sf v = some out)
    (hs : FactorLaws n sf) (hv : 2 ≤ v) (hlast : ∀ x ∈ sf, x ≤ v) :
    FactorLaws n out ∧ out.length = sf.length + 1 := by
  obtain ⟨u, j, hu, _, hu2, ho, rfl, hr⟩ := addFactor_spec h
  have h2u : 2 ≤ u := by
    rcases hu with ⟨rfl, _⟩ | ⟨rfl, _⟩
    · exact hv
    · exact two_le_roundPow2 hv
  have hsu : ∀ x ∈ sf, x ≤ u := by
    intro x hx
    rcases hu with ⟨rfl, _⟩ | ⟨rfl, h1⟩
    · exact hlast x hx
    · exact le_roundPow2 (hs.pow2 h1 x hx) (hlast x hx)
  have hpos : 1 ≤ 2 ^ j := Nat.one_le_two_pow
  have hmem : ∀ x ∈ sf ++ [u], 2 ≤ x ∧ x ≤ 65535 := by
    intro x hx
    rcases List.mem_append.1 hx with hx | hx
    · exact ⟨hs.low x hx, hs.high x hx⟩
    · obtain rfl := List.mem_singleton.1 hx
      exact ⟨h2u, hu2⟩
  refine ⟨⟨?_, ?_, ?_, ?_, ho⟩, by simp⟩
  · intro y hy
    obtain ⟨x, hx, rfl⟩ := List.mem_map.1 hy
    calc 2 ≤ x := (hmem x hx).1
      _ = 1 * x := (one_mul x).symm
      _ ≤ 2 ^ j * x := Nat.mul_le_mul_right x hpos
  · rcases Nat.eq_zero_or_pos j with rfl | hj
    · intro y hy
      simp only [pow_zero, one_mul, List.map_id'] at hy
      exact (hmem y hy).2
    · exact hr hj
  · intro h1 y hy
    obtain ⟨x, hx, rfl⟩ := List.mem_map.1 hy
    refine isPow2_mul ?_
    rcases List.mem_append.1 hx with hx | hx
    · exact hs.pow2 h1 x hx
    · obtain rfl := List.mem_singleton.1 hx
      rcases hu with ⟨_, hc⟩ | ⟨rfl, _⟩
      · exact absurd h1 hc
      · obtain ⟨k, _, _, h⟩ := roundPow2_cases (by omega : 1 ≤ v)
        rcases h with h | h
        · exact ⟨k, h⟩
        · exact ⟨k + 1, h⟩
  · refine pairwise_map_mul j ?_
    rw [List.pairwise_append]
    exact ⟨hs.sorted, by simp, fun x hx y hy => by
      obtain rfl := List.mem_singleton.1 hy
      exact hsu x hx⟩

/-- Every element of a list that does not fall is at most its last one. -/
theorem le_getLastD {l : List Nat} (h : l.Pairwise (· ≤ ·)) {x : Nat} (hx : x ∈ l) : x ≤ l.getLastD 0 := by
  induction l generalizing x with
  | nil => simp at hx
  | cons y l ih =>
    cases l with
    | nil =>
      obtain rfl := List.mem_singleton.1 hx
      simp
    | cons z l =>
      have h' := List.pairwise_cons.1 h
      rcases List.mem_cons.1 hx with rfl | hx
      · have h1 : x ≤ z := h'.1 z List.mem_cons_self
        have h2 : z ≤ (z :: l).getLastD 0 := ih h'.2 List.mem_cons_self
        simpa [List.getLastD] using le_trans h1 h2
      · simpa [List.getLastD] using ih h'.2 hx

/-- The cascade keeps the laws (R153: the multiplier is at least 1). -/
theorem cascade_laws {n : Nat} {rates : List Nat} {prev : Nat} {sf out : List Nat}
    (h : cascade n sf prev rates = some out) (hs : FactorLaws n sf) (hne : sf ≠ []) (hp : 1 ≤ prev)
    (hr : ∀ r ∈ rates, 1 ≤ r) (hn : sf.length + rates.length = n) :
    FactorLaws n out ∧ out.length = n := by
  induction rates generalizing prev sf with
  | nil =>
    obtain rfl := Option.some.inj h
    exact ⟨hs, by simpa using hn⟩
  | cons r rs ih =>
    unfold cascade at h
    cases ha : addFactor n sf (sf.getLastD 0 * cdiv prev r) with
    | none => simp only [ha, reduceCtorEq] at h
    | some mid =>
      simp only [ha] at h
      have hr1 := hr r List.mem_cons_self
      have hc : 1 ≤ cdiv prev r := one_le_cdiv hp hr1
      obtain ⟨y, hy⟩ := List.exists_mem_of_ne_nil sf hne
      have hlast : ∀ x ∈ sf, x ≤ sf.getLastD 0 * cdiv prev r := fun x hx =>
        le_trans (le_getLastD hs.sorted hx) (Nat.le_mul_of_pos_right _ hc)
      have hlen : 1 ≤ sf.length := List.length_pos_iff.2 hne
      simp only [List.length_cons] at hn
      obtain ⟨hl, hll⟩ := addFactor_laws ha hs (le_trans (hs.low y hy) (hlast y hy)) hlast
      exact ih h hl (by intro h0; simp [h0] at hll) hr1 (fun x hx => hr x (List.mem_cons_of_mem _ hx))
        (by omega)

theorem overUtilised_nil : overUtilised [] = false := by decide

/-- Steps 1 to 4 keep the laws (R151 to R158), and give one factor per channel. -/
theorem slotFactors_laws {base : Nat} {rates sf : List Nat} (h : slotFactors base rates = some sf)
    (hr : ∀ r ∈ rates, 1 ≤ r) : FactorLaws rates.length sf ∧ sf.length = rates.length := by
  cases rates with
  | nil => simp [slotFactors] at h
  | cons r0 rs =>
    unfold slotFactors at h
    cases ha : addFactor (rs.length + 1) [] (max 2 (cdiv base r0)) with
    | none => simp [ha] at h
    | some mid =>
      simp only [ha] at h
      have h0 : FactorLaws (rs.length + 1) [] :=
        ⟨by simp, by simp, by simp, by simp, overUtilised_nil⟩
      obtain ⟨hl, hll⟩ := addFactor_laws ha h0 (le_max_left _ _) (by simp)
      exact cascade_laws h hl (by intro h1; simp [h1] at hll) (hr r0 List.mem_cons_self)
        (fun x hx => hr x (List.mem_cons_of_mem _ hx)) (by simp only [List.length_nil] at hll; simp only [List.length_cons]; omega)

/-- What `compute_schedule` answers is made of these pieces (R165). -/
theorem computeSchedule_eq_some {delay : Nat → Nat} {a : SchedArgs} {sch : Schedule}
    (h : computeSchedule delay a = some sch) :
    ∃ sf0, slotFactors a.base (a.chans.map (·.rate)) = some sf0 ∧ singleSample a.ns0 sf0 = some sch.sf ∧
      sch.on = onCyclesOf a.base (holdNs delay a.chans) ∧
      sch.total = staticTotal a.static a.base ((a.chans.map (·.rate)).headD 0)
        (totalCyclesOf a.base (holdNs delay a.chans)) := by
  unfold computeSchedule at h
  cases h1 : slotFactors a.base (a.chans.map (·.rate)) with
  | none => simp [h1] at h
  | some sf0 =>
    simp only [h1] at h
    cases h2 : singleSample a.ns0 sf0 with
    | none => simp [h2] at h
    | some sf =>
      simp only [h2] at h
      obtain rfl := Option.some.inj h
      exact ⟨sf0, rfl, h2, rfl, rfl⟩

end Sys2Proof.Machine
end

