-- ==== Sys2Proof/Laws/Service.lean ====
section
/-! SUPPORT. What the phases of SERVICE do, each said once: the swap and the error report as equations, the
frame of a delivery, and where and when a delivery stores (R230 to R234). -/

namespace Sys2Proof.Machine

/-! ### Phases E and A -/

theorem foldl_reportError (l : List Chan) (s : State) :
    l.foldl reportError s =
      { s with
        errStatus := l.foldl clearBit s.errStatus
        events := s.events ++ l.map fun c => { channel := c, kind := .transferError } } := by
  induction l generalizing s with
  | nil => simp
  | cons c l ih =>
    rw [List.foldl_cons, ih]
    simp [reportError, State.emit]

/-- The records phase A appends for channel c: clear, then re-arm the just-filled half (R230). -/
def swapRecords (s : State) (c : Chan) : List Hwop :=
  [.clearInterrupt c, .programBuffer c (s.chan c).half (halfAddr s c (s.chan c).half) (halfLen s c (s.chan c).half)]

/-- The banks after phase A: the listed channels have toggled their active half. -/
def toggledBanks (l : List Chan) (v : Vector Channel 16) : Vector Channel 16 :=
  mapBanks (fun c x => if c ∈ l then { x with half := x.half.other } else x) v

theorem swapHalf_eq (s : State) (c : Chan) :
    swapHalf s c =
      { s with
        irqStatus := clearBit s.irqStatus c
        ch := s.ch.set c.val { s.chan c with half := (s.chan c).half.other }
        hwops := s.hwops ++ swapRecords s c } := by
  simp [swapHalf, swapRecords, hwProgramBuffer, hwClearInterrupt, toggleHalf, State.log, State.setChan, State.chan]

theorem chan_swapHalf_other (s : State) {c d : Chan} (h : d ≠ c) : (swapHalf s c).chan d = s.chan d := by
  have h' : c.val ≠ d.val := fun e => h (Fin.ext e.symm)
  simp [swapHalf_eq, State.chan, h']

theorem foldl_swapHalf {l : List Chan} (hl : l.Nodup) (s : State) :
    l.foldl swapHalf s =
      { s with
        irqStatus := l.foldl clearBit s.irqStatus
        ch := toggledBanks l s.ch
        hwops := s.hwops ++ l.flatMap (swapRecords s) } := by
  induction l generalizing s with
  | nil =>
    have : toggledBanks [] s.ch = s.ch := banks_ext fun c => by simp [toggledBanks, getElem_mapBanks]
    simp [this]
  | cons c l ih =>
    obtain ⟨hc, hl⟩ := List.nodup_cons.1 hl
    rw [List.foldl_cons, ih hl]
    have hrec : l.flatMap (swapRecords (swapHalf s c)) = l.flatMap (swapRecords s) := by
      simp only [List.flatMap_def]
      congr 1
      refine List.map_congr_left fun d hd => ?_
      have hdc : d ≠ c := fun e => hc (e ▸ hd)
      simp only [swapRecords, halfAddr, halfLen, chan_swapHalf_other s hdc]
    have hch : toggledBanks l (swapHalf s c).ch = toggledBanks (c :: l) s.ch := by
      refine banks_ext fun d => ?_
      simp only [toggledBanks, getElem_mapBanks, List.mem_cons]
      by_cases hdc : d = c
      · subst hdc
        simp [hc, swapHalf_eq, State.chan]
      · have := chan_swapHalf_other s hdc
        simp only [State.chan] at this
        simp [hdc, this]
    rw [hrec, hch, swapHalf_eq]
    simp [List.append_assoc]

/-- The state after the entry read and the phases E and A of R230. -/
theorem serviceSwapped_eq (s : State) :
    serviceSwapped s =
      { s with
        irqStatus := (pendingFull s).foldl clearBit s.irqStatus
        errStatus := (pendingErr s).foldl clearBit s.errStatus
        ch := toggledBanks (pendingFull s) s.ch
        events := s.events ++ (pendingErr s).map fun c => { channel := c, kind := .transferError }
        hwops := s.hwops ++ .readInterruptStatus s.irqStatus :: (pendingFull s).flatMap (swapRecords s) } := by
  unfold serviceSwapped
  rw [foldl_reportError, foldl_swapHalf (nodup_pendingFull s)]
  simp [hwReadInterruptStatus, State.log]
  rfl

theorem chan_serviceSwapped (s : State) (c : Chan) :
    (serviceSwapped s).chan c =
      if c ∈ pendingFull s then { s.chan c with half := (s.chan c).half.other } else s.chan c := by
  rw [serviceSwapped_eq]
  exact getElem_mapBanks _ _ _

theorem halfAddr_serviceSwapped (s : State) (c : Chan) (h : Half) :
    halfAddr (serviceSwapped s) c h = halfAddr s c h := by
  unfold halfAddr
  rw [chan_serviceSwapped]
  split_ifs <;> rfl

theorem halfLen_serviceSwapped (s : State) (c : Chan) (h : Half) :
    halfLen (serviceSwapped s) c h = halfLen s c h := by
  unfold halfLen
  rw [chan_serviceSwapped]
  split_ifs <;> rfl

/-! ### The frame of a delivery -/

/-- t differs from s in MEM, the fill counters, DEMUX_ERR and the events appended, and in nothing else. -/
structure Delivered (s t : State) : Prop where
  frame : t = { s with mem := t.mem, ch := t.ch, demuxErr := t.demuxErr, events := t.events }
  bank : ∀ c, t.chan c = { s.chan c with count := (t.chan c).count }
  events : ∃ es, t.events = s.events ++ es ∧ ∀ e ∈ es, e.kind ≠ .transferError
  demux : s.demuxErr = true → t.demuxErr = true

theorem Delivered.refl (s : State) : Delivered s s :=
  ⟨rfl, fun _ => rfl, ⟨[], by simp, by simp⟩, id⟩

theorem Delivered.trans {s t u : State} (h : Delivered s t) (h' : Delivered t u) : Delivered s u := by
  refine ⟨?_, fun c => ?_, ?_, fun hs => h'.demux (h.demux hs)⟩
  · rw [h'.frame, h.frame]
  · rw [h'.bank c, h.bank c]
  · obtain ⟨es, h1, h2⟩ := h.events
    obtain ⟨fs, h3, h4⟩ := h'.events
    refine ⟨es ++ fs, by rw [h3, h1, List.append_assoc], fun e he => ?_⟩
    rcases List.mem_append.1 he with he | he
    · exact h2 e he
    · exact h4 e he

theorem Delivered.actMode {s t : State} (h : Delivered s t) : t.actMode = s.actMode := by
  rw [h.frame]

theorem Delivered.activeN {s t : State} (h : Delivered s t) : t.activeN = s.activeN := by
  rw [State.activeN, h.actMode, State.activeN]

theorem Delivered.applyCal {s t : State} (h : Delivered s t) (w : Word16) (d : Bool) :
    applyCal t w d = applyCal s w d := by
  rw [h.frame]; rfl

theorem Delivered.aRxAddr {s t : State} (h : Delivered s t) (c : Chan) :
    (t.chan c).aRxAddr = (s.chan c).aRxAddr := by rw [h.bank c]

theorem Delivered.aNs {s t : State} (h : Delivered s t) (c : Chan) : (t.chan c).aNs = (s.chan c).aNs := by
  rw [h.bank c]

theorem Delivered.halfAddr {s t : State} (h : Delivered s t) (c : Chan) (x : Half) :
    halfAddr t c x = halfAddr s c x := by
  unfold Machine.halfAddr; rw [h.bank c]

theorem Delivered.halfLen {s t : State} (h : Delivered s t) (c : Chan) (x : Half) :
    halfLen t c x = halfLen s c x := by
  unfold Machine.halfLen; rw [h.bank c]

/-- What one routed sample does (R232): it is dropped when the receive buffer is full; else it is stored at
the fill counter, and the counter moves. -/
theorem route_cases {t : Chan} {w : Word16} {d d' : Drain} (h : route t w d = .ok d') :
    ((d.s.chan t).count = (d.s.chan t).aNs ∧
      d' = { d with tally := d.tally.set t.val { d.tally[t.val] with dropped := true } }) ∨
    ((d.s.chan t).count ≠ (d.s.chan t).aNs ∧ storeAddr (d.s.chan t) + 1 < 2 ^ 32 ∧
      d' = { s := { d.s with mem := d.s.mem.write16 (storeAddr (d.s.chan t)) (applyCal d.s w (d.s.chan t).aDiff) }.setChan t
                    { d.s.chan t with count := nextCount d.s.actMode.ard (d.s.chan t) }
             tally := d.tally.set t.val (tallyStored (d.s.chan t) d.tally[t.val]) }) := by
  unfold route at h
  split_ifs at h with hc
  · exact .inl ⟨hc, by simpa using h.symm⟩
  · right
    cases hs : d.s.store16 (storeAddr (d.s.chan t)) (applyCal d.s w (d.s.chan t).aDiff) with
    | error f => simp [hs] at h
    | ok s' =>
      obtain ⟨h1, rfl⟩ := State.store16_eq_ok hs
      simp only [hs, Except.ok.injEq] at h
      exact ⟨hc, h1, h.symm⟩

theorem Delivered.route {t : Chan} {w : Word16} {d d' : Drain} (h : route t w d = .ok d') :
    Delivered d.s d'.s := by
  rcases route_cases h with ⟨_, rfl⟩ | ⟨_, _, rfl⟩
  · exact .refl _
  · refine ⟨rfl, fun c => ?_, ⟨[], by simp, by simp⟩, id⟩
    rw [chan_setChan]
    split_ifs with hc
    · subst hc; rfl
    · rfl

/-- What one delivered sample does (R231, R233). -/
theorem deliver_cases {c : Chan} {w : Word16} {d d' : Drain} (h : deliver c w d = .ok d') :
    (d.s.actMode.shared = false ∧ route c w d = .ok d') ∨
    (d.s.actMode.shared = true ∧ (sampleChan w).val < d.s.activeN ∧ route (sampleChan w) w d = .ok d') ∨
    (d.s.actMode.shared = true ∧ ¬ (sampleChan w).val < d.s.activeN ∧
      d' = { d with s := { d.s with demuxErr := true } }) := by
  unfold deliver demux at h
  split_ifs at h with h1 h2
  · exact .inr (.inl ⟨h1, h2, h⟩)
  · exact .inr (.inr ⟨h1, h2, by simpa using h.symm⟩)
  · exact .inl ⟨by simpa using h1, h⟩

theorem Delivered.deliver {c : Chan} {w : Word16} {d d' : Drain} (h : deliver c w d = .ok d') :
    Delivered d.s d'.s := by
  rcases deliver_cases h with ⟨_, h⟩ | ⟨_, _, h⟩ | ⟨_, _, rfl⟩
  · exact .route h
  · exact .route h
  · exact ⟨rfl, fun _ => rfl, ⟨[], by simp, by simp⟩, fun _ => rfl⟩

/-- One round of a drain. -/
theorem drainFrom_succ {c : Chan} {a left k : Nat} {d d' : Drain} (h : drainFrom c a (left + 1) k d = .ok d') :
    ∃ e, a + 2 * k + 1 < 2 ^ 32 ∧ deliver c (d.s.mem.read16 (a + 2 * k)) d = .ok e ∧
      drainFrom c a left (k + 1) e = .ok d' := by
  unfold drainFrom at h
  cases hl : d.s.load16 (a + 2 * k) with
  | error f => simp [hl] at h
  | ok w =>
    obtain ⟨h1, rfl⟩ := State.load16_eq_ok hl
    simp only [hl] at h
    cases hd : deliver c (d.s.mem.read16 (a + 2 * k)) d with
    | error f => simp [hd] at h
    | ok e =>
      simp only [hd] at h
      exact ⟨e, h1, rfl, h⟩

/-- A reflexive and transitive relation that every delivered sample keeps holds across a drain. -/
theorem drainFrom_induction {P : Drain → Drain → Prop} (hr : ∀ d, P d d)
    (ht : ∀ {d e f}, P d e → P e f → P d f) (hs : ∀ {c w d e}, deliver c w d = .ok e → P d e)
    {c : Chan} {a left k : Nat} {d d' : Drain} (h : drainFrom c a left k d = .ok d') : P d d' := by
  induction left generalizing k d with
  | zero =>
    simp only [drainFrom, Except.ok.injEq] at h
    exact h ▸ hr d
  | succ n ih =>
    obtain ⟨e, _, h1, h2⟩ := drainFrom_succ h
    exact ht (hs h1) (ih h2)

theorem tallyEvents_kind {t : Chan} {x : Tally} {e : Event} (h : e ∈ tallyEvents t x) :
    e.channel = t ∧ e.kind ≠ .transferError := by
  unfold tallyEvents at h
  simp only [List.mem_append] at h
  rcases h with (h | h) | h
  · split_ifs at h <;> simp_all
  · obtain rfl := List.eq_of_mem_replicate h
    simp
  · split_ifs at h <;> simp_all

theorem drain_cases {c : Chan} {h : Half} {s t : State} (hd : drain c h s = .ok t) :
    ∃ d, drainFrom c (halfAddr s c h).toNat (halfLen s c h).toNat 0 (startDrain s) = .ok d ∧
      t = d.s.emitAll (drainEvents d) := by
  unfold drain at hd
  cases hf : drainFrom c (halfAddr s c h).toNat (halfLen s c h).toNat 0 (startDrain s) with
  | error f => simp [hf] at hd
  | ok d => exact ⟨d, rfl, by simpa [hf] using hd.symm⟩

theorem Delivered.emitAll (s : State) (d : Drain) : Delivered s (s.emitAll (drainEvents d)) := by
  refine ⟨rfl, fun _ => rfl, ⟨drainEvents d, rfl, fun e he => ?_⟩, id⟩
  obtain ⟨t, _, h⟩ := List.mem_flatMap.1 he
  exact (tallyEvents_kind h).2

theorem Delivered.drain {c : Chan} {h : Half} {s t : State} (hd : drain c h s = .ok t) : Delivered s t := by
  obtain ⟨d, h1, rfl⟩ := drain_cases hd
  have : Delivered (startDrain s).s d.s :=
    drainFrom_induction (P := fun d e => Delivered d.s e.s) (fun _ => .refl _) .trans .deliver h1
  exact this.trans (.emitAll _ d)

theorem deliverAll_cons {c : Chan} {h : Half} {rest : List (Chan × Half)} {s t : State}
    (hd : deliverAll ((c, h) :: rest) s = .ok t) : ∃ u, drain c h s = .ok u ∧ deliverAll rest u = .ok t := by
  unfold deliverAll at hd
  cases hu : drain c h s with
  | error f => simp [hu] at hd
  | ok u => exact ⟨u, rfl, by simpa [hu] using hd⟩

theorem Delivered.deliverAll {l : List (Chan × Half)} {s t : State} (hd : deliverAll l s = .ok t) :
    Delivered s t := by
  induction l generalizing s with
  | nil =>
    simp only [Machine.deliverAll, Except.ok.injEq] at hd
    exact hd ▸ .refl s
  | cons x l ih =>
    obtain ⟨u, h1, h2⟩ := deliverAll_cons hd
    exact (Delivered.drain h1).trans (ih h2)

/-- What `svc` answers with a next state is: SERVICE was enabled, the phases E and A, then a delivery. -/
theorem execSvc_next {s t : State} (h : execSvc s = .next t) :
    s.st = .running ∧ irqLine s = true ∧ deliverAll (justFilled s) (serviceSwapped s) = .ok t := by
  unfold execSvc at h
  split_ifs at h with he
  · simp only [serviceEnabled, Bool.and_eq_true, decide_eq_true_eq] at he
    refine ⟨he.1, he.2, ?_⟩
    unfold service at h
    cases hd : Machine.deliverAll (justFilled s) (serviceSwapped s) with
    | error f => simp [hd, outcomeOf] at h
    | ok u => simpa [hd, outcomeOf] using h

/-! ### Where a delivery stores, and that it completes -/

/-- No fill counter has passed its threshold (R51 (I5)). -/
def CountsOk (s : State) : Prop := ∀ c, (s.chan c).count.toNat ≤ (s.chan c).aNs.toNat

/-- The counter after a store that the threshold allows (R232): no 16-bit wrap. -/
theorem toNat_nextCount {ard : Bool} {c : Channel} (h : c.count.toNat < c.aNs.toNat) :
    (nextCount ard c).toNat =
      if c.count.toNat + 1 = c.aNs.toNat ∧ ard = false then 0 else c.count.toNat + 1 := by
  have h2 := c.aNs.isLt
  have h1 : (c.count + 1).toNat = c.count.toNat + 1 := by
    rw [BitVec.toNat_add]; exact Nat.mod_eq_of_lt (by simp; omega)
  have h3 : c.count + 1 = c.aNs ↔ c.count.toNat + 1 = c.aNs.toNat := by
    rw [← BitVec.toNat_inj, h1]
  unfold nextCount
  simp only [h3]
  split_ifs with hc
  · rfl
  · exact h1

theorem count_lt_of_ne {c : Channel} (h : c.count ≠ c.aNs) (hle : c.count.toNat ≤ c.aNs.toNat) :
    c.count.toNat < c.aNs.toNat :=
  lt_of_le_of_ne hle fun e => h (BitVec.toNat_inj.1 e)

/-- A routed sample completes when its receive buffer lies in MEM, keeps the counters in range, and stores
inside the receive buffer only (R232). -/
theorem route_ok {t : Chan} (w : Word16) {d : Drain} (hc : CountsOk d.s)
    (hm : (d.s.chan t).aRxAddr.toNat + 2 * (d.s.chan t).aNs.toNat ≤ 2 ^ 32) :
    ∃ d', route t w d = .ok d' ∧ CountsOk d'.s ∧
      ∀ a, ¬ InReceiveBuffer d.s t a → Memory.read d'.s.mem a = Memory.read d.s.mem a := by
  unfold route
  split_ifs with he
  · exact ⟨_, rfl, hc, fun _ _ => rfl⟩
  · have hlt := count_lt_of_ne he (hc t)
    have hst : storeAddr (d.s.chan t) + 1 < 2 ^ 32 := by unfold storeAddr; omega
    rw [State.store16_of_lt _ _ hst]
    refine ⟨_, rfl, fun c => ?_, fun a ha => ?_⟩
    · rw [chan_setChan]
      split_ifs with hct
      · subst hct
        rw [toNat_nextCount hlt]
        dsimp only
        split_ifs <;> omega
      · exact hc c
    · refine Memory.read_write16_other _ _ ?_ ?_
      · rintro rfl
        exact ha ⟨by simp [storeAddr], by unfold storeAddr; omega⟩
      · rintro rfl
        exact ha ⟨by simp [storeAddr]; omega, by unfold storeAddr; omega⟩

/-- A delivered sample completes, keeps the counters in range, and stores in receive buffers only: channel
c's, or an enabled channel's. -/
theorem deliver_ok {c : Chan} (w : Word16) {d : Drain} (hc : CountsOk d.s)
    (hm : ∀ t, (t = c ∨ Enabled d.s t) → (d.s.chan t).aRxAddr.toNat + 2 * (d.s.chan t).aNs.toNat ≤ 2 ^ 32) :
    ∃ d', deliver c w d = .ok d' ∧ CountsOk d'.s ∧
      ∀ a, (∀ t, (t = c ∨ Enabled d.s t) → ¬ InReceiveBuffer d.s t a) →
        Memory.read d'.s.mem a = Memory.read d.s.mem a := by
  unfold deliver demux
  split_ifs with h1 h2
  · obtain ⟨d', h3, h4, h5⟩ := route_ok w hc (hm _ (.inr h2))
    exact ⟨d', h3, h4, fun a ha => h5 a (ha _ (.inr h2))⟩
  · exact ⟨_, rfl, hc, fun _ _ => rfl⟩
  · obtain ⟨d', h3, h4, h5⟩ := route_ok w hc (hm c (.inl rfl))
    exact ⟨d', h3, h4, fun a ha => h5 a (ha c (.inl rfl))⟩

theorem Delivered.inReceiveBuffer {s t : State} (h : Delivered s t) (c : Chan) (a : Nat) :
    InReceiveBuffer t c a ↔ InReceiveBuffer s c a := by
  unfold InReceiveBuffer; rw [h.aRxAddr, h.aNs]

theorem Delivered.enabled {s t : State} (h : Delivered s t) (c : Chan) : Enabled t c ↔ Enabled s c := by
  unfold Enabled; rw [h.activeN]

/-- The receive buffers a delivery for channel c can reach lie in MEM. -/
def ReachableOk (s : State) (c : Chan) : Prop :=
  ∀ t, (t = c ∨ Enabled s t) → (s.chan t).aRxAddr.toNat + 2 * (s.chan t).aNs.toNat ≤ 2 ^ 32

theorem ReachableOk.delivered {s t : State} {c : Chan} (h : ReachableOk s c) (hd : Delivered s t) :
    ReachableOk t c := by
  intro u hu
  rw [hd.aRxAddr, hd.aNs]
  exact h u (hu.imp_right (hd.enabled u).1)

/-- The samples of a half that lies in MEM are all delivered. -/
theorem drainFrom_ok {c : Chan} {a left k : Nat} {d : Drain} (hc : CountsOk d.s) (hm : ReachableOk d.s c)
    (ha : a + 2 * (k + left) ≤ 2 ^ 32) :
    ∃ d', drainFrom c a left k d = .ok d' ∧ CountsOk d'.s ∧
      ∀ x, (∀ t, (t = c ∨ Enabled d.s t) → ¬ InReceiveBuffer d.s t x) →
        Memory.read d'.s.mem x = Memory.read d.s.mem x := by
  induction left generalizing k d with
  | zero => exact ⟨d, rfl, hc, fun _ _ => rfl⟩
  | succ n ih =>
    obtain ⟨e, h1, h2, h3⟩ := deliver_ok (c := c) (d.s.mem.read16 (a + 2 * k)) hc hm
    have hde := Delivered.deliver h1
    obtain ⟨d', h4, h5, h6⟩ := ih (k := k + 1) h2 (hm.delivered hde) (by omega)
    refine ⟨d', ?_, h5, fun x hx => ?_⟩
    · unfold drainFrom
      rw [State.load16_of_lt _ (by omega)]
      simp only [h1, h4]
    · rw [h6 x fun t ht => ?_, h3 x hx]
      rw [hde.inReceiveBuffer]
      exact hx t (ht.imp_right (hde.enabled t).1)

/-- A half that lies in MEM drains, storing in receive buffers only. -/
theorem drain_ok {c : Chan} {h : Half} {s : State} (hc : CountsOk s) (hm : ReachableOk s c)
    (ha : (halfAddr s c h).toNat + 2 * (halfLen s c h).toNat ≤ 2 ^ 32) :
    ∃ t, drain c h s = .ok t ∧ CountsOk t ∧
      ∀ x, (∀ t, (t = c ∨ Enabled s t) → ¬ InReceiveBuffer s t x) →
        Memory.read t.mem x = Memory.read s.mem x := by
  obtain ⟨d, h1, h2, h3⟩ := drainFrom_ok (d := startDrain s) (left := (halfLen s c h).toNat) (k := 0) hc hm
    (by simpa using ha)
  refine ⟨d.s.emitAll (drainEvents d), ?_, h2, h3⟩
  unfold drain
  rw [h1]

/-- Every listed half is delivered when it, and the receive buffers in reach, lie in MEM. -/
theorem deliverAll_ok {l : List (Chan × Half)} {s : State} (hc : CountsOk s)
    (hm : ∀ x ∈ l, ReachableOk s x.1)
    (ha : ∀ x ∈ l, (halfAddr s x.1 x.2).toNat + 2 * (halfLen s x.1 x.2).toNat ≤ 2 ^ 32) :
    ∃ t, deliverAll l s = .ok t ∧ CountsOk t ∧
      ∀ a, (∀ t, ((∃ x ∈ l, t = x.1) ∨ Enabled s t) → ¬ InReceiveBuffer s t a) →
        Memory.read t.mem a = Memory.read s.mem a := by
  induction l generalizing s with
  | nil => exact ⟨s, rfl, hc, fun _ _ => rfl⟩
  | cons x l ih =>
    obtain ⟨c, h⟩ := x
    obtain ⟨u, h1, h2, h3⟩ := drain_ok hc (hm (c, h) List.mem_cons_self) (ha (c, h) List.mem_cons_self)
    have hd := Delivered.drain h1
    obtain ⟨t, h4, h5, h6⟩ := ih h2 (fun x hx => (hm x (List.mem_cons_of_mem _ hx)).delivered hd)
      (fun x hx => by rw [hd.halfAddr, hd.halfLen]; exact ha x (List.mem_cons_of_mem _ hx))
    refine ⟨t, by unfold deliverAll; rw [h1]; exact h4, h5, fun a hx => ?_⟩
    rw [h6 a fun t ht => ?_, h3 a fun t ht => ?_]
    · refine hx t (ht.imp_left ?_)
      rintro rfl
      exact ⟨(t, h), List.mem_cons_self, rfl⟩
    · rw [hd.inReceiveBuffer]
      refine hx t (ht.imp ?_ (hd.enabled t).1)
      rintro ⟨x, hx, rfl⟩
      exact ⟨x, List.mem_cons_of_mem _ hx, rfl⟩

end Sys2Proof.Machine
end

