-- ==== Sys2Proof/Laws/Step.lean ====
section
/-! SUPPORT. What a step can do, said once: a step is the execution of the decoded record, a write is a command
or a staging update, and every other execution that answers is one of a few updates. -/

namespace Sys2Proof.Machine

/-- A step that answers executed the instruction its record decodes to, past the record. -/
theorem step_next {s t : State} (h : step s = .next t) :
    ∃ slot rest i, s.input = slot :: rest ∧ decode slot = .ok i ∧ exec i { s with input := rest } = .next t := by
  unfold step fetch at h
  cases hin : s.input with
  | nil => simp [hin] at h
  | cons slot rest =>
    cases hd : decode slot with
    | error e => simp [hin, hd] at h
    | ok i =>
      refine ⟨slot, rest, i, rfl, hd, ?_⟩
      simpa [hin, hd, State.advance] using h

/-- A write is the command its word is the opcode of, at CMD, and a staging update elsewhere (R260). -/
theorem exec_wr_next {o : Word16} {v : Word} {s t : State} (h : exec (.wr o v) s = .next t) :
    (o = 0 ∧ exec (decodeCmd v) s = .next t) ∨ (o ≠ 0 ∧ t = writeOffset s o.toNat v) := by
  simp only [exec, execWr] at h
  split_ifs at h with ho
  · rw [runCommand_eq_exec] at h; exact .inl ⟨ho, h⟩
  · exact .inr ⟨ho, by simpa using h.symm⟩

/-- A write to a register changes staging registers only (R49, R260). -/
theorem writeOffset_frame (s : State) (o : Nat) (v : Word) :
    ∃ ch b m, writeOffset s o v = { s with ch := ch, baseClk := b, mode := m } ∧
      ∀ c, ((writeOffset s o v).chan c).eraseStaging = (s.chan c).eraseStaging := by
  unfold writeOffset
  split
  · rename_i r hr
    cases r with
    | glob g => cases g <;> exact ⟨_, _, _, rfl, fun _ => rfl⟩
    | bank i r =>
      refine ⟨_, _, _, rfl, fun c => ?_⟩
      simp only [writeReg, chan_setChan]
      split_ifs with h
      · subst h; cases r <;> rfl
      · rfl
  · exact ⟨_, _, _, rfl, fun _ => rfl⟩

theorem decodeCmd_cases (v : Word) :
    decodeCmd v = .nop ∨ decodeCmd v = .calLoad ∨ decodeCmd v = .configure ∨ decodeCmd v = .start ∨
    decodeCmd v = .stop ∨ decodeCmd v = .deinit ∨ decodeCmd v = .reservedCmd v := by
  unfold decodeCmd; split <;> simp

theorem decodeCmd_ne_wr (v : Word) (o : Word16) (w : Word) : decodeCmd v ≠ .wr o w := by
  unfold decodeCmd; split <;> simp

theorem commandOf_cmd (v : Word) : commandOf (.wr 0 v) = decodeCmd v := by simp [commandOf]

theorem commandOf_wr {o : Word16} (v : Word) (h : o ≠ 0) : commandOf (.wr o v) = .wr o v := by
  simp only [commandOf, if_neg h]

theorem commandOf_of_ne_wr {i : Instr} (h : ∀ o v, i ≠ .wr o v) : commandOf i = i := by
  cases i <;> simp_all [commandOf]

/-- A step does what its command does (R24). -/
theorem exec_commandOf (i : Instr) (s : State) : exec (commandOf i) s = exec i s := by
  by_cases hi : ∃ o v, i = .wr o v
  · obtain ⟨o, v, rfl⟩ := hi
    by_cases ho : o = 0
    · subst ho
      rw [commandOf_cmd, ← runCommand_eq_exec]
      simp [exec, execWr]
    · rw [commandOf_wr v ho]
  · push Not at hi
    rw [commandOf_of_ne_wr hi]

/-- A store that completes. -/
theorem store16_next {s t : State} {a : Nat} {v : Word16} (h : outcomeOf (s.store16 a v) = .next t) :
    a + 1 < 2 ^ 32 ∧ t = { s with mem := s.mem.write16 a v } := by
  cases hs : s.store16 a v with
  | error f => simp [hs, outcomeOf] at h
  | ok u =>
    simp only [hs, outcomeOf, Host.Outcome.next.injEq] at h
    subst h
    exact State.store16_eq_ok hs

theorem execEng_next {c : Chan} {h : Half} {k w : Word16} {s t : State} (he : execEng c h k w s = .next t) :
    engEnabled s c h k = true ∧ engAddr s c h k + 1 < 2 ^ 32 ∧
      t = { s with mem := s.mem.write16 (engAddr s c h k) w } := by
  unfold execEng at he
  split_ifs at he with hc
  · exact ⟨hc, store16_next he⟩

/-- What a START can do (R216). -/
theorem startPipeline_cases (s : State) :
    (s.st ≠ .configured ∧ startPipeline s = { s with result := { code := .invalidState, info := 0xFF } }) ∨
    (s.st = .configured ∧ s.calValid = false ∧
      startPipeline s = { s with result := { code := .calibrationNotLoaded, info := 0xFF } }) ∨
    (s.st = .configured ∧ s.calValid = true ∧
      startPipeline s =
        { s with
          st := .running
          clkEn := true
          irqMask := (chansBelow s.activeN).foldl clearBit s.irqMask
          hwops := s.hwops ++ (.setClockEnable true :: (chansBelow s.activeN).map .unmaskInterrupt)
          result := { code := .ok, info := 0xFF } }) := by
  by_cases h : s.st = .configured
  · by_cases hv : s.calValid = true
    · exact .inr (.inr ⟨h, hv, startPipeline_eq h hv⟩)
    · exact .inr (.inl ⟨h, by simpa using hv, by unfold startPipeline; rw [if_neg (by simpa using h), if_neg hv]; rfl⟩)
  · exact .inl ⟨h, by unfold startPipeline; rw [if_pos h]; rfl⟩

/-- What a STOP can do (R217). -/
theorem stopPipeline_cases (s : State) :
    (s.st = .idle ∧ stopPipeline s = { s with result := { code := .invalidState, info := 0xFF } }) ∨
    (s.st ≠ .idle ∧
      stopPipeline s =
        { s with
          st := .idle
          clkEn := false
          irqMask := 0xFFFF
          irqStatus := 0
          errStatus := 0
          ch := mapBanks (fun _ c => { c with count := 0 }) s.ch
          hwops := s.hwops ++ ((chansBelow s.activeN).map .maskInterrupt ++ [.setClockEnable false])
          result := { code := .ok, info := 0xFF } }) := by
  by_cases h : s.st = .idle
  · exact .inl ⟨h, by unfold stopPipeline; rw [if_pos h]; rfl⟩
  · exact .inr ⟨h, stopPipeline_eq h⟩

/-- A law of single executions holds of every execution once it holds of staging writes and of every instruction
but a write: a write to CMD is one of those. -/
theorem exec_cases {P : Instr → Prop} {s t : State}
    (hwr : ∀ o v, o ≠ 0 → t = writeOffset s o.toNat v → P (.wr o v))
    (hcmd : ∀ v, P (decodeCmd v) → P (.wr 0 v))
    (hoth : ∀ i, (∀ o v, i ≠ .wr o v) → exec i s = .next t → P i) (i : Instr) (h : exec i s = .next t) : P i := by
  by_cases hi : ∃ o v, i = .wr o v
  · obtain ⟨o, v, rfl⟩ := hi
    rcases exec_wr_next h with ⟨rfl, h'⟩ | ⟨ho, h'⟩
    · exact hcmd v (hoth _ (decodeCmd_ne_wr v) h')
    · exact hwr o v ho h'
  · push Not at hi
    exact hoth i hi h

end Sys2Proof.Machine
end

