-- ==== Sys2Proof/Laws/Validate.lean ====
section
/-! SUPPORT. The checks of CONFIGURE, said once: checks 1 to 8 of R212 pass exactly on a valid request. -/

namespace Sys2Proof.Machine

@[simp] theorem failing_eq_none {b : Bool} {e : ErrCode} : failing b e = none ↔ b = false := by
  cases b <;> simp [failing]

@[simp] theorem failingOn_eq_none {i : Chan} {b : Bool} {e : ErrCode} : failingOn i b e = none ↔ b = false := by
  cases b <;> simp [failingOn]

@[simp] theorem firstFailure_eq_none {l : List (Option Result)} :
    firstFailure l = none ↔ ∀ x ∈ l, x = none := by
  simp [firstFailure, List.findSome?_eq_none_iff]

/-- A check over the channels passes when it passes on every requested channel. -/
theorem checkChans_eq_none {s : State} {f : Chan → Option Result} :
    checkChans s f = none ↔ ∀ i, Requested s i → f i = none := by
  simp [checkChans, List.findSome?_eq_none_iff, Requested]

theorem requestedBuffer_iff {s : State} {i : Chan} (h : Requested s i) :
    RequestedBuffer s i ↔ isRequestBuffer s i = true := by
  simp [RequestedBuffer, isRequestBuffer, h]

/-- Check 5 on one channel. -/
theorem checkRate_eq_none {s : State} {i : Chan} : checkRate s i = none ↔ RateGood s i := by
  simp only [checkRate, firstFailure_eq_none, List.mem_cons, List.not_mem_nil, or_false, forall_eq_or_imp,
    forall_eq, failingOn_eq_none, decide_eq_false_iff_not, Bool.and_eq_false_iff, RateGood]
  refine ⟨fun ⟨h1, h2, h3⟩ => ⟨by omega, by omega, fun j hj => ?_⟩, fun ⟨h1, h2, h3⟩ => ⟨by omega, by omega, ?_⟩⟩
  · have hp : prevChan i = j := Fin.ext (by simp [prevChan]; omega)
    rw [hp] at h3
    omega
  · by_cases h0 : 0 < i.val
    · have := h3 (prevChan i) (by simp [prevChan]; omega)
      omega
    · exact .inl h0

/-- Check 6 on one channel. -/
theorem checkSamples_eq_none {s : State} {i : Chan} : checkSamples s i = none ↔ SamplesGood s i := by
  simp only [checkSamples, firstFailure_eq_none, List.mem_cons, List.not_mem_nil, or_false, forall_eq_or_imp,
    forall_eq, failingOn_eq_none, decide_eq_false_iff_not, Bool.and_eq_false_iff, Bool.or_eq_false_iff, SamplesGood]
  cases s.mode.static <;> simp <;> omega

/-- Check 7 on one requested channel. -/
theorem checkCollision_eq_none {s : State} {i : Chan} (h : Requested s i) :
    checkCollision s i = none ↔ HalvesDistinct s i := by
  simp only [checkCollision, failingOn_eq_none, Bool.and_eq_false_iff, decide_eq_false_iff_not, HalvesDistinct,
    requestedBuffer_iff h]
  cases isRequestBuffer s i <;> simp

theorem bufOk_iff {p : Params} {addr len : Nat} : bufOk p addr len = true ↔ BufferAddressable p addr len := by
  simp [bufOk, BufferAddressable, and_assoc]

theorem rxOk_iff {p : Params} {addr ns : Nat} : rxOk p addr ns = true ↔ ReceiveAddressable p addr ns := by
  simp [rxOk, ReceiveAddressable, and_assoc]

/-- Check 8 on one requested channel. -/
theorem checkBuffers_eq_none {p : Params} {s : State} {i : Chan} (h : Requested s i) :
    checkBuffers p s i = none ↔ AddressesGood p s i := by
  simp only [checkBuffers, firstFailure_eq_none, List.mem_cons, List.not_mem_nil, or_false, forall_eq_or_imp,
    forall_eq, failingOn_eq_none, Bool.and_eq_false_iff, Bool.not_eq_false', Bool.and_eq_true, bufOk_iff, rxOk_iff,
    AddressesGood, requestedBuffer_iff h]
  cases isRequestBuffer s i <;> simp

/-- Checks 2 and 3. -/
theorem counts_eq_none {s : State} :
    (decide (s.mode.n.toNat < 1) || decide (16 < s.mode.n.toNat)) = false ∧
      (s.mode.static && decide (s.mode.n.toNat ≠ 1)) = false ↔ CountGood s := by
  simp only [Bool.or_eq_false_iff, Bool.and_eq_false_iff, decide_eq_false_iff_not, CountGood]
  cases s.mode.static <;> simp <;> omega

/-- Checks 1 to 8 of R212 pass exactly on a valid request. -/
theorem validate_eq_none {p : Params} {s : State} : validate p s = none ↔ RequestValid p s := by
  simp only [validate, firstFailure_eq_none, List.mem_cons, List.not_mem_nil, or_false, forall_eq_or_imp,
    forall_eq, failing_eq_none, checkChans_eq_none, checkRate_eq_none, checkSamples_eq_none]
  have hclk : s.baseClk.toNat = 0 ↔ s.baseClk = 0 := by rw [← BitVec.toNat_inj]; rfl
  constructor
  · rintro ⟨h1, h2, h3, h4, h5, h6, h7, h8⟩
    refine ⟨by simpa using h1, counts_eq_none.1 ⟨h2, h3⟩, ?_, h5, h6, fun i hi => ?_, fun i hi => ?_⟩
    · simpa [hclk] using h4
    · exact (checkCollision_eq_none hi).1 (h7 i hi)
    · exact (checkBuffers_eq_none hi).1 (h8 i hi)
  · rintro ⟨h1, h2, h4, h5, h6, h7, h8⟩
    obtain ⟨h2, h3⟩ := counts_eq_none.2 h2
    refine ⟨by simpa using h1, h2, h3, ?_, h5, h6, fun i hi => ?_, fun i hi => ?_⟩
    · simpa [hclk] using h4
    · exact (checkCollision_eq_none hi).2 (h7 i hi)
    · exact (checkBuffers_eq_none hi).2 (h8 i hi)

end Sys2Proof.Machine
end

