-- ==== Sys2Proof/Tests/Slice0.lean ====
section
/-! SUPPORT. Tests: ill-formed terms, records written out from spec/30_encoding.md, small steps with results
taken from spec/95_test_vectors.md, and for every statement with hypotheses a state that meets them. -/

namespace Sys2Proof.Tests

open Sys2Proof.Machine

/-! ### Ill-formed terms are refused by well-formedness -/

/-- A legal call of `compute_schedule` (95, 2.2 row 3). -/
def args3 : SchedArgs := ⟨90000000, [⟨32000, 0, false⟩, ⟨9000, 0, false⟩], 4, false⟩

theorem test_wf_reserved_opcode_below_6 : (Instr.reservedCmd 5).wellFormed = false := by decide
theorem test_wf_reserved_opcode_6 : (Instr.reservedCmd 6).wellFormed = true := by decide
theorem test_wf_schedule_legal : (Instr.computeSchedule args3).wellFormed = true := by decide
theorem test_wf_schedule_base_zero : (Instr.computeSchedule { args3 with base := 0 }).wellFormed = false := by decide
theorem test_wf_schedule_base_33_bits :
    (Instr.computeSchedule { args3 with base := 2 ^ 32 }).wellFormed = false := by decide
theorem test_wf_schedule_no_channel : (Instr.computeSchedule { args3 with chans := [] }).wellFormed = false := by decide
theorem test_wf_schedule_17_channels :
    (Instr.computeSchedule { args3 with chans := List.replicate 17 ⟨9000, 0, false⟩ }).wellFormed = false := by decide
theorem test_wf_schedule_ns0_zero : (Instr.computeSchedule { args3 with ns0 := 0 }).wellFormed = false := by decide
theorem test_wf_schedule_ns0_1024 : (Instr.computeSchedule { args3 with ns0 := 1024 }).wellFormed = false := by decide
theorem test_wf_schedule_rate_zero :
    (Instr.computeSchedule { args3 with chans := [⟨0, 0, false⟩] }).wellFormed = false := by decide
theorem test_wf_schedule_rate_above_maximum :
    (Instr.computeSchedule { args3 with chans := [⟨5000001, 0, false⟩] }).wellFormed = false := by decide
theorem test_wf_schedule_rates_rise :
    (Instr.computeSchedule { args3 with chans := [⟨9000, 0, false⟩, ⟨32000, 0, false⟩] }).wellFormed = false := by
  decide
theorem test_wf_round_zero : (Instr.roundPow2 0).wellFormed = false := by decide
theorem test_wf_offsets_empty : (Instr.assignOffsets []).wellFormed = false := by decide
theorem test_wf_offsets_17 : (Instr.assignOffsets (List.replicate 17 32)).wellFormed = false := by decide
theorem test_wf_offsets_factor_1 : (Instr.assignOffsets [1]).wellFormed = false := by decide
theorem test_wf_offsets_factor_65536 : (Instr.assignOffsets [65536]).wellFormed = false := by decide

/-! ### Records written out byte by byte (R112, R121, R125, R126) -/

theorem test_decode_nop : decode ⟨.cmd, [0x00, 0x00, 0x00, 0x00]⟩ = .ok .nop := by decide
theorem test_decode_cal_load : decode ⟨.cmd, [0x01, 0x00, 0x00, 0x00]⟩ = .ok .calLoad := by decide
theorem test_decode_configure : decode ⟨.cmd, [0x02, 0x00, 0x00, 0x00]⟩ = .ok .configure := by decide
theorem test_decode_start : decode ⟨.cmd, [0x03, 0x00, 0x00, 0x00]⟩ = .ok .start := by decide
theorem test_decode_stop : decode ⟨.cmd, [0x04, 0x00, 0x00, 0x00]⟩ = .ok .stop := by decide
theorem test_decode_deinit : decode ⟨.cmd, [0x05, 0x00, 0x00, 0x00]⟩ = .ok .deinit := by decide
theorem test_decode_reserved_whole_word :
    decode ⟨.cmd, [0x02, 0x00, 0x01, 0x00]⟩ = .ok (.reservedCmd 0x00010002) := by decide
theorem test_decode_wr :
    decode ⟨.trace, [0x01, 0x84, 0x01, 0x04, 0x00, 0x01, 0x03]⟩ = .ok (.wr 0x184 0x03010004) := by decide
theorem test_decode_rd :
    decode ⟨.trace, [0x02, 0x08, 0x00, 0x04, 0x01, 0x00, 0x00]⟩ = .ok (.rd 0x008 0x00000104) := by decide
theorem test_decode_svc : decode ⟨.trace, [0x10]⟩ = .ok .svc := by decide
theorem test_decode_eng :
    decode ⟨.trace, [0x20, 0x0F, 0x01, 0x01, 0x02, 0xEF, 0xBE]⟩ = .ok (.eng 15 .pong 0x0201 0xBEEF) := by decide
theorem test_decode_half : decode ⟨.trace, [0x21, 0x03]⟩ = .ok (.half 3) := by decide
theorem test_decode_xerr : decode ⟨.trace, [0x22, 0x0F]⟩ = .ok (.xerr 15) := by decide
theorem test_decode_trim :
    decode ⟨.trace, [0x23, 0x01, 0x10, 0x00, 0x19, 0x40, 0x00, 0x00, 0x0A, 0x00, 0x00, 0x40, 0x00, 0x00]⟩ =
      .ok (.trim ⟨true, 16, 0x4019, 10, 0x4000⟩) := by decide
theorem test_decode_reset : decode ⟨.trace, [0x30]⟩ = .ok .reset := by decide
theorem test_decode_set_clock_divider :
    decode ⟨.hwop, [0x00, 0x09, 0x00, 0x00, 0x00, 0x12, 0x00, 0x00, 0x00]⟩ = .ok (.setClockDivider 9 18) := by decide
theorem test_decode_program_buffer :
    decode ⟨.hwop, [0x01, 0x02, 0x00, 0x00, 0x00, 0x01, 0x00, 0x00, 0x00, 0x08, 0x10, 0x00, 0x00,
      0x04, 0x00, 0x00, 0x00]⟩ = .ok (.programBuffer 2 .pong 0x1008 4) := by decide
theorem test_decode_enable_channel : decode ⟨.hwop, [0x02, 0x05, 0x00, 0x00, 0x00]⟩ = .ok (.enableChannel 5) := by decide
theorem test_decode_unmask : decode ⟨.hwop, [0x03, 0x0F, 0x00, 0x00, 0x00]⟩ = .ok (.unmaskInterrupt 15) := by decide
theorem test_decode_read_status :
    decode ⟨.hwop, [0x04, 0x03, 0x80, 0x00, 0x00]⟩ = .ok (.readInterruptStatus 0x8003) := by decide
theorem test_decode_clear : decode ⟨.hwop, [0x05, 0x01, 0x00, 0x00, 0x00]⟩ = .ok (.clearInterrupt 1) := by decide
theorem test_decode_mask : decode ⟨.hwop, [0x06, 0x00, 0x00, 0x00, 0x00]⟩ = .ok (.maskInterrupt 0) := by decide
theorem test_decode_clock_enable : decode ⟨.hwop, [0x07, 0x01, 0x00, 0x00, 0x00]⟩ = .ok (.setClockEnable true) := by
  decide
theorem test_decode_data_ready : decode ⟨.evt, [0x01, 0x00, 0x00, 0x00]⟩ = .ok (.dataReady 1) := by decide
theorem test_decode_group_complete : decode ⟨.evt, [0x0F, 0x01, 0x00, 0x00]⟩ = .ok (.sampleGroupComplete 15) := by
  decide
theorem test_decode_buffer_full : decode ⟨.evt, [0x00, 0x02, 0x00, 0x00]⟩ = .ok (.bufferFull 0) := by decide
theorem test_decode_transfer_error : decode ⟨.evt, [0x0F, 0x03, 0x00, 0x00]⟩ = .ok (.transferError 15) := by decide
theorem test_decode_other_tag : decode ⟨.trace, [0x03]⟩ = .error .badTag := by decide
theorem test_decode_short_record : decode ⟨.trace, [0x21]⟩ = .error .badLength := by decide
theorem test_decode_half_2 : decode ⟨.trace, [0x20, 0x00, 0x02, 0x00, 0x00, 0x00, 0x00]⟩ = .error .badHalf := by decide
theorem test_decode_channel_16 : decode ⟨.trace, [0x21, 0x10]⟩ = .error .badChannel := by decide
theorem test_decode_event_bit_10 : decode ⟨.evt, [0x00, 0x04, 0x00, 0x00]⟩ = .error .badEvent := by decide
theorem test_table_word_svc : decodeTableWord 8 0x10 = some .svc := by decide
theorem test_table_word_configure : decodeTableWord 32 2 = some .configure := by decide

/-! ### One step on a small state -/

/-- The step answers a next state of which f holds. -/
def nextHas (o : Host.Outcome State Fault Refusal) (f : State → Bool) : Bool :=
  match o with
  | .next t => f t
  | .fault _ => false
  | .refused _ => false

/-- The step is refused with the given name. -/
def refusedWith (o : Host.Outcome State Fault Refusal) (r : Refusal) : Bool :=
  match o with
  | .refused q => decide (q = r)
  | _ => false

/-- The parameter values of the vectors (R6): window 0..0xFFFF, halves up to 1023, table 0. -/
def vec : Params := ⟨0, 0xFFFF, 1023, fun _ => 0⟩

/-- Channel 0 and channel 1 of the baseline request (95, 2.6). -/
def base0 : Channel :=
  { Channel.reset with
    reqRate := 32000, numSamples := 4, pingAddr := 0x1000, pingLen := 4, pongAddr := 0x1008, pongLen := 4,
    rxAddr := 0x2000 }
def base1 : Channel :=
  { Channel.reset with
    reqRate := 9000, numSamples := 4, pingAddr := 0x1100, pingLen := 4, pongAddr := 0x1108, pongLen := 4,
    rxAddr := 0x2100 }

/-- Reset with N, the flags of MODE, and the banks of channels 0 and 1 set. -/
def request (n : BitVec 5) (static shared : Bool) (c0 c1 : Channel) : State :=
  ({ State.reset with baseClk := 90000000, mode := ⟨n, static, shared, false⟩ }.setChan 0 c0).setChan 1 c1

/-- The baseline request (95, 2.6). -/
def baseline : State := request 2 false false base0 base1

/-- The RESULT word CONFIGURE leaves. -/
def configResult (s : State) : Word := (configureWith vec s).result.word

theorem test_configure_baseline :
    let t := configureWith vec baseline
    t.result.word = 0xFF00 ∧ t.st = .configured ∧ readOffset t 0x11C = 0x00000800 ∧
      readOffset t 0x15C = 0x00012000 ∧ t.hwops.length = 7 := by decide
theorem test_configure_shared_ring_ignores_channel_1_halves :
    let t := configureWith vec (request 2 false true base0 { base1 with pongAddr := 0x1100 })
    t.result.word = 0xFF00 ∧ (t.chan 1).aPingAddr = 0 ∧ t.hwops.length = 5 := by decide

/-- A configured block: one channel, the given threshold and length of both halves (95, 2.8), calibrated with
the identity. -/
def configured (ard : Bool) (ns len : Word16) : State :=
  { State.reset with
      st := .configured, calValid := true, calSeGain := 0x4000, calDiffGain := 0x4000
      actBaseClk := 10000000, actMode := ⟨1, false, false, ard⟩, onCycles := 1, totalCycles := 2, chEn := 1 }.setChan 0
    { Channel.reset with
      sf := 10, ach := 1000000, aPingAddr := 0x100, aPongAddr := 0x200, aPingLen := len, aPongLen := len
      aRxAddr := 0x300, aNs := ns }

/-- The same block Running, with the ping half holding the given bytes and half-full pending. -/
def running (ard : Bool) (ns len : Word16) (mem : Memory) : State :=
  { configured ard ns len with st := .running, clkEn := true, irqMask := 0xFFFE, irqStatus := 1, mem := mem }

/-- A second channel beside it: a half of three samples at 0x400, a receive buffer of two at 0x600 with counter n1,
half-full pending (in the shared variant channel 0's only) and a transfer error. -/
def both (shared ard : Bool) (n1 : Word16) (mem : Memory) : State :=
  { running ard 2 5 mem with
      actMode := ⟨2, false, shared, ard⟩, chEn := 3, irqMask := 0xFFFC, irqStatus := if shared then 1 else 3
      errStatus := 2 }.setChan 1
    { Channel.reset with
      sf := 10, ach := 1000000, aPingAddr := 0x400, aPongAddr := 0x500, aPingLen := 3, aPongLen := 3
      aRxAddr := 0x600, aNs := 2, count := n1 }

/-- The words 0x11 to 0x15 at 0x100. -/
def fiveWords : Memory :=
  [(0x100, 0x11), (0x101, 0), (0x102, 0x12), (0x103, 0), (0x104, 0x13), (0x105, 0), (0x106, 0x14), (0x107, 0),
   (0x108, 0x15), (0x109, 0)]

theorem test_nop_clears_an_error :
    nextHas (exec .nop { State.reset with result := ⟨.pingPongAddressCollision, 0⟩ })
      (fun t => decide (readOffset t 8 = 0xFF00)) = true := by decide
theorem test_cal_load_loads_the_trim_answers :
    nextHas (exec .calLoad { State.reset with trim := some ⟨true, 16, 0x4019, 0, 0x4000⟩ })
      (fun t => decide (t.calSeOffset = 16 ∧ t.calSeGain = 0x4019 ∧ readOffset t 4 = 4 ∧ readOffset t 8 = 0xFF00)) =
      true := by decide
theorem test_cal_load_times_out :
    nextHas (exec .calLoad { State.reset with trim := some ⟨false, 16, 0x4019, 0, 0x4000⟩ })
      (fun t => decide (t.calSeOffset = 0 ∧ t.calValid = false ∧ readOffset t 8 = 0xFF06)) = true := by decide
theorem test_start_runs :
    nextHas (exec .start (configured false 4 2))
      (fun t => decide (readOffset t 4 = 6 ∧ readOffset t 0x20 = 0xFFFE ∧ readOffset t 0x34 = 0x10001)) = true := by
  decide
theorem test_start_needs_calibration :
    nextHas (exec .start { configured false 4 2 with calValid := false })
      (fun t => decide (readOffset t 8 = 0xFF0A ∧ t.st = .configured)) = true := by decide
theorem test_stop_drops_the_pending_interrupt :
    nextHas (exec .stop ((running false 4 2 []).setChan 0 { (configured false 4 2).chan 0 with count := 3 }))
      (fun t => decide (readOffset t 0x1C = 0 ∧ readOffset t 0x20 = 0xFFFF ∧ readOffset t 0x124 = 0 ∧
        readOffset t 0x128 = 0x100 ∧ readOffset t 0x34 = 1 ∧
        t.hwops = [.maskInterrupt 0, .setClockEnable false])) = true := by decide
theorem test_stop_is_refused_in_idle :
    nextHas (exec .stop State.reset) (fun t => decide (readOffset t 8 = 0xFF09)) = true := by decide
theorem test_deinit_from_running :
    nextHas (exec .deinit (running false 4 2 fiveWords))
      (fun t => decide (readOffset t 4 = 0 ∧ readOffset t 8 = 0xFF00 ∧ readOffset t 0x128 = 0 ∧ t.mem = fiveWords ∧
        t.hwops = [.maskInterrupt 0, .setClockEnable false])) = true := by decide
theorem test_reserved_opcode_compares_the_whole_word :
    nextHas (exec (.wr 0 0x00010002) baseline)
      (fun t => decide (readOffset t 8 = 0xFF0B ∧ t.st = .idle)) = true := by decide
theorem test_wr_mode_drops_reserved_bits :
    nextHas (exec (.wr 0x10 0xFFFFFFFF) State.reset) (fun t => decide (readOffset t 0x10 = 0x71F)) = true := by decide
theorem test_wr_req_cfg_drops_reserved_bits :
    nextHas (exec (.wr 0x184 0xFFFFFFFF) State.reset)
      (fun t => decide (readOffset t 0x184 = 0xFF03FFFF ∧ readOffset t 0x144 = 0)) = true := by decide
theorem test_rd_irq_mask_after_reset :
    nextHas (exec (.rd 0x20 0) State.reset) (fun t => decide (t.rdata = 0xFFFF)) = true := by decide
theorem test_rd_status_while_pending :
    nextHas (exec (.rd 4 0) (running false 4 2 [])) (fun t => decide (t.rdata = 0xE)) = true := by decide
theorem test_svc_reports_channels_ascending :
    nextHas (exec .svc (both false false 1 fiveWords))
      (fun t => decide (t.events = [⟨1, .transferError⟩, ⟨0, .dataReady⟩, ⟨0, .sampleGroupComplete⟩,
          ⟨0, .sampleGroupComplete⟩, ⟨1, .dataReady⟩, ⟨1, .sampleGroupComplete⟩, ⟨1, .sampleGroupComplete⟩] ∧
        readOffset t 0x124 = 0x10001 ∧ t.mem.read16 0x300 = 0x15 ∧ t.mem.read16 0x302 = 0x14 ∧
        t.hwops = [.readInterruptStatus 3, .clearInterrupt 0, .programBuffer 0 .ping 0x100 5, .clearInterrupt 1,
          .programBuffer 1 .ping 0x400 3])) = true := by decide
theorem test_svc_drops_when_full :
    nextHas (exec .svc (running true 2 5 fiveWords))
      (fun t => decide (t.events = [⟨0, .dataReady⟩, ⟨0, .sampleGroupComplete⟩, ⟨0, .bufferFull⟩] ∧
        readOffset t 0x124 = 0x10002 ∧ t.mem.read16 0x300 = 0x11 ∧ t.mem.read16 0x302 = 0x12)) = true := by decide
theorem test_eng_is_little_endian :
    nextHas (exec (.eng 0 .pong 1 0xBEEF) (running false 4 2 []))
      (fun t => decide (t.mem = [(0x202, 0xEF), (0x203, 0xBE)])) = true := by decide
theorem test_eng_past_the_half_is_refused :
    refusedWith (exec (.eng 0 .ping 2 0) (running false 4 2 [])) .engineNotEnabled = true := by decide
theorem test_half_sets_pending :
    nextHas (exec (.half 0) { running false 4 2 [] with irqStatus := 0 })
      (fun t => decide (t.irqStatus = 1 ∧ t.overrun = 0 ∧ readOffset t 4 = 0xE)) = true := by decide
theorem test_half_twice_is_an_overrun :
    nextHas (exec (.half 0) (running false 4 2 [])) (fun t => decide (readOffset t 0x28 = 1)) = true := by decide
theorem test_xerr_sets_pending :
    nextHas (exec (.xerr 0) (running false 4 2 [])) (fun t => decide (readOffset t 0x24 = 1)) = true := by decide
theorem test_xerr_of_a_disabled_channel_is_refused :
    refusedWith (exec (.xerr 1) (running false 4 2 [])) .engineNotEnabled = true := by decide
theorem test_trim_fixes_the_answers :
    nextHas (exec (.trim ⟨true, 16, 0x4019, 0, 0x4000⟩) State.reset)
      (fun t => decide (t.trim = some ⟨true, 16, 0x4019, 0, 0x4000⟩)) = true := by decide
theorem test_reset_appends_nothing :
    nextHas (exec .reset (running false 4 2 fiveWords))
      (fun t => decide (t.hwops = [] ∧ t.st = .idle ∧ t.irqStatus = 0 ∧ t.mem = fiveWords)) = true := by decide
theorem test_set_clock_divider_records :
    nextHas (exec (.setClockDivider 9 18) State.reset) (fun t => decide (t.hwops = [.setClockDivider 9 18])) = true := by
  decide
theorem test_program_buffer_records :
    nextHas (exec (.programBuffer 1 .pong 0x1008 4) State.reset)
      (fun t => decide (t.hwops = [.programBuffer 1 .pong 0x1008 4])) = true := by decide
theorem test_enable_channel : nextHas (exec (.enableChannel 3) State.reset) (fun t => decide (t.chEn = 8)) = true := by
  decide
theorem test_unmask : nextHas (exec (.unmaskInterrupt 15) State.reset) (fun t => decide (t.irqMask = 0x7FFF)) = true := by
  decide
theorem test_read_status_records_irq_status :
    nextHas (exec (.readInterruptStatus 0) (running false 4 2 []))
      (fun t => decide (t.hwops = [.readInterruptStatus 1])) = true := by decide
theorem test_clear_interrupt :
    nextHas (exec (.clearInterrupt 0) (running false 4 2 [])) (fun t => decide (t.irqStatus = 0)) = true := by decide
theorem test_mask_interrupt :
    nextHas (exec (.maskInterrupt 0) (running false 4 2 [])) (fun t => decide (t.irqMask = 0xFFFF)) = true := by decide
theorem test_set_clock_enable :
    nextHas (exec (.setClockEnable true) State.reset) (fun t => decide (readOffset t 0x34 = 0x10000)) = true := by decide
theorem test_data_ready_word :
    nextHas (exec (.dataReady 1) State.reset) (fun t => decide (t.events.map Event.word = [0x001])) = true := by decide
theorem test_group_complete_word :
    nextHas (exec (.sampleGroupComplete 15) State.reset) (fun t => decide (t.events.map Event.word = [0x10F])) = true := by
  decide
theorem test_buffer_full_word :
    nextHas (exec (.bufferFull 0) State.reset) (fun t => decide (t.events.map Event.word = [0x200])) = true := by decide
theorem test_transfer_error_word :
    nextHas (exec (.transferError 15) State.reset) (fun t => decide (t.events.map Event.word = [0x30F])) = true := by
  decide

/-! ### The pure functions on the spec's vectors (95, 2.1 to 2.5) -/

theorem test_schedule_two_channels :
    computeSchedule vec.delay args3 = some ⟨9, 18, [2048, 8192]⟩ := by decide +kernel
theorem test_schedule_static_single_sample :
    computeSchedule vec.delay ⟨90000000, [⟨9000, 0, true⟩], 1, true⟩ = some ⟨315, 10000, [2500]⟩ := by decide +kernel
theorem test_schedule_infeasible :
    computeSchedule vec.delay ⟨90000000, [⟨2000, 0, false⟩, ⟨1999, 0, false⟩], 4, false⟩ = none := by decide
theorem test_round_pow2_vectors :
    [2, 3, 5, 6, 7, 18, 48].map roundPow2 = [2, 4, 4, 8, 8, 16, 64] := by decide
theorem test_round_pow2_2813 :
    nextHas (exec (.roundPow2 2813) State.reset) (fun t => decide (t.ret = some (.factor 2048))) = true := by decide
theorem test_offsets_skip_a_collision :
    nextHas (exec (.assignOffsets [2, 4, 4]) State.reset) (fun t => decide (t.ret = some (.offsets (some [0, 1, 3])))) =
      true := by decide
theorem test_offsets_infeasible : assignOffsets [2, 4, 4, 4] = none ∧ assignOffsets [4, 4, 2] = some [0, 1, 2] := by
  decide
theorem test_apply_vectors :
    calibrate 0x0A00 16 0x4019 = 0x09FC ∧ calibrate 0x0234 0 0x01F4 = 0x0D1A ∧ calibrate 0x0805 10 0x4000 = 0x0800 ∧
    calibrate 0x0FFF 0 0x8000 = 0x07FE ∧ calibrate 0x5ABC 0 0x4000 = 0x0ABC ∧ calibrate 0x0123 100 0x7FFF = 0x07FF := by
  decide
theorem test_apply_takes_the_differential_pair :
    nextHas (exec (.apply 0x0A00 true) { State.reset with calSeGain := 0x4000, calDiffOffset := 16, calDiffGain := 0x4019 })
      (fun t => decide (t.ret = some (.sample 0x09FC))) = true := by decide

/-! ### States that meet the hypotheses of the statements: `meets_<statement>[_<clause>]` -/

theorem meets_DecodeEncodeAgree :
    (Instr.reservedCmd 6).wellFormed = true ∧ (Instr.reservedCmd 6).hasRecord = true ∧
    (Instr.eng 15 .pong 0xFFFF 0xFFFF).wellFormed = true ∧ (Instr.eng 15 .pong 0xFFFF 0xFFFF).hasRecord = true ∧
    (Instr.roundPow2 1).wellFormed = true ∧ (Instr.roundPow2 1).hasRecord = false := by decide
theorem meets_DecodedRecordsEncodeBack : decode ⟨.hwop, [0x04, 0xFF, 0xFF, 0x00, 0x00]⟩ = .ok (.readInterruptStatus 0xFFFF) := by
  decide
theorem meets_RecordsOutsideTheTablesAreRefused :
    (0x00 : Byte) ∉ [(0x01 : Byte), 0x02, 0x10, 0x20, 0x21, 0x22, 0x23, 0x30] ∧ 8 ≤ (8 : Byte).toNat ∧
    0x400 ≤ (0x400 : Word).toNat ∧ 16 ≤ (0x10 : Word).toNat % 256 := by decide

/-- A reset block with the given records to take. -/
def toTake (l : List Slot) : State := { State.reset with input := l }

theorem meets_StepRunsDecodedInstruction :
    (toTake [cmdSlot 1, traceSlot 0x10 []]).input = cmdSlot 1 :: [traceSlot 0x10 []] ∧ decode (cmdSlot 1) = .ok .calLoad ∧
    (toTake [traceSlot 0x31 []]).input = traceSlot 0x31 [] :: [] ∧ decode (traceSlot 0x31 []) = .error .badTag ∧
    (toTake []).input = [] := by decide
theorem meets_CmdWriteRunsTheCommand : 6 ≤ (6 : Word).toNat ∧ 6 ≤ (0xFFFFFFFF : Word).toNat := by decide
theorem meets_ReservedOpcodesAnswerInvalidCommand : 6 ≤ (6 : Word).toNat ∧ 6 ≤ (0x00010002 : Word).toNat := by decide
theorem meets_WriteStoresTheDefinedBits : (0x184 : Word16) ≠ 0 ∧ (0x001 : Word16) ≠ 0 := by decide
/-- One offset for each way out of the map, at its boundary. -/
theorem meets_OffsetsOutsideTheMapDoNothing :
    (0x102 : Word16).toNat % 4 ≠ 0 ∧ 0x500 ≤ (0x500 : Word16).toNat ∧
    ((0x0FC : Word16).toNat < 0x100 ∧ (0x0FC : Word16).toNat ≠ 0x00C ∧ (0x0FC : Word16).toNat ≠ 0x010) ∧
    (0x100 ≤ (0x11C : Word16).toNat ∧ 0x1C ≤ ((0x11C : Word16).toNat - 0x100) % 0x40) ∧
    (0x050 ≤ (0x050 : Word16).toNat ∧ (0x050 : Word16).toNat < 0x100) ∧
    (0x100 ≤ (0x4FC : Word16).toNat ∧ ((0x4FC : Word16).toNat - 0x100) % 0x40 = 0x3C) := by decide
theorem meets_StagingIsNotLive : ¬ ReadsStaging .svc ∧ ¬ ReadsStaging (.rd 4 0) ∧
    baseline.eraseStaging = State.reset.eraseStaging ∧ baseline ≠ State.reset := by
  refine ⟨?_, ?_, by decide, by decide⟩
  · rintro (h | ⟨o, v, h, _⟩) <;> simp [commandOf] at h
  · rintro (h | ⟨o, v, h, h'⟩)
    · simp [commandOf] at h
    · obtain ⟨rfl, rfl⟩ := Instr.rd.inj h
      exact absurd rfl h'
theorem meets_CalLoadReadsTheTrimSource :
    (toTake []).trim = none ∧ { State.reset with trim := some ⟨true, 1, 2, 3, 4⟩ }.trim = some ⟨true, 1, 2, 3, 4⟩ := by
  decide
theorem meets_TrimFixesTheNextCalLoad :
    State.reset.st = .idle ∧ State.reset.calValid = false ∧ (⟨true, 1, 2, 3, 4⟩ : TrimAnswers).ready = true ∧
    (⟨false, 1, 2, 3, 4⟩ : TrimAnswers).ready = false := by decide

/-! #### CONFIGURE -/

theorem vec_ok : ParamsOk vec := by
  refine ⟨by decide, by decide, by decide, by decide, by decide, rfl, fun _ => le_rfl, fun _ => Nat.zero_le _⟩

/-- Checks 1 to 8 pass on a request for channels 0 and 1. -/
theorem meets_ValidRequestsMeetThePreconditions : RequestValid vec baseline := validate_eq_none.1 (by decide)
theorem meets_ConfigureLatchesTheRequest :
    ParamsOk vec ∧ RequestValid vec baseline ∧ computeSchedule vec.delay (schedArgs baseline) = some ⟨9, 18, [2048, 8192]⟩ ∧
    assignOffsets [2048, 8192] = some [0, 1] ∧ Requested baseline 1 ∧ ¬ Requested baseline 2 :=
  ⟨vec_ok, meets_ValidRequestsMeetThePreconditions, by decide +kernel, by decide, by unfold Requested; decide,
    by unfold Requested; decide⟩
theorem meets_ConfigureEmitsThePrimitives :
    let s := request 2 false true base0 { base1 with pongAddr := 0x1100 }
    ParamsOk vec ∧ RequestValid vec s ∧ computeSchedule vec.delay (schedArgs s) = some ⟨9, 18, [2048, 8192]⟩ ∧
    assignOffsets [2048, 8192] = some [0, 1] ∧ s.mode.shared = true :=
  ⟨vec_ok, validate_eq_none.1 (by decide), by decide +kernel, by decide, rfl⟩

/-- The baseline with channel 1 changed, and with channels 0 and 1 changed. -/
def bad1 (c : Channel) : State := request 2 false false base0 c

theorem meets_ConfigureReports_state : (configured false 4 2).st ≠ .idle := by decide
theorem meets_ConfigureReports_count :
    (request 0 false false base0 base1).st = .idle ∧ ¬ CountGood (request 0 false false base0 base1) ∧
    ¬ CountGood (request 17 false false base0 base1) ∧ ¬ CountGood (request 2 true false base0 base1) := by
  unfold CountGood; decide
theorem meets_ConfigureReports_clock :
    CountGood { baseline with baseClk := 0 } ∧ { baseline with baseClk := 0 }.st = .idle := by
  unfold CountGood; decide
/-- Whatever the two banks hold, checks 1 to 4 pass. -/
theorem request_ready (c0 c1 : Channel) :
    (request 2 false false c0 c1).st = .idle ∧ CountGood (request 2 false false c0 c1) ∧
    (request 2 false false c0 c1).baseClk ≠ 0 := by
  refine ⟨rfl, ⟨?_, ?_, ?_⟩, ?_⟩ <;> simp [request, State.setChan]

/-- A rate of zero on channel 0; above the maximum on channel 0; above its predecessor on channel 1. -/
theorem meets_ConfigureReports_rate :
    FirstBad (request 2 false false { base0 with reqRate := 0 } base1)
      (RateGood (request 2 false false { base0 with reqRate := 0 } base1)) 0 ∧
    FirstBad (request 2 false false { base0 with reqRate := 5000001 } base1)
      (RateGood (request 2 false false { base0 with reqRate := 5000001 } base1)) 0 ∧
    FirstBad (bad1 { base1 with reqRate := 32001 }) (RateGood (bad1 { base1 with reqRate := 32001 })) 1 := by
  unfold FirstBad Requested RateGood; decide
theorem meets_ConfigureReports_samples :
    let s := bad1 { base1 with numSamples := 1024 }
    s.st = .idle ∧ CountGood s ∧ s.baseClk ≠ 0 ∧ (∀ i, Requested s i → RateGood s i) ∧ FirstBad s (SamplesGood s) 1 := by
  refine ⟨rfl, (request_ready _ _).2.1, (request_ready _ _).2.2, ?_⟩
  unfold FirstBad Requested RateGood SamplesGood; decide
theorem meets_ConfigureReports_collision :
    let s := bad1 { base1 with pongAddr := 0x1100 }
    s.st = .idle ∧ CountGood s ∧ s.baseClk ≠ 0 ∧ (∀ i, Requested s i → RateGood s i) ∧
    (∀ i, Requested s i → SamplesGood s i) ∧ FirstBad s (HalvesDistinct s) 1 := by
  refine ⟨rfl, (request_ready _ _).2.1, (request_ready _ _).2.2, ?_⟩
  unfold FirstBad Requested RateGood SamplesGood HalvesDistinct RequestedBuffer Requested; decide
theorem meets_ConfigureReports_address :
    let s := bad1 { base1 with pongAddr := 0xFFFA }
    s.st = .idle ∧ CountGood s ∧ s.baseClk ≠ 0 ∧ (∀ i, Requested s i → RateGood s i) ∧
    (∀ i, Requested s i → SamplesGood s i) ∧ (∀ i, Requested s i → HalvesDistinct s i) ∧
    FirstBad s (AddressesGood vec s) 1 := by
  refine ⟨rfl, (request_ready _ _).2.1, (request_ready _ _).2.2, ?_, ?_, ?_, ?_, ?_, ?_⟩
  · unfold Requested RateGood; decide
  · unfold Requested SamplesGood; decide
  · unfold HalvesDistinct RequestedBuffer Requested; decide
  · unfold Requested; decide
  · exact fun h => absurd ((checkBuffers_eq_none (by unfold Requested; decide)).2 h) (by decide)
  · intro j hj
    obtain rfl : j = 0 := Fin.ext (by simpa using hj)
    exact (checkBuffers_eq_none (by unfold Requested; decide)).1 (by decide)
theorem meets_ConfigureReports_schedule :
    let s := request 2 false false { base0 with reqRate := 2000 } { base1 with reqRate := 1999 }
    RequestValid vec s ∧ computeSchedule vec.delay (schedArgs s) = none :=
  ⟨validate_eq_none.1 (by decide), by decide +kernel⟩

/-- The baseline request is schedulable under the vectors' parameters. -/
theorem meets_SchedulableRequestsAreConfigured :
    RequestValid vec baseline ∧ computeSchedule vec.delay (schedArgs baseline) = some ⟨9, 18, [2048, 8192]⟩ :=
  ⟨meets_ValidRequestsMeetThePreconditions, by decide +kernel⟩

/-- One channel whose two halves of one sample and receive buffer lie at the start of this machine's window. -/
def windowChannel : Channel :=
  { Channel.reset with
    reqRate := 9000, numSamples := 1, pingAddr := BitVec.ofNat 32 Config.params.addrMin, pingLen := 1
    pongAddr := BitVec.ofNat 32 (Config.params.addrMin + 2), pongLen := 1
    rxAddr := BitVec.ofNat 32 Config.params.addrMin }

/-- A request for that channel. -/
def windowRequest : State := request 1 false false windowChannel Channel.reset

/-- R6 allows a window of fewer than four bytes, in which no request for two halves fits. -/
def WindowOfFour : Prop := Config.params.addrMin + 3 ≤ Config.params.addrMax

theorem window_toNat (hw : WindowOfFour) (k : Nat) (h : k ≤ 3) :
    (BitVec.ofNat 32 (Config.params.addrMin + k)).toNat = Config.params.addrMin + k := by
  have h1 : _ ≤ _ := hw
  have h2 := paramsOk_params.2.2.1
  rw [BitVec.toNat_ofNat]
  exact Nat.mod_eq_of_lt (by omega)

theorem window_ping (hw : WindowOfFour) : windowChannel.pingAddr.toNat = Config.params.addrMin :=
  window_toNat hw 0 (by omega)
theorem window_pong (hw : WindowOfFour) : windowChannel.pongAddr.toNat = Config.params.addrMin + 2 :=
  window_toNat hw 2 (by omega)
theorem window_rx (hw : WindowOfFour) : windowChannel.rxAddr.toNat = Config.params.addrMin :=
  window_toNat hw 0 (by omega)

theorem window_distinct (hw : WindowOfFour) : windowChannel.pingAddr ≠ windowChannel.pongAddr := fun h => by
  have := congrArg BitVec.toNat h
  rw [window_ping hw, window_pong hw] at this
  omega

/-- The one enabled channel of that request is channel 0. -/
theorem window_only {i : Chan} (h : Requested windowRequest i) : i = 0 :=
  Fin.ext (by simpa [Requested, windowRequest, request, State.setChan] using h)

theorem window_chan0 : windowRequest.chan 0 = windowChannel := rfl

/-- The success branch of CONFIGURE at this machine's own parameters, in a window of four bytes or more. -/
theorem meets_ConfigureIsAllOrNothing (hw : WindowOfFour) :
    RequestValid Config.params windowRequest ∧
    ∃ sch, computeSchedule Config.params.delay (schedArgs windowRequest) = some sch ∧ sch.sf = [2500] := by
  have h1 : _ ≤ _ := hw
  obtain ⟨he, _, _, hl, _⟩ := paramsOk_params
  refine ⟨⟨rfl, by unfold CountGood; decide, by decide, ?_, ?_, ?_, ?_⟩, _, rfl, rfl⟩ <;> intro i hi <;>
    obtain rfl := window_only hi
  · refine ⟨by decide, by decide, fun j hj => ?_⟩
    simp at hj
  · exact ⟨by decide, by decide, by decide⟩
  · exact fun _ => window_distinct hw
  · have hp : windowChannel.pingLen.toNat = 1 := rfl
    have hq : windowChannel.pongLen.toNat = 1 := rfl
    have hn : windowChannel.numSamples.toNat = 1 := rfl
    refine ⟨fun _ => ⟨?_, ?_⟩, ?_⟩ <;>
      simp only [BufferAddressable, ReceiveAddressable, window_chan0, window_ping hw, window_pong hw, window_rx hw,
        hp, hq, hn] <;>
      omega

/-! #### START, STOP, reset -/

theorem meets_StartUnmasksAndRuns :
    State.reset.st ≠ .configured ∧ (configured false 4 2).st = .configured ∧ (configured false 4 2).calValid = true ∧
    { configured false 4 2 with calValid := false }.calValid = false := by decide
theorem meets_StopMasksAndClears : State.reset.st = .idle ∧ (configured false 4 2).st ≠ .idle := by decide
theorem meets_ResetValuesReadBack :
    (∃ t, exec .reset (running false 4 2 []) = .next t) ∧ ∃ t, exec .deinit (running false 4 2 []) = .next t :=
  ⟨⟨_, rfl⟩, _, rfl⟩

/-! #### SERVICE -/

theorem running_buffers_empty (ard : Bool) : BuffersInMemory (running ard 2 5 []) := by
  cases ard <;> refine ⟨fun c h _ => ?_, fun c => ?_, fun c => ?_⟩ <;> revert c
  · cases h <;> decide
  · unfold Enabled; decide
  · decide
  · cases h <;> decide
  · unfold Enabled; decide
  · decide

theorem running_buffers (ard : Bool) (mem : Memory) : BuffersInMemory (running ard 2 5 mem) :=
  ⟨(running_buffers_empty ard).halves, (running_buffers_empty ard).receive, (running_buffers_empty ard).counts⟩

theorem meets_ServiceCompletesInsideReceiveBuffers :
    (running false 2 5 fiveWords).st = .running ∧ irqLine (running false 2 5 fiveWords) = true ∧
    BuffersInMemory (running false 2 5 fiveWords) := ⟨rfl, by decide, running_buffers _ _⟩
theorem both_buffers_empty (shared ard : Bool) : BuffersInMemory (both shared ard 1 []) := by
  cases shared <;> cases ard <;> refine ⟨fun c h _ => ?_, fun c => ?_, fun c => ?_⟩ <;> revert c <;>
    first | (cases h <;> decide) | (unfold Enabled; decide) | decide

theorem both_buffers (shared ard : Bool) (mem : Memory) : BuffersInMemory (both shared ard 1 mem) :=
  ⟨(both_buffers_empty shared ard).halves, (both_buffers_empty shared ard).receive, (both_buffers_empty shared ard).counts⟩

/-- Channel 1's counter already at its threshold. -/
theorem full_buffers : BuffersInMemory (both false true 2 []) := by
  refine ⟨fun c h _ => ?_, fun c => ?_, fun c => ?_⟩ <;> revert c
  · cases h <;> decide
  · unfold Enabled; decide
  · decide

/-- Two signalling channels and one transfer error. -/
theorem meets_ServiceSwapsAndRearms :
    let s := both false false 1 fiveWords
    (∃ t, exec .svc s = .next t) ∧ SignalsFull s 0 ∧ ¬ SignalsFull s 2 ∧ AscendingList [0, 1] (SignalsFull s) ∧
    AscendingList [1] (SignalsError s) := by
  refine ⟨⟨_, rfl⟩, ?_⟩
  unfold AscendingList SignalsFull SignalsError; decide
theorem meets_TransferErrorsAreReportedOnly :
    let s := { running false 4 2 [] with irqStatus := 0, errStatus := 1 }
    s.st = .running ∧ (∀ c, ¬ SignalsFull s c) ∧ ∃ c, SignalsError s c := by
  unfold SignalsFull SignalsError; decide
/-- Two signalling channels, each half longer than its room, both settings of A_ARD; the samples stored last at
each place, the samples overwritten and the samples dropped. -/
theorem meets_ServiceDeliversCalibratedSamples (ard : Bool) :
    let s := both false ard 1 []
    s.st = .running ∧ s.actMode.shared = false ∧ SignalsFull s 0 ∧ SignalsFull s 1 ∧
    (∀ c, SignalsFull s c → filledAddr s c + 2 * filledLen s c ≤ 2 ^ 32 ∧
      receiveAddr s c + 2 * threshold s c ≤ 2 ^ 32 ∧ fillCount s c ≤ threshold s c) ∧
    (∀ c d, SignalsFull s c → SignalsFull s d →
      SamplesApart (filledAddr s c) (filledLen s c) (receiveAddr s d) (threshold s d)) ∧
    (∀ c d, SignalsFull s c → SignalsFull s d → c ≠ d →
      SamplesApart (receiveAddr s c) (threshold s c) (receiveAddr s d) (threshold s d)) := by
  unfold SignalsFull SamplesApart; cases ard <;> decide
theorem meets_ServiceDelivers_places :
    let s := both false false 1 []
    let u := both false true 1 []
    sampleAddr s 0 4 = some 0x300 ∧ LastThere s 0 (filledLen s 0) 4 ∧ sampleAddr s 0 0 = some 0x300 ∧
    sampleAddr s 1 0 = some 0x602 ∧ sampleAddr u 0 1 = some 0x302 ∧ LastThere u 0 (filledLen u 0) 1 ∧
    sampleAddr u 0 2 = none := by
  refine ⟨by decide, ?_, by decide, by decide, by decide, ?_, by decide⟩
  · exact fun j h1 h2 => absurd (show j < 5 from h2) (by omega)
  · intro j h1 h2
    have : j < 5 := h2
    interval_cases j <;> decide
theorem meets_AutoResetCompletesWholeGroups :
    let s := both false false 1 fiveWords
    s.st = .running ∧ s.actMode.shared = false ∧ s.actMode.ard = false ∧ SignalsFull s 0 ∧ SignalsFull s 1 ∧
    BuffersInMemory s ∧ (∀ c, SignalsFull s c → fillCount s c < threshold s c) :=
  ⟨rfl, rfl, rfl, by unfold SignalsFull; decide, by unfold SignalsFull; decide, both_buffers _ _ _,
    by unfold SignalsFull; decide⟩
/-- Channel 0 starts empty (n = 0), channel 1 full (n = m): its half changes nothing but the report. -/
theorem meets_FullReceiveBuffersDropSamples :
    let s := both false true 2 []
    s.st = .running ∧ s.actMode.shared = false ∧ s.actMode.ard = true ∧ SignalsFull s 0 ∧ SignalsFull s 1 ∧
    BuffersInMemory s ∧ fillCount s 0 = 0 ∧ threshold s 0 = 2 ∧ fillCount s 1 = 2 ∧ threshold s 1 = 2 ∧
    (∀ c d, SignalsFull s c → SignalsFull s d →
      SamplesApart (filledAddr s c) (filledLen s c) (receiveAddr s d) (threshold s d) ∧
      (c ≠ d → SamplesApart (receiveAddr s c) (threshold s c) (receiveAddr s d) (threshold s d))) :=
  ⟨rfl, rfl, rfl, by unfold SignalsFull; decide, by unfold SignalsFull; decide, full_buffers, by decide, by decide,
    by decide, by decide, by unfold SignalsFull SamplesApart; decide⟩

/-- The shared variant of the same block. -/
def ring (mem : Memory) : State :=
  { running false 2 5 mem with actMode := ⟨1, false, true, false⟩ }

/-- Words of channel 0, 1, 1, 0 and 2 at 0x100: the last is not enabled. -/
def ringWords : Memory :=
  [(0x100, 0x11), (0x101, 0), (0x102, 0x12), (0x103, 0x10), (0x104, 0x13), (0x105, 0x10), (0x106, 0x14), (0x107, 0),
   (0x108, 0x15), (0x109, 0x20)]

/-- Two enabled channels, both settings of A_ARD, disjoint receive buffers. -/
theorem meets_RingSamplesGoByTheirId (ard : Bool) :
    let s := both true ard 1 ringWords
    s.st = .running ∧ s.actMode.shared = true ∧ (∀ d, SignalsFull s d ↔ d = 0) ∧ BuffersInMemory s ∧
    (∀ u, Enabled s u → SamplesApart (filledAddr s 0) (filledLen s 0) (receiveAddr s u) (threshold s u)) ∧
    (∀ u v, Enabled s u → Enabled s v → u ≠ v →
      SamplesApart (receiveAddr s u) (threshold s u) (receiveAddr s v) (threshold s v)) ∧
    AscendingList [0, 1] (Enabled s) ∧ AscendingList [1] (SignalsError s) ∧ ringSamples s 1 = [1, 2] := by
  refine ⟨rfl, rfl, ?_, both_buffers _ _ _, ?_, ?_, ?_, ?_, by cases ard <;> decide⟩
  · unfold SignalsFull; cases ard <;> decide
  · unfold Enabled SamplesApart; cases ard <;> decide
  · unfold Enabled SamplesApart; cases ard <;> decide
  · unfold AscendingList Enabled; cases ard <;> decide
  · unfold AscendingList SignalsError; cases ard <;> decide
theorem test_ring_counts_and_drops :
    nextHas (exec .svc (both true false 1 ringWords))
      (fun t => decide (t.demuxErr = true ∧ readOffset t 0x124 = 0x10000 ∧ readOffset t 0x164 = 1 ∧
        t.mem.read16 0x302 = 0x14 ∧ t.mem.read16 0x602 = 0x12 ∧ t.mem.read16 0x600 = 0x13 ∧
        t.events = [⟨1, .transferError⟩, ⟨0, .dataReady⟩, ⟨0, .sampleGroupComplete⟩, ⟨1, .dataReady⟩,
          ⟨1, .sampleGroupComplete⟩])) = true := by decide

/-! #### ENGINE and the refusals -/

theorem meets_EngineWriteStoresOneSample :
    let s := running false 4 2 []
    s.st = .running ∧ s.clkEn = true ∧ (if s.actMode.shared then (0 : Chan) = 0 else (0 : Chan).val < s.activeN) ∧
    (1 : Word16).toNat < (halfLen s 0 .pong).toNat ∧ (halfAddr s 0 .pong).toNat + 2 * (1 : Word16).toNat + 1 < 2 ^ 32 := by
  decide
theorem meets_HalfFullSetsPendingOrOverrun :
    (running false 4 2 []).st = .running ∧ (running false 4 2 []).clkEn = true ∧
    (if (running false 4 2 []).actMode.shared then (0 : Chan) = 0 else (0 : Chan).val < (running false 4 2 []).activeN) ∧
    (if (ring []).actMode.shared then (0 : Chan) = 0 else (0 : Chan).val < (ring []).activeN) := by decide
theorem meets_TransferErrorSetsItsPendingBit :
    (running false 4 2 []).st = .running ∧ (0 : Chan).val < (running false 4 2 []).activeN := by decide
/-- Idle for all four; a pending channel that is masked; a sample past the half; a channel that is not enabled. -/
theorem meets_StepsOutsideTheirConditionAreRefused :
    State.reset.st ≠ .running ∧ irqLine { running false 4 2 [] with irqMask := 0xFFFF } = false ∧
    ¬ (2 : Word16).toNat < (halfLen (running false 4 2 []) 0 .ping).toNat ∧
    ¬ (1 : Chan).val < (running false 4 2 []).activeN ∧ (ring []).actMode.shared = true ∧ (1 : Chan) ≠ 0 := by decide

/-! #### The pure functions -/

theorem meets_PureFunctionsAnswer :
    args3.ok = true ∧ { args3 with ns0 := 1023 }.ok = true ∧ { args3 with ns0 := 1024 }.ok = false ∧
    [2, 65535] ≠ [] ∧ [0, 65536] ≠ [] := by decide
/-- Where no result is stated `round_pow2` and `assign_offsets` complete with their free values. -/
theorem test_functions_complete_outside_their_operands (s : State) :
    exec (.roundPow2 0) s = .next (s.answer (.factor Config.roundPow2AtZero)) ∧
    exec (.assignOffsets []) s = .next (s.answer (.offsets Config.offsetsOfNone)) := ⟨rfl, rfl⟩
/-- R181 by hand on lists outside R180's operands: [1, 1] has the one candidate 0, taken; seventeen factors of 32
take 0 to 16; a single factor of 0 needs no scan, a second has no candidate; a factor of 0 blocks its offset only. -/
theorem test_offsets_of_any_factors (s : State) :
    exec (.assignOffsets [1, 1]) s = .next (s.answer (.offsets none)) ∧
    exec (.assignOffsets (List.replicate 17 32)) s = .next (s.answer (.offsets (some (List.range 17)))) ∧
    assignOffsets [0] = some [0] ∧ assignOffsets [0, 0] = none ∧ assignOffsets [0, 3, 70000] = some [0, 1, 2] :=
  ⟨rfl, rfl, by decide, by decide, by decide⟩
theorem meets_RoundPow2PicksTheNearerPower :
    2 ^ (0 + 1) < 3 ∧ 3 < 2 ^ (0 + 2) ∧ 2 ^ (14 + 1) < 49152 ∧ 49152 < 2 ^ (14 + 2) := by decide
theorem meets_DoublingStopsAtTheFirstFit :
    [2, 2, 2] ≠ [] ∧ (∀ x ∈ [2, 2, 2], 1 ≤ x ∧ x ≤ 65535) ∧ relieve [2, 2, 2] = some [4, 4, 4] ∧
    relieve [1, 65535] = none := by decide

/-- One channel at the given rate and sample count of a 90 MHz base clock. -/
def single (rate ns0 : Nat) : SchedArgs := ⟨90000000, [⟨rate, 0, false⟩], ns0, false⟩

theorem relieved_args3 :
    Relieved [2048] [2048] ∧ Relieved [2048, 8192] [2048, 8192] := by
  refine ⟨⟨0, by decide, by decide, ?_, fun i h => absurd h (Nat.not_lt_zero i)⟩,
    0, by decide, by decide, ?_, fun i h => absurd h (Nat.not_lt_zero i)⟩ <;> norm_num [utilisation]

/-- The run of two channels (95, 2.2 row 3): ceil(90 MHz / 32 kHz) = 2813, rounded to 2048; then 2048 * 4. -/
theorem meets_SlotFactorsFollowTheSteps : args3.ok = true ∧ FactorRun args3 [[2048], [2048, 8192]] [2048, 8192] where
  left := by decide
  right :=
    { length := rfl
      first := by
        rintro c0 cur ⟨⟩ ⟨⟩
        refine ⟨2813, ⟨by decide, fun q h => ?_⟩, by decide, fun _ => by decide +kernel, ?_⟩
        · change 90000000 ≤ q * 32000 at h; omega
        · rw [show max 2 2813 = 2813 from rfl, show roundPow2 2813 = 2048 by decide +kernel]
          exact relieved_args3.1
      next := by
        rintro (_ | i) p c prev cur h1 h2 h3 h4
        · cases h1; cases h2; cases h3; cases h4
          refine ⟨4, 2048, ⟨by decide, fun q h => ?_⟩, rfl, by decide, fun _ => by decide +kernel, ?_⟩
          · change 32000 ≤ q * 9000 at h; omega
          · rw [show 2048 * 4 = 8192 from rfl, show roundPow2 8192 = 8192 by decide +kernel]
            exact relieved_args3.2
        · simp [args3] at h2
      last := by
        rintro x xs ⟨⟩
        rfl }
/-- One channel: the largest factor that fits, one that does not, and a single sample. -/
theorem meets_SlotFactors_one_channel :
    (single 1374 4).ok = true ∧ (single 1374 4).chans = [⟨1374, 0, false⟩] ∧ (single 1373 4).ok = true ∧
    (single 9000 1).ok = true := by decide
theorem test_schedule_single_channel :
    computeSchedule vec.delay (single 1374 4) = some ⟨9, 18, [65503]⟩ ∧ computeSchedule vec.delay (single 1373 4) = none ∧
    computeSchedule vec.delay (single 9000 1) = some ⟨9, 18, [2500]⟩ := by decide +kernel
theorem meets_ClockPlanFollowsTheHoldTime :
    args3.ok = true ∧ computeSchedule vec.delay args3 = some ⟨9, 18, [2048, 8192]⟩ :=
  ⟨by decide, test_schedule_two_channels⟩
theorem meets_SchedulesKeepTheLaws : args3.ok = true ∧ 1 < args3.chans.length := by decide
theorem meets_OffsetsAreTheGreedyFirstFit :
    [2, 4, 4] ≠ [] ∧ assignOffsets [2, 4, 4] = some [0, 1, 3] ∧ [2, 2, 2] ≠ [] ∧ assignOffsets [2, 2, 2] = none ∧
    [0, 0] ≠ [] ∧ assignOffsets [0, 0] = none := by decide
theorem meets_ScheduleOffsetsNeverCollide :
    args3.ok = true ∧ computeSchedule vec.delay args3 = some ⟨9, 18, [2048, 8192]⟩ ∧
    assignOffsets [2048, 8192] = some [0, 1] ∧ (0 : Nat) ≠ 1 :=
  ⟨by decide, test_schedule_two_channels, by decide, by decide⟩
theorem meets_ApplyKeepsItsLaws :
    gainThousandths 0x4000 = 1000 ∧ (0x5ABC : Word16).toNat % 4096 = (0x0ABC : Word16).toNat % 4096 := by decide

/-! #### The whole machine -/

theorem meets_CalibrationIsImmutable :
    (∃ t, exec .stop (running false 4 2 []) = .next t) ∧ commandOf .stop ≠ .deinit ∧ Instr.stop ≠ .reset ∧
    (running false 4 2 []).calValid = true := ⟨⟨_, rfl⟩, by decide, by decide, rfl⟩
theorem meets_TracesAreAppendOnly : ∃ t, step (toTake [cmdSlot 4]) = .next t := ⟨_, rfl⟩
/-- Each of the five ways STATE changes has a step; here a START and a STOP. -/
theorem meets_StateTransitions :
    (∃ t, exec .start (configured false 4 2) = .next t ∧ t.st ≠ (configured false 4 2).st) ∧
    ∃ t, exec (.wr 0 4) (configured false 4 2) = .next t ∧ t.st ≠ (configured false 4 2).st :=
  ⟨⟨_, rfl, by decide⟩, _, rfl, by decide⟩
theorem meets_OnlyServiceAndEngineWriteMemory :
    (∃ t, exec (.half 0) (running false 4 2 []) = .next t) ∧ Instr.half 0 ≠ .svc ∧
    ∀ c h k w, Instr.half 0 ≠ .eng c h k w := ⟨⟨_, rfl⟩, by decide, by simp⟩
theorem meets_OnlyServiceMovesTheBanksWhileRunning :
    (∃ t, exec (.wr 0x100 7) (running false 4 2 []) = .next t) ∧ (running false 4 2 []).st = .running ∧
    Instr.wr 0x100 7 ≠ .svc ∧ Instr.wr 0x100 7 ≠ .reset ∧ commandOf (.wr 0x100 7) ≠ .stop ∧
    commandOf (.wr 0x100 7) ≠ .deinit := ⟨⟨_, rfl⟩, rfl, by decide, by decide, by decide, by decide⟩
theorem meets_FaultFlagsAreSticky :
    let s := { running false 4 2 [] with overrun := 1, demuxErr := true }
    (∃ t, exec .stop s = .next t) ∧ ¬ (commandOf .stop = .configure) ∧ commandOf .stop ≠ .deinit ∧ Instr.stop ≠ .reset ∧
    bitOf s.overrun 0 = true ∧ s.demuxErr = true :=
  ⟨⟨_, rfl⟩, by decide, by decide, by decide, by decide, rfl⟩
theorem meets_MemoryStaysCanonical :
    (∃ t, step { toTake [traceSlot 0x10 []] with
      st := .running, irqMask := 0, errStatus := 1, mem := fiveWords } = .next t) ∧ Memory.wf fiveWords = true :=
  ⟨⟨_, rfl⟩, by decide⟩
theorem meets_ResetMeetsTheInvariant :
    ∀ slot ∈ [traceSlot 0x10 [], cmdSlot 2], slot.fmt = .trace ∨ slot.fmt = .cmd := by decide

/-- A Running block, half-full pending, whose one channel has its halves and receive buffer at the start of this
machine's window; the next step is the given record. -/
def windowRunning (next : Slot) : State :=
  { State.reset with
      st := .running, calValid := true, calSeGain := 0x4000, actBaseClk := 90000000
      actMode := ⟨1, false, false, false⟩, onCycles := 9, totalCycles := 18, chEn := 1, clkEn := true
      irqMask := 0xFFFE, irqStatus := 1, input := [next] }.setChan 0
    { Channel.reset with
      sf := 2500, ach := 36000, aNs := 1, aPingAddr := windowChannel.pingAddr, aPongAddr := windowChannel.pongAddr
      aPingLen := 1, aPongLen := 1, aRxAddr := windowChannel.rxAddr }

theorem windowRunning_enabled (next : Slot) (c : Chan) : Enabled (windowRunning next) c ↔ c = 0 := by
  change c.val < 1 ↔ c = 0
  revert c; decide

theorem windowRunning_buffer (next : Slot) (c : Chan) : isBufferChan (windowRunning next) c = true ↔ c = 0 := by
  change decide (c.val < 1) = true ↔ c = 0
  revert c; decide

theorem windowRunning_bits (c : Chan) :
    (bitOf 1 c = true ↔ c = 0) ∧ (bitOf 0xFFFE c = false ↔ c = 0) ∧ bitOf 0 c = false := by
  revert c; decide

theorem windowRunning_count (next : Slot) (c : Chan) : ((windowRunning next).chan c).count = 0 := by
  by_cases h : c = 0
  · subst h; rfl
  · have h' : 0 ≠ c.val := fun e => h (Fin.ext e.symm)
    simp [windowRunning, State.setChan, State.chan, h', State.reset, Channel.reset]

theorem windowRunning_latched (hw : WindowOfFour) (next : Slot) : LatchedOk Config.params (windowRunning next) := by
  have h1 : _ ≤ _ := hw
  obtain ⟨he, _, _, hl, _⟩ := paramsOk_params
  refine ⟨by change 1 ≤ 16; omega, fun h => absurd h (by change ¬ false = true; decide), ?_, ?_, ?_, fun _ => by change 9 < 18; omega, ?_, ?_, ?_⟩
  · intro c hc; obtain rfl := (windowRunning_enabled _ _).1 hc; change 1 ≤ 1 ∧ 1 ≤ 1023; omega
  · intro c hc; obtain rfl := (windowRunning_enabled _ _).1 hc; change 2 ≤ 2500; omega
  · change overUtilised [2500] = false; decide
  · intro c hc
    obtain rfl := (windowRunning_enabled _ _).1 hc
    change ReceiveAddressable Config.params windowChannel.rxAddr.toNat 1
    rw [window_rx hw]
    exact ⟨he, le_rfl, by omega⟩
  · intro c h hc
    obtain rfl := (windowRunning_buffer _ _).1 hc
    cases h
    · change BufferAddressable Config.params windowChannel.pingAddr.toNat 1
      rw [window_ping hw]
      exact ⟨le_rfl, hl, he, le_rfl, by omega⟩
    · change BufferAddressable Config.params windowChannel.pongAddr.toNat 1
      rw [window_pong hw]
      exact ⟨le_rfl, hl, by omega, by omega, by omega⟩
  · intro c hc
    obtain rfl := (windowRunning_buffer _ _).1 hc
    exact window_distinct hw

theorem windowRunning_inv (hw : WindowOfFour) {next : Slot} (h : next.fmt = .trace ∨ next.fmt = .cmd) : BlockInv (windowRunning next) where
  steps := fun slot hs => by
    obtain rfl : slot = next := by simpa [windowRunning, State.setChan] using hs
    exact h
  memory := rfl
  running := fun _ => ⟨rfl, rfl, fun c => by rw [windowRunning_enabled]; exact (windowRunning_bits c).2.1⟩
  stopped := fun h => absurd rfl h
  session := fun _ => le_rfl
  enabled := fun c => by rw [windowRunning_enabled]; exact (windowRunning_bits c).1
  latched := windowRunning_latched hw next
  counts := fun c => by rw [windowRunning_count]; exact Nat.zero_le _
  rearmed := fun c hc _ => by obtain rfl := (windowRunning_enabled _ _).1 hc; change 0 < 1; omega
  pending := fun c hc => by
    rw [windowRunning_enabled] at hc
    refine ⟨?_, (windowRunning_bits c).2.2⟩
    change bitOf 1 c = false
    exact Bool.eq_false_iff.2 fun h => hc ((windowRunning_bits c).1.1 h)
  signalled := fun c hc => (windowRunning_buffer _ _).2 ((windowRunning_bits c).1.1 hc)

/-- An Idle block, calibrated, with a staged request, samples in MEM and an event emitted; the next step is the
given record. -/
def idleBlock (next : Slot) : State :=
  { baseline with
    calValid := true, calSeGain := 0x4000, mem := fiveWords, events := [⟨0, .dataReady⟩], input := [next] }

theorem noBits : ∀ c : Chan, bitOf 0 c = false := by decide

theorem idleBlock_inv {next : Slot} (h : next.fmt = .trace ∨ next.fmt = .cmd) : BlockInv (idleBlock next) where
  steps := fun slot hs => by
    obtain rfl : slot = next := by simpa [idleBlock] using hs
    exact h
  memory := rfl
  running := fun h => absurd h (by change ¬ PState.idle = .running; decide)
  stopped := fun _ => ⟨rfl, rfl, rfl, rfl, (by decide : irqLine State.reset = false)⟩
  session := fun h => absurd rfl h
  enabled := by unfold Enabled; change ∀ c, bitOf 0 c = true ↔ c.val < 0; decide
  latched :=
    { count := Nat.zero_le _
      ring := fun h => absurd h (by change ¬ false = true; decide)
      samples := fun _ h => absurd h (Nat.not_lt_zero _)
      factors := fun _ h => absurd h (Nat.not_lt_zero _)
      utilisation := rfl
      clockPlan := fun h => absurd h (by change ¬ 1 ≤ 0; decide)
      receive := fun _ h => absurd h (Nat.not_lt_zero _)
      halves := fun c _ h => absurd h (by change ¬ decide (c.val < 0) = true; simp)
      distinct := fun c h => absurd h (by change ¬ decide (c.val < 0) = true; simp) }
  counts := by change ∀ c, (baseline.chan c).count.toNat ≤ (baseline.chan c).aNs.toNat; decide
  rearmed := fun _ h => absurd h (Nat.not_lt_zero _)
  pending := fun c _ => ⟨noBits c, noBits c⟩
  signalled := fun c h => absurd h (by change ¬ bitOf 0 c = true; simp)

/-- A reserved opcode from the Idle block, and from the Running one. -/
theorem meets_StepKeepsTheInvariant :
    (BlockInv (idleBlock (cmdSlot 6)) ∧ ∃ t, step (idleBlock (cmdSlot 6)) = .next t) ∧
    (WindowOfFour → BlockInv (windowRunning (cmdSlot 6)) ∧ ∃ t, step (windowRunning (cmdSlot 6)) = .next t) :=
  ⟨⟨idleBlock_inv (.inr rfl), _, rfl⟩, fun hw => ⟨windowRunning_inv hw (.inr rfl), _, rfl⟩⟩
/-- A START from the Idle block, a SERVICE step from the Running one. -/
theorem meets_NoFaultUnderTheInvariant :
    BlockInv (idleBlock (cmdSlot 3)) ∧ (WindowOfFour → BlockInv (windowRunning (traceSlot 0x10 []))) :=
  ⟨idleBlock_inv (.inr rfl), fun hw => windowRunning_inv hw (.inl rfl)⟩

end Sys2Proof.Tests
end

section
/-! PROOFS. The scope family: a step runs the record it takes (R8, R10), an event is one append (R121), and no
step takes anything back from the traces (R9). -/

namespace Sys2Proof.Machine

/-! ### What a step does with the head of the input list -/

/-- A decoded head record is executed past itself (R8, R10, R126). -/
theorem step_of_decode_ok {s : State} {slot : Slot} {rest : List Slot} {i : Instr} (hin : s.input = slot :: rest)
    (hd : decode slot = .ok i) : step s = exec i { s with input := rest } := by
  simp [step, fetch, State.advance, hin, hd]

/-- A head record that is no step stops the machine (U19, log entry 21). -/
theorem step_of_decode_error {s : State} {slot : Slot} {rest : List Slot} {e : DecodeError}
    (hin : s.input = slot :: rest) (hd : decode slot = .error e) : step s = .refused (.undecodable e) := by
  simp [step, fetch, hin, hd]

/-- Without a record no agent moves (log entry 2). -/
theorem step_of_input_nil {s : State} (hin : s.input = []) : step s = .refused .endOfTrace := by
  simp [step, fetch, hin]

/-- Settles O5: the three answers of `fetch`. -/
theorem stepRunsDecodedInstruction : Obligations.StepRunsDecodedInstruction :=
  ⟨fun _ _ _ _ => step_of_decode_ok, fun _ _ _ _ => step_of_decode_error, fun _ => step_of_input_nil⟩

/-! ### The events as steps -/

/-- Settles O40: each arm of `exec` is `State.emit` of its kind, which is the append. -/
theorem eventsAreAppended : Obligations.EventsAreAppended :=
  fun _ _ => ⟨rfl, rfl, rfl, rfl⟩

/-! ### The traces only grow -/

/-- EVENTS and HWOPS of t begin with those of s (R9). -/
structure TracesExtend (s t : State) : Prop where
  events : s.events <+: t.events
  hwops : s.hwops <+: t.hwops

namespace TracesExtend

variable {s t u : State}

theorem trans (h : TracesExtend s t) (h' : TracesExtend t u) : TracesExtend s u :=
  ⟨h.events.trans h'.events, h.hwops.trans h'.hwops⟩

theorem of_eq (he : t.events = s.events) (hh : t.hwops = s.hwops) : TracesExtend s t :=
  ⟨he ▸ List.prefix_rfl, hh ▸ List.prefix_rfl⟩

theorem of_append {es : List Event} {hs : List Hwop} (he : t.events = s.events ++ es)
    (hh : t.hwops = s.hwops ++ hs) : TracesExtend s t :=
  ⟨he ▸ List.prefix_append _ _, hh ▸ List.prefix_append _ _⟩

theorem of_hwops {hs : List Hwop} (he : t.events = s.events) (hh : t.hwops = s.hwops ++ hs) : TracesExtend s t :=
  ⟨he ▸ List.prefix_rfl, hh ▸ List.prefix_append _ _⟩

theorem emit (k : EventKind) (c : Chan) (s : State) : TracesExtend s (s.emit k c) :=
  ⟨List.prefix_append _ _, List.prefix_rfl⟩

/-- An instruction that always answers with the state u. -/
theorem of_next (h : (.next u : Host.Outcome State Fault Refusal) = .next t) (hu : TracesExtend s u) :
    TracesExtend s t :=
  Host.Outcome.next.inj h ▸ hu

end TracesExtend

/-- A write outside CMD changes staging registers only, so neither trace. -/
theorem writeOffset_tracesExtend (s : State) (o : Nat) (v : Word) : TracesExtend s (writeOffset s o v) := by
  obtain ⟨ch, b, m, heq, _⟩ := writeOffset_frame s o v
  rw [heq]
  exact .of_eq rfl rfl

theorem calLoad_tracesExtend (s : State) : TracesExtend s (calLoad s) := by
  rcases calLoad_cases s with ⟨_, heq⟩ | ⟨_, _, _, heq⟩ | ⟨_, _, _, heq⟩ <;> rw [heq] <;> exact .of_eq rfl rfl

/-- A refused CONFIGURE appends nothing, an accepted one the primitives of R214. -/
theorem configureWith_tracesExtend (p : Params) (s : State) : TracesExtend s (configureWith p s) := by
  rcases configureWith_cases p s with ⟨_, _, heq⟩ | ⟨_, heq, _⟩ | ⟨sch, offs, _, _, _, heq⟩ <;> rw [heq]
  · exact .of_eq rfl rfl
  · exact .of_eq rfl rfl
  · rw [configureDone_eq]
    exact .of_hwops rfl rfl

theorem startPipeline_tracesExtend (s : State) : TracesExtend s (startPipeline s) := by
  rcases startPipeline_cases s with ⟨_, heq⟩ | ⟨_, _, heq⟩ | ⟨_, _, heq⟩ <;> rw [heq]
  · exact .of_eq rfl rfl
  · exact .of_eq rfl rfl
  · exact .of_hwops rfl rfl

theorem stopPipeline_tracesExtend (s : State) : TracesExtend s (stopPipeline s) := by
  rcases stopPipeline_cases s with ⟨_, heq⟩ | ⟨_, heq⟩ <;> rw [heq]
  · exact .of_eq rfl rfl
  · exact .of_hwops rfl rfl

/-- DEINIT resets the registers, which the traces are not (R218). -/
theorem deinitPipeline_tracesExtend (s : State) : TracesExtend s (deinitPipeline s) := by
  rw [deinitPipeline_eq]
  exact .of_hwops rfl rfl

/-- The entry read and the phases E and A append transfer errors to EVENTS and primitives to HWOPS (R230). -/
theorem serviceSwapped_tracesExtend (s : State) : TracesExtend s (serviceSwapped s) := by
  rw [serviceSwapped_eq]
  exact .of_append rfl rfl

/-- A delivery appends events only (R234). -/
theorem Delivered.tracesExtend {s t : State} (h : Delivered s t) : TracesExtend s t := by
  obtain ⟨es, hes, _⟩ := h.events
  have hhw : t.hwops = s.hwops := by rw [h.frame]
  exact ⟨hes ▸ List.prefix_append _ _, hhw ▸ List.prefix_rfl⟩

/-- SERVICE: the phases E and A, then the delivery. -/
theorem execSvc_tracesExtend {s t : State} (h : execSvc s = .next t) : TracesExtend s t := by
  obtain ⟨_, _, hdel⟩ := execSvc_next h
  exact (serviceSwapped_tracesExtend s).trans (Delivered.deliverAll hdel).tracesExtend

/-- An ENGINE step, when it is enabled, stores or sets a pending bit and appends nothing (R240 to R242). -/
theorem execEng_tracesExtend {c : Chan} {x : Half} {k w : Word16} {s t : State} (h : execEng c x k w s = .next t) :
    TracesExtend s t := by
  obtain ⟨_, _, rfl⟩ := execEng_next h
  exact .of_eq rfl rfl

theorem execHalf_tracesExtend {c : Chan} {s t : State} (h : execHalf c s = .next t) : TracesExtend s t := by
  unfold execHalf at h
  split_ifs at h
  exact .of_next h (.of_eq rfl rfl)

theorem execXerr_tracesExtend {c : Chan} {s t : State} (h : execXerr c s = .next t) : TracesExtend s t := by
  unfold execXerr at h
  split_ifs at h
  exact .of_next h (.of_eq rfl rfl)

theorem execComputeSchedule_tracesExtend {a : SchedArgs} {s t : State} (h : execComputeSchedule a s = .next t) :
    TracesExtend s t := by
  unfold execComputeSchedule at h
  split_ifs at h
  exact .of_next h (.of_eq rfl rfl)

/-- Every execution that answers only appends to the traces; a write to CMD is the command it runs. -/
theorem exec_tracesExtend {i : Instr} {s t : State} (h : exec i s = .next t) : TracesExtend s t := by
  have hwr (o : Word16) (v : Word) (_ : o ≠ 0) (ht : t = writeOffset s o.toNat v) : TracesExtend s t :=
    ht ▸ writeOffset_tracesExtend s o.toNat v
  refine exec_cases (P := fun _ => TracesExtend s t) hwr (fun _ => id) (fun i hi h => ?_) i h
  cases i with
  | wr o v => exact absurd rfl (hi o v)
  | nop | reservedCmd _ | rd _ _ | trim _ | reset | roundPow2 _ | assignOffsets _ | apply _ _ =>
    exact .of_next h (.of_eq rfl rfl)
  | calLoad => exact .of_next h (calLoad_tracesExtend s)
  | configure => exact .of_next h (configureWith_tracesExtend _ s)
  | start => exact .of_next h (startPipeline_tracesExtend s)
  | stop => exact .of_next h (stopPipeline_tracesExtend s)
  | deinit => exact .of_next h (deinitPipeline_tracesExtend s)
  | svc => exact execSvc_tracesExtend h
  | eng _ _ _ _ => exact execEng_tracesExtend h
  | half _ => exact execHalf_tracesExtend h
  | xerr _ => exact execXerr_tracesExtend h
  | computeSchedule _ => exact execComputeSchedule_tracesExtend h
  | setClockDivider _ _ | programBuffer _ _ _ _ | enableChannel _ | unmaskInterrupt _ | readInterruptStatus _
  | clearInterrupt _ | maskInterrupt _ | setClockEnable _ => exact .of_next h (.of_hwops rfl rfl)
  | dataReady c | sampleGroupComplete c | bufferFull c | transferError c => exact .of_next h (.emit _ c s)

/-- Settles O52: taking the record changes neither trace, and its execution only appends. -/
theorem tracesAreAppendOnly : Obligations.TracesAreAppendOnly := by
  intro s t h
  obtain ⟨slot, rest, i, _, _, hexec⟩ := step_next h
  obtain ⟨⟨es, hes⟩, hs, hhs⟩ := exec_tracesExtend hexec
  exact ⟨⟨es, hes.symm⟩, hs, hhs.symm⟩

end Sys2Proof.Machine
end

section
/-! PROOFS. The state family: the interrupt line (R47), commands by way of CMD (R24), the reset values (R50), which
steps move STATE, the calibration, the banks and the sticky faults (R30, R35, R37, R44). -/

namespace Sys2Proof.Machine

/-- Settles O27: IRQ_LINE is the disjunction over all sixteen channels. -/
theorem interruptLineIsPendingUnmasked : Obligations.InterruptLineIsPendingUnmasked := fun _ => irqLine_iff

/-! ### A write to CMD -/

/-- A write to CMD executes the decoded word (R24). -/
theorem exec_wr_cmd (v : Word) (s : State) : exec (.wr 0 v) s = exec (decodeCmd v) s := by
  rw [← commandOf_cmd, exec_commandOf]

/-- R113: from 6 on every opcode is reserved. -/
theorem decodeCmd_of_six_le {v : Word} (h : 6 ≤ v.toNat) : decodeCmd v = .reservedCmd v := by
  unfold decodeCmd
  split
  case h_7 => rfl
  all_goals omega

/-- No command word is itself a write to CMD, so its command is itself. -/
theorem commandOf_decodeCmd (v : Word) : commandOf (decodeCmd v) = decodeCmd v :=
  commandOf_of_ne_wr (decodeCmd_ne_wr v)

/-- Settles O6: the six opcodes by their decoding, every other word as a reserved one. -/
theorem cmdWriteRunsTheCommand : Obligations.CmdWriteRunsTheCommand := by
  intro s
  refine ⟨exec_wr_cmd 0 s, exec_wr_cmd 1 s, exec_wr_cmd 2 s, exec_wr_cmd 3 s, exec_wr_cmd 4 s, exec_wr_cmd 5 s,
    fun v hv => ?_⟩
  rw [exec_wr_cmd, decodeCmd_of_six_le hv]

/-! ### The reset values -/

/-- R50: RESULT and IRQ_MASK are the global registers that do not read 0 after reset. -/
theorem globalWord_reset (g : GlobalReg) :
    globalWord State.reset g = if g = .result then 0xFF00 else if g = .irqMask then 0xFFFF else 0 := by
  cases g <;> decide

/-- R50: a bank after reset reads 0 throughout. -/
theorem bankWord_reset (r : BankReg) : bankWord Channel.reset r = 0 := by
  cases r <;> decide

theorem chan_reset (c : Chan) : State.reset.chan c = Channel.reset := by
  simp [State.chan, State.reset]

/-- What a register reads as depends on the registers alone: not on MEM, the traces or the model's own ports. -/
theorem regWord_of_reset {t : State} (h : t.resetRegisters = t) (r : Reg) : regWord t r = regWord State.reset r := by
  rw [← h]
  cases r with
  | glob g => cases g <;> rfl
  | bank _ _ => rfl

theorem regAt_eq_glob {o : Nat} {g : GlobalReg} (h : regAt o = some (.glob g)) :
    o % 4 = 0 ∧ globalAt (o / 4) = some g := by
  unfold regAt at h
  split_ifs at h with h4 hlo hbank
  · exact ⟨not_not.1 h4, by simpa using h⟩
  · simp at h

theorem regAt_eq_result {o : Nat} : regAt o = some (.glob .result) ↔ o = 0x008 := by
  refine ⟨fun h => ?_, fun h => h ▸ by decide⟩
  obtain ⟨h4, hg⟩ := regAt_eq_glob h
  have hw : o / 4 = 2 := by unfold globalAt at hg; split at hg <;> simp_all
  omega

theorem regAt_eq_irqMask {o : Nat} : regAt o = some (.glob .irqMask) ↔ o = 0x020 := by
  refine ⟨fun h => ?_, fun h => h ▸ by decide⟩
  obtain ⟨h4, hg⟩ := regAt_eq_glob h
  have hw : o / 4 = 8 := by unfold globalAt at hg; split at hg <;> simp_all
  omega

/-- R50: every offset where all registers hold their reset values. -/
theorem readOffset_of_reset {t : State} (h : t.resetRegisters = t) (o : Nat) :
    readOffset t o = if o = 0x008 then 0x0000FF00 else if o = 0x020 then 0x0000FFFF else 0 := by
  simp only [readOffset, ← regAt_eq_result, ← regAt_eq_irqMask]
  cases regAt o with
  | none => simp
  | some r =>
    simp only [regWord_of_reset h]
    cases r with
    | glob g => simpa [regWord] using globalWord_reset g
    | bank i r => simpa [regWord, chan_reset] using bankWord_reset r

/-- Settles O26: the start of a run, the reset event and DEINIT each leave every register at its reset value. -/
theorem resetValuesReadBack : Obligations.ResetValuesReadBack := by
  refine ⟨rfl, rfl, fun s t ht => readOffset_of_reset ?_⟩
  rcases ht with rfl | ht | ht
  · rfl
  · obtain rfl : s.resetRegisters = t := Host.Outcome.next.inj ht
    rfl
  · obtain rfl : deinitPipeline s = t := Host.Outcome.next.inj ht
    rw [deinitPipeline_eq]
    rfl

/-! ### What an execution does to STATE, the calibration, the banks and the sticky faults -/

/-- STATE and the calibration stand, and no sticky fault is cleared. -/
structure KeepsRegisters (s t : State) : Prop where
  st : t.st = s.st
  cal : t.calSeOffset = s.calSeOffset ∧ t.calSeGain = s.calSeGain ∧ t.calDiffOffset = s.calDiffOffset ∧
    t.calDiffGain = s.calDiffGain ∧ t.calValid = s.calValid
  overrun : ∀ c, bitOf s.overrun c = true → bitOf t.overrun c = true
  demux : s.demuxErr = true → t.demuxErr = true

/-- As `KeepsRegisters`, and every bank stands but for its staging fields. -/
structure KeepsBanks (s t : State) : Prop extends KeepsRegisters s t where
  bank : ∀ c, (t.chan c).eraseStaging = (s.chan c).eraseStaging

theorem KeepsRegisters.trans {s t u : State} (h : KeepsRegisters s t) (h' : KeepsRegisters t u) :
    KeepsRegisters s u := by
  obtain ⟨ho, hg, hdo, hdg, hv⟩ := h.cal
  obtain ⟨ho', hg', hdo', hdg', hv'⟩ := h'.cal
  exact ⟨h'.st.trans h.st, ⟨ho'.trans ho, hg'.trans hg, hdo'.trans hdo, hdg'.trans hdg, hv'.trans hv⟩,
    fun c => h'.overrun c ∘ h.overrun c, h'.demux ∘ h.demux⟩

/-- A step that writes none of these registers, nor a bank. -/
theorem KeepsBanks.of_frame {s t : State}
    (h : t = { t with
      st := s.st, calSeOffset := s.calSeOffset, calSeGain := s.calSeGain, calDiffOffset := s.calDiffOffset
      calDiffGain := s.calDiffGain, calValid := s.calValid, overrun := s.overrun, demuxErr := s.demuxErr
      ch := s.ch }) : KeepsBanks s t := by
  rw [h]
  exact ⟨⟨rfl, ⟨rfl, rfl, rfl, rfl, rfl⟩, fun _ => id, id⟩, fun _ => rfl⟩

theorem writeOffset_keepsBanks (s : State) (o : Nat) (v : Word) : KeepsBanks s (writeOffset s o v) := by
  obtain ⟨ch, b, m, heq, hbank⟩ := writeOffset_frame s o v
  refine ⟨?_, hbank⟩
  rw [heq]
  exact ⟨rfl, ⟨rfl, rfl, rfl, rfl, rfl⟩, fun _ => id, id⟩

/-- HALF_FULL sets bits and clears none (R241). -/
theorem halfFull_keepsBanks (c : Chan) (s : State) : KeepsBanks s (halfFull c s) := by
  refine ⟨⟨rfl, ⟨rfl, rfl, rfl, rfl, rfl⟩, fun d hd => ?_, id⟩, fun _ => rfl⟩
  unfold halfFull
  split_ifs
  · simp [hd]
  · exact hd

theorem serviceSwapped_keepsRegisters (s : State) : KeepsRegisters s (serviceSwapped s) := by
  rw [serviceSwapped_eq]
  exact ⟨rfl, ⟨rfl, rfl, rfl, rfl, rfl⟩, fun _ => id, id⟩

theorem Delivered.keepsRegisters {s t : State} (h : Delivered s t) : KeepsRegisters s t := by
  refine ⟨?_, ?_, ?_, h.demux⟩ <;> rw [h.frame]
  · exact ⟨rfl, rfl, rfl, rfl, rfl⟩
  · exact fun _ => id

theorem execSvc_keepsRegisters {s t : State} (h : execSvc s = .next t) : KeepsRegisters s t := by
  obtain ⟨_, _, hdel⟩ := execSvc_next h
  exact (serviceSwapped_keepsRegisters s).trans (Delivered.deliverAll hdel).keepsRegisters

/-- What the command k can do (R30, R37, R49): only an accepted CAL_LOAD, CONFIGURE, START or STOP, DEINIT, reset
and SERVICE do more than `KeepsBanks` says. -/
inductive CommandEffect (k : Instr) (s t : State) : Prop
  | keeps (h : KeepsBanks s t)
  | service (hk : k = .svc) (h : KeepsRegisters s t)
  | calLoad (hk : k = .calLoad) (hv : s.calValid = false) (a : TrimAnswers)
      (ht : t = (latchCal a (trimAsked s)).succeed)
  | configure (hk : k = .configure) (hs : s.st = .idle) (sch : Schedule) (offs : List Nat)
      (ht : t = configureDone s sch offs)
  | start (hk : k = .start) (hs : s.st = .configured) (hv : s.calValid = true) (ht : t = startPipeline s)
  | stop (hk : k = .stop) (hs : s.st ≠ .idle) (ht : t = stopPipeline s)
  | deinit (hk : k = .deinit) (ht : t = deinitPipeline s)
  | reset (hk : k = .reset) (ht : t = s.resetRegisters)

theorem CommandEffect.calLoad_next (s : State) : CommandEffect .calLoad s (Machine.calLoad s) := by
  unfold Machine.calLoad
  split_ifs with hst hv hr
  · exact .keeps (.of_frame rfl)
  · exact .keeps (.of_frame rfl)
  · exact .calLoad rfl (by simpa using hv) _ rfl
  · exact .keeps (.of_frame rfl)

theorem CommandEffect.configure_next (p : Params) (s : State) : CommandEffect .configure s (configureWith p s) := by
  rcases configureWith_cases p s with ⟨_, _, heq⟩ | ⟨_, heq, _⟩ | ⟨sch, offs, hval, _, _, heq⟩ <;> rw [heq]
  · exact .keeps (.of_frame rfl)
  · exact .keeps (.of_frame rfl)
  · exact .configure rfl (validate_eq_none.1 hval).idle sch offs rfl

theorem CommandEffect.start_next (s : State) : CommandEffect .start s (startPipeline s) := by
  rcases startPipeline_cases s with ⟨_, heq⟩ | ⟨_, _, heq⟩ | ⟨hst, hv, _⟩
  · exact .keeps (.of_frame (heq ▸ rfl))
  · exact .keeps (.of_frame (heq ▸ rfl))
  · exact .start rfl hst hv rfl

theorem CommandEffect.stop_next (s : State) : CommandEffect .stop s (stopPipeline s) := by
  rcases stopPipeline_cases s with ⟨_, heq⟩ | ⟨hst, _⟩
  · exact .keeps (.of_frame (heq ▸ rfl))
  · exact .stop rfl hst rfl

/-- An instruction that always answers with the state u. -/
theorem CommandEffect.of_next {k : Instr} {s t u : State} (h : (.next u : Host.Outcome State Fault Refusal) = .next t)
    (hu : CommandEffect k s u) : CommandEffect k s t :=
  Host.Outcome.next.inj h ▸ hu

/-- What an execution that answers can do, by the command it runs. -/
theorem exec_effect {i : Instr} {s t : State} (h : exec i s = .next t) : CommandEffect (commandOf i) s t := by
  refine exec_cases (P := fun i => CommandEffect (commandOf i) s t) (fun o v _ ht => ?_) (fun v hv => ?_)
    (fun i hi h => ?_) i h
  · exact ht ▸ .keeps (writeOffset_keepsBanks s o.toNat v)
  · rwa [commandOf_cmd, ← commandOf_decodeCmd]
  · rw [commandOf_of_ne_wr hi]
    cases i with
    | wr o v => exact absurd rfl (hi o v)
    | nop | reservedCmd _ | rd _ _ | trim _ | roundPow2 _ | assignOffsets _ | apply _ _ | setClockDivider _ _
    | programBuffer _ _ _ _ | enableChannel _ | unmaskInterrupt _ | readInterruptStatus _ | clearInterrupt _
    | maskInterrupt _ | setClockEnable _ | dataReady _ | sampleGroupComplete _ | bufferFull _ | transferError _ =>
      exact .of_next h (.keeps (.of_frame rfl))
    | calLoad => exact .of_next h (.calLoad_next s)
    | configure => exact .of_next h (.configure_next _ s)
    | start => exact .of_next h (.start_next s)
    | stop => exact .of_next h (.stop_next s)
    | deinit => exact .of_next h (.deinit rfl rfl)
    | reset => exact .of_next h (.reset rfl rfl)
    | svc => exact .service rfl (execSvc_keepsRegisters h)
    | eng _ _ _ _ =>
      obtain ⟨_, _, rfl⟩ := execEng_next h
      exact .keeps (.of_frame rfl)
    | half c =>
      simp only [exec, execHalf] at h
      split_ifs at h
      exact .of_next h (.keeps (halfFull_keepsBanks c s))
    | xerr _ =>
      simp only [exec, execXerr] at h
      split_ifs at h
      exact .of_next h (.keeps (.of_frame rfl))
    | computeSchedule _ =>
      simp only [exec, execComputeSchedule] at h
      split_ifs at h
      exact .of_next h (.keeps (.of_frame rfl))

/-- A command that no CMD word is the opcode of is the instruction itself. -/
theorem eq_of_commandOf_eq {i k : Instr} (h : commandOf i = k) (hk : ∀ v, decodeCmd v ≠ k) : i = k := by
  by_cases hi : ∃ v, i = .wr 0 v
  · obtain ⟨v, rfl⟩ := hi
    exact absurd (commandOf_cmd v ▸ h) (hk v)
  · rw [← h]
    cases i with
    | wr o v => exact (commandOf_wr v fun ho => hi ⟨v, ho ▸ rfl⟩).symm
    | _ => rfl

theorem decodeCmd_ne_svc (v : Word) : decodeCmd v ≠ .svc := by
  unfold decodeCmd; split <;> simp

theorem decodeCmd_ne_reset (v : Word) : decodeCmd v ≠ .reset := by
  unfold decodeCmd; split <;> simp

/-- SERVICE and the reset event are no commands (R112), so an instruction runs as one only by being it. -/
theorem eq_svc_of_commandOf {i : Instr} (h : commandOf i = .svc) : i = .svc := eq_of_commandOf_eq h decodeCmd_ne_svc

theorem eq_reset_of_commandOf {i : Instr} (h : commandOf i = .reset) : i = .reset :=
  eq_of_commandOf_eq h decodeCmd_ne_reset

/-- Settles O53: one case per effect; the others keep STATE. -/
theorem stateTransitions : Obligations.StateTransitions := by
  intro i s t h hne
  cases exec_effect h with
  | keeps hk => exact absurd hk.st hne
  | service _ hk => exact absurd hk.st hne
  | calLoad _ _ a ht => exact absurd (congrArg State.st ht) hne
  | configure hi hs sch offs ht => exact .inl ⟨hi, hs, ht ▸ configureDone_eq s sch offs ▸ rfl⟩
  | start hi hs hv ht => exact .inr (.inl ⟨hi, hs, hv, ht ▸ startPipeline_eq hs hv ▸ rfl⟩)
  | stop hi hs ht => exact .inr (.inr (.inl ⟨hi, hs, ht ▸ stopPipeline_eq hs ▸ rfl⟩))
  | deinit hi ht => exact .inr (.inr (.inr (.inl ⟨hi, ht ▸ deinitPipeline_eq s ▸ rfl⟩)))
  | reset hi ht => exact .inr (.inr (.inr (.inr ⟨eq_reset_of_commandOf hi, ht ▸ rfl⟩)))

/-- Settles O51: CAL_LOAD is excluded where it is accepted, and every other effect leaves the calibration. -/
theorem calibrationIsImmutable : Obligations.CalibrationIsImmutable := by
  intro i s t h hdeinit hreset hload
  cases exec_effect h with
  | keeps hk => exact hk.cal
  | service _ hk => exact hk.cal
  | calLoad hi hv _ _ => exact absurd hi (hload.resolve_left (by simp [hv]))
  | configure _ _ sch offs ht => rw [ht, configureDone_eq]; exact ⟨rfl, rfl, rfl, rfl, rfl⟩
  | start _ hs hv ht => rw [ht, startPipeline_eq hs hv]; exact ⟨rfl, rfl, rfl, rfl, rfl⟩
  | stop _ hs ht => rw [ht, stopPipeline_eq hs]; exact ⟨rfl, rfl, rfl, rfl, rfl⟩
  | deinit hi _ => exact absurd hi hdeinit
  | reset hi _ => exact absurd (eq_reset_of_commandOf hi) hreset

/-- Settles O55: from Running CONFIGURE and START are refused, and the writers of banks left are the excluded ones. -/
theorem onlyServiceMovesTheBanksWhileRunning : Obligations.OnlyServiceMovesTheBanksWhileRunning := by
  intro i s t h hrun hsvc hreset hstop hdeinit
  cases exec_effect h with
  | keeps hk => exact hk.bank
  | service hi _ => exact absurd (eq_svc_of_commandOf hi) hsvc
  | calLoad _ _ _ ht => exact fun c => ht ▸ rfl
  | configure _ hs _ _ _ => simp [hrun] at hs
  | start _ hs _ _ => simp [hrun] at hs
  | stop hi _ _ => exact absurd hi hstop
  | deinit hi _ => exact absurd hi hdeinit
  | reset hi _ => exact absurd (eq_reset_of_commandOf hi) hreset

/-- Settles O56: an accepted CONFIGURE, DEINIT and reset are excluded; HALF_FULL and SERVICE only set faults. -/
theorem faultFlagsAreSticky : Obligations.FaultFlagsAreSticky := by
  intro i s t h hconf hdeinit hreset
  cases exec_effect h with
  | keeps hk => exact ⟨hk.overrun, hk.demux⟩
  | service _ hk => exact ⟨hk.overrun, hk.demux⟩
  | calLoad _ _ _ ht => rw [ht]; exact ⟨fun _ => id, id⟩
  | configure hi hs sch offs ht => exact absurd ⟨hi, ht ▸ configureDone_eq s sch offs ▸ rfl, hs⟩ hconf
  | start _ hs hv ht => rw [ht, startPipeline_eq hs hv]; exact ⟨fun _ => id, id⟩
  | stop _ hs ht => rw [ht, stopPipeline_eq hs]; exact ⟨fun _ => id, id⟩
  | deinit hi _ => exact absurd hi hdeinit
  | reset hi _ => exact absurd (eq_reset_of_commandOf hi) hreset

end Sys2Proof.Machine
end

section
/-! PROOFS. The invariant of R51: what a schedule is when CONFIGURE latches it (R42, R31), the steps inside a session,
the steps that change STATE, and the reset state. -/

namespace Sys2Proof.Machine

/-! ### What `compute_schedule` answers, as far as the latch needs it -/

/-- The factors of a schedule for n channels are in range and not over-utilised, and the clock plan fits its
registers with room for the hold time (R42, R31). -/
structure LegalSchedule (n : Nat) (sch : Schedule) : Prop where
  length : sch.sf.length = n
  range : ∀ x ∈ sch.sf, 2 ≤ x ∧ x ≤ 65535
  fits : overUtilised sch.sf = false
  clock : sch.on < sch.total
  total : sch.total < 2 ^ 32

/-- Doubling keeps factors in range: it never lowers one, and the loop checks the top (R156, R157). -/
theorem relieve_range {sf out : List Nat} (h : relieve sf = some out) (hsf : ∀ x ∈ sf, 2 ≤ x ∧ x ≤ 65535) :
    ∀ x ∈ out, 2 ≤ x ∧ x ≤ 65535 := by
  obtain ⟨_, j, rfl, htop⟩ := relieve_spec h
  intro y hy
  obtain ⟨x, hx, rfl⟩ := List.mem_map.1 hy
  obtain ⟨hlo, hhi⟩ := hsf x hx
  refine ⟨hlo.trans (Nat.le_mul_of_pos_left x (Nat.two_pow_pos j)), ?_⟩
  rcases Nat.eq_zero_or_pos j with rfl | hj
  · simpa using hhi
  · exact htop hj _ hy

/-- Step 5 keeps the range, the number of factors and the utilisation (R159). -/
theorem singleSample_range {ns0 : Nat} {sf out : List Nat} (h : singleSample ns0 sf = some out)
    (hsf : ∀ x ∈ sf, 2 ≤ x ∧ x ≤ 65535) (hu : overUtilised sf = false) :
    (∀ x ∈ out, 2 ≤ x ∧ x ≤ 65535) ∧ overUtilised out = false ∧ out.length = sf.length := by
  cases sf with
  | nil =>
    obtain rfl := Option.some.inj h
    exact ⟨hsf, hu, rfl⟩
  | cons x xs =>
    simp only [singleSample] at h
    split_ifs at h with h1
    · have hx := hsf x List.mem_cons_self
      have hquarter : ∀ y ∈ max 2 (x / 4) :: xs, 2 ≤ y ∧ y ≤ 65535 := by
        refine List.forall_mem_cons.2 ⟨by omega, fun y hy => hsf y (List.mem_cons_of_mem _ hy)⟩
      obtain ⟨hfit, j, hout, _⟩ := relieve_spec h
      exact ⟨relieve_range h hquarter, hfit, by simp [hout]⟩
    · obtain rfl := Option.some.inj h
      exact ⟨hsf, hu, rfl⟩

/-- R160: the hold time is one of the channels' hold times, so at most DELAY_TABLE's last entry. -/
theorem holdNs_le {delay : Nat → Nat} (hd : ∀ g, delay g ≤ 65535) (chans : List SchedChan) :
    holdNs delay chans ≤ 65535 := by
  rcases foldl_max_mem (chans.map (channelHold delay)) 0 with h | h
  · rw [holdNs, h]; omega
  · obtain ⟨c, _, hc⟩ := List.mem_map.1 h
    rw [holdNs, ← hc, channelHold]
    have := hd c.gain.toNat
    split_ifs <;> omega

/-- A longer span of time is not fewer cycles. -/
theorem cdiv_mono {a b d : Nat} (hd : 0 < d) (h : a ≤ b) : cdiv a d ≤ cdiv b d :=
  (cdiv_le_iff hd).2 (h.trans (le_cdiv_mul b hd))

/-- R161, R162: the conversion leaves at least one cycle after the hold time. -/
theorem onCyclesOf_lt_totalCyclesOf (base hold : Nat) : onCyclesOf base hold < totalCyclesOf base hold := by
  have hle : onCyclesOf base hold ≤ cdiv (base * (hold + 100)) 1000000000 := by
    refine cdiv_mono (by norm_num) ?_
    rw [Nat.mul_comm hold]
    exact Nat.mul_le_mul_left base (by omega)
  unfold totalCyclesOf
  split_ifs <;> omega

/-- R31: the total of a base clock and a hold time in range fits 32 bits. -/
theorem totalCyclesOf_lt {base hold : Nat} (hb : base < 2 ^ 32) (hh : hold ≤ 65535) :
    totalCyclesOf base hold < 2 ^ 32 := by
  have hle : cdiv (base * (hold + 100)) 1000000000 ≤ 2 ^ 31 := by
    refine (cdiv_le_iff (by norm_num)).2 ?_
    have := Nat.mul_le_mul hb.le (show hold + 100 ≤ 65635 by omega)
    omega
  unfold totalCyclesOf
  split_ifs <;> omega

/-- R163: the static override only raises the total, to no more than the base clock. -/
theorem le_staticTotal (static : Bool) (base rate0 total : Nat) : total ≤ staticTotal static base rate0 total := by
  unfold staticTotal
  split_ifs with h
  · simp only [Bool.and_eq_true, decide_eq_true_eq] at h
    exact h.2.le
  · exact le_rfl

theorem staticTotal_lt {static : Bool} {base rate0 total b : Nat} (hr : 1 ≤ rate0) (hb : base < b) (ht : total < b) :
    staticTotal static base rate0 total < b := by
  have hle : cdiv base rate0 ≤ base := (cdiv_le_iff hr).2 (Nat.le_mul_of_pos_right base hr)
  unfold staticTotal
  split_ifs <;> omega

/-- R42, R31: a schedule computed for rates of at least 1 is legal. -/
theorem computeSchedule_legal {delay : Nat → Nat} {a : SchedArgs} {sch : Schedule} (hd : ∀ g, delay g ≤ 65535)
    (hb : a.base < 2 ^ 32) (hr : ∀ c ∈ a.chans, 1 ≤ c.rate) (h : computeSchedule delay a = some sch) :
    LegalSchedule a.chans.length sch := by
  obtain ⟨sf0, hsf, hss, hon, htot⟩ := computeSchedule_eq_some h
  have hrates : ∀ r ∈ a.chans.map (·.rate), 1 ≤ r := List.forall_mem_map.2 hr
  have hfirst : 1 ≤ (a.chans.map (·.rate)).headD 0 := by
    cases hc : a.chans with
    | nil => simp [hc, slotFactors] at hsf
    | cons c cs => exact hr c (hc ▸ List.mem_cons_self)
  obtain ⟨hlaws, hlen⟩ := slotFactors_laws hsf hrates
  obtain ⟨hrange, hfits, hlen'⟩ := singleSample_range hss (fun x hx => ⟨hlaws.low x hx, hlaws.high x hx⟩) hlaws.fits
  refine ⟨by simpa [hlen] using hlen', hrange, hfits, ?_, ?_⟩
  · rw [hon, htot]
    exact (onCyclesOf_lt_totalCyclesOf _ _).trans_le (le_staticTotal _ _ _ _)
  · rw [htot]
    exact staticTotal_lt hfirst hb (totalCyclesOf_lt hb (holdNs_le hd a.chans))

/-- The schedule of a valid request is legal, with one factor per requested channel. -/
theorem RequestValid.legalSchedule {p : Params} {s : State} {sch : Schedule} (hp : ParamsOk p) (hv : RequestValid p s)
    (h : computeSchedule p.delay (schedArgs s) = some sch) : LegalSchedule s.mode.n.toNat sch := by
  obtain ⟨_, _, _, _, _, _, _, hdelay⟩ := hp
  obtain ⟨_, hn, _⟩ := hv.count
  have hlen : (schedArgs s).chans.length = s.mode.n.toNat := by simp [schedArgs, length_chansBelow hn]
  rw [← hlen]
  refine computeSchedule_legal hdelay s.baseClk.isLt (List.forall_mem_map.2 fun i hi => ?_) h
  obtain ⟨hrate, _⟩ := hv.rates i (mem_chansBelow.1 hi)
  exact hrate

/-! ### What CONFIGURE latched stays latched -/

/-- A bank's active registers (R23, R29): without staging and run-time fields. -/
def Channel.latchedPart (c : Channel) : Channel := { c.eraseStaging with count := 0, half := .ping }

/-- t has the active configuration of s. -/
structure SameLatch (s t : State) : Prop where
  actMode : t.actMode = s.actMode
  onCycles : t.onCycles = s.onCycles
  totalCycles : t.totalCycles = s.totalCycles
  bank : ∀ c, (t.chan c).latchedPart = (s.chan c).latchedPart

namespace SameLatch

variable {s t : State}

theorem activeN (h : SameLatch s t) : t.activeN = s.activeN := by
  rw [State.activeN, h.actMode, State.activeN]

theorem enabled (h : SameLatch s t) (c : Chan) : Enabled t c ↔ Enabled s c := by
  rw [Enabled, h.activeN, Enabled]

theorem isBufferChan (h : SameLatch s t) (c : Chan) : isBufferChan t c = isBufferChan s c := by
  unfold Machine.isBufferChan
  rw [h.actMode, h.activeN]

/-- An active field is the same in both states. -/
theorem field {α : Type} (h : SameLatch s t) (f : Channel → α) (hf : ∀ x, f x.latchedPart = f x) (c : Chan) :
    f (t.chan c) = f (s.chan c) := by
  rw [← hf, h.bank, hf]

theorem aNs (h : SameLatch s t) (c : Chan) : (t.chan c).aNs = (s.chan c).aNs := h.field _ (fun _ => rfl) c

theorem sf (h : SameLatch s t) (c : Chan) : (t.chan c).sf = (s.chan c).sf := h.field _ (fun _ => rfl) c

theorem aRxAddr (h : SameLatch s t) (c : Chan) : (t.chan c).aRxAddr = (s.chan c).aRxAddr :=
  h.field _ (fun _ => rfl) c

theorem halfAddr (h : SameLatch s t) (c : Chan) (x : Half) : halfAddr t c x = halfAddr s c x := by
  cases x with
  | ping => exact h.field Channel.aPingAddr (fun _ => rfl) c
  | pong => exact h.field Channel.aPongAddr (fun _ => rfl) c

theorem halfLen (h : SameLatch s t) (c : Chan) (x : Half) : halfLen t c x = halfLen s c x := by
  cases x with
  | ping => exact h.field Channel.aPingLen (fun _ => rfl) c
  | pong => exact h.field Channel.aPongLen (fun _ => rfl) c

theorem activeFactors (h : SameLatch s t) : activeFactors t = activeFactors s := by
  simp only [Machine.activeFactors, h.activeN, h.sf]

/-- The laws of the latched configuration read nothing else. -/
theorem latchedOk {p : Params} (h : SameLatch s t) (hs : LatchedOk p s) : LatchedOk p t where
  count := by rw [h.activeN]; exact hs.count
  ring := by rw [h.actMode, h.activeN]; exact hs.ring
  samples c hc := by rw [h.aNs]; exact hs.samples c ((h.enabled c).1 hc)
  factors c hc := by rw [h.sf]; exact hs.factors c ((h.enabled c).1 hc)
  utilisation := by rw [h.activeFactors]; exact hs.utilisation
  clockPlan := by rw [h.activeN, h.onCycles, h.totalCycles]; exact hs.clockPlan
  receive c hc := by rw [h.aRxAddr, h.aNs]; exact hs.receive c ((h.enabled c).1 hc)
  halves c x hc := by rw [h.halfAddr, h.halfLen]; exact hs.halves c x (h.isBufferChan c ▸ hc)
  distinct c hc := by
    rw [h.field Channel.aPingAddr (fun _ => rfl), h.field Channel.aPongAddr (fun _ => rfl)]
    exact hs.distinct c (h.isBufferChan c ▸ hc)

end SameLatch

/-- A buffer channel is enabled: the ring's channel 0 too, since a ring has a channel (R220). -/
theorem LatchedOk.enabled_of_isBufferChan {p : Params} {s : State} (h : LatchedOk p s) {c : Chan}
    (hc : isBufferChan s c = true) : Enabled s c := by
  unfold isBufferChan at hc
  split_ifs at hc with hr
  · obtain rfl := of_decide_eq_true hc
    exact h.ring hr
  · simpa [Enabled] using hc

/-! ### MEM and the fill counters -/

/-- The laws of R51 about MEM and the fill counters. -/
structure FillInv (s : State) : Prop where
  memory : s.mem.wf = true
  counts : CountsOk s
  rearmed : ∀ c, Enabled s c → s.actMode.ard = false → (s.chan c).count.toNat < (s.chan c).aNs.toNat

namespace FillInv

variable {s t : State}

theorem of_sameCounts (h : FillInv s) (hl : SameLatch s t) (hm : t.mem.wf = true)
    (hc : ∀ c, (t.chan c).count = (s.chan c).count) : FillInv t where
  memory := hm
  counts c := by rw [hc, hl.aNs]; exact h.counts c
  rearmed c he ha := by rw [hc, hl.aNs]; exact h.rearmed c ((hl.enabled c).1 he) (hl.actMode ▸ ha)

/-- A routed sample moves one counter, and only below its threshold; with auto-reset it does not stop there
(R232). -/
theorem route {u : Chan} {w : Word16} {d d' : Drain} (h : FillInv d.s) (hr : route u w d = .ok d') :
    FillInv d'.s := by
  rcases route_cases hr with ⟨_, rfl⟩ | ⟨hne, haddr, rfl⟩
  · exact h
  · have hlt := count_lt_of_ne hne (h.counts u)
    refine ⟨Memory.wf_write16 _ haddr h.memory, fun c => ?_, fun c he ha => ?_⟩
    · rw [chan_setChan]
      split_ifs with hc
      · simp only [toNat_nextCount hlt]
        split_ifs <;> omega
      · exact h.counts c
    · rw [chan_setChan]
      split_ifs with hc
      · have hard : d.s.actMode.ard = false := ha
        simp only [toNat_nextCount hlt, hard, and_true]
        split_ifs <;> omega
      · exact h.rearmed c he ha

theorem deliver {c : Chan} {w : Word16} {d d' : Drain} (h : FillInv d.s) (hd : deliver c w d = .ok d') :
    FillInv d'.s := by
  rcases deliver_cases hd with ⟨_, hr⟩ | ⟨_, _, hr⟩ | ⟨_, _, rfl⟩
  · exact h.route hr
  · exact h.route hr
  · exact ⟨h.memory, h.counts, h.rearmed⟩

theorem drain {c : Chan} {x : Half} (h : FillInv s) (hd : drain c x s = .ok t) : FillInv t := by
  obtain ⟨d, hf, rfl⟩ := drain_cases hd
  have hd : FillInv d.s :=
    drainFrom_induction (P := fun d e => FillInv d.s → FillInv e.s) (fun _ => id) (fun h h' => h' ∘ h)
      (fun hs h => h.deliver hs) hf h
  exact ⟨hd.memory, hd.counts, hd.rearmed⟩

theorem deliverAll {l : List (Chan × Half)} (h : FillInv s) (hd : deliverAll l s = .ok t) : FillInv t := by
  induction l generalizing s with
  | nil => exact Except.ok.inj hd ▸ h
  | cons x l ih =>
    obtain ⟨u, hx, hl⟩ := deliverAll_cons hd
    exact ih (h.drain hx) hl

end FillInv

theorem BlockInv.fillInv {s : State} (h : BlockInv s) : FillInv s := ⟨h.memory, h.counts, h.rearmed⟩

/-! ### Steps inside a session -/

/-- STATE, the masks and the active configuration stand; a pending bit that appears is one ENGINE may set while
Running (R241, R242). -/
structure SessionStep (s t : State) : Prop where
  frame : t = { t with
    st := s.st, clkEn := s.clkEn, irqMask := s.irqMask, chEn := s.chEn, actMode := s.actMode
    onCycles := s.onCycles, totalCycles := s.totalCycles, input := s.input }
  bank : ∀ c, (t.chan c).latchedPart = (s.chan c).latchedPart
  calValid : s.calValid = true → t.calValid = true
  full : ∀ c, bitOf t.irqStatus c = true → bitOf s.irqStatus c = true ∨ s.st = .running ∧ isBufferChan s c = true
  error : ∀ c, bitOf t.errStatus c = true → bitOf s.errStatus c = true ∨ s.st = .running ∧ Enabled s c
  fill : FillInv s → FillInv t

theorem SessionStep.sameLatch {s t : State} (h : SessionStep s t) : SameLatch s t :=
  ⟨by rw [h.frame], by rw [h.frame], by rw [h.frame], h.bank⟩

/-- Such a step keeps the laws of R51. -/
theorem BlockInv.sessionStep {s t : State} (h : BlockInv s) (hs : SessionStep s t) : BlockInv t := by
  have hfill := hs.fill h.fillInv
  have hl := hs.sameLatch
  have hst : t.st = s.st := by rw [hs.frame]
  have hmask : t.irqMask = s.irqMask := by rw [hs.frame]
  have hclk : t.clkEn = s.clkEn := by rw [hs.frame]
  have hfull (c : Chan) (hc : bitOf t.irqStatus c = true) : isBufferChan s c = true :=
    (hs.full c hc).elim (h.signalled c) And.right
  have hstopped (hn : s.st ≠ .running) : t.irqStatus = 0 ∧ t.errStatus = 0 := by
    obtain ⟨hirq, herr, _⟩ := h.stopped hn
    refine ⟨eq_zero_of_bits fun c => ?_, eq_zero_of_bits fun c => ?_⟩
    · refine Bool.eq_false_iff.2 fun hc => ?_
      rcases hs.full c hc with hb | ⟨hr, _⟩
      · simp [hirq] at hb
      · exact hn hr
    · refine Bool.eq_false_iff.2 fun hc => ?_
      rcases hs.error c hc with hb | ⟨hr, _⟩
      · simp [herr] at hb
      · exact hn hr
  exact {
    steps := by rw [hs.frame]; exact h.steps
    memory := hfill.memory
    running := fun hr => by
      obtain ⟨hv, hck, hmk⟩ := h.running (hst ▸ hr)
      refine ⟨hs.calValid hv, hclk.trans hck, fun c => ?_⟩
      rw [hmask, hl.enabled]
      exact hmk c
    stopped := fun hn => by
      obtain ⟨hirq, herr⟩ := hstopped (hst ▸ hn)
      obtain ⟨_, _, hmk, hck, _⟩ := h.stopped (hst ▸ hn)
      exact ⟨hirq, herr, hmask.trans hmk, hclk.trans hck, irqLine_eq_false.2 (by simp [hirq, herr])⟩
    session := fun hi => by rw [hl.activeN]; exact h.session (hst ▸ hi)
    enabled := fun c => by rw [hl.enabled, hs.frame]; exact h.enabled c
    latched := hl.latchedOk h.latched
    counts := hfill.counts
    rearmed := hfill.rearmed
    pending := fun c hc => by
      rw [hl.enabled] at hc
      refine ⟨Bool.eq_false_iff.2 fun hb => ?_, Bool.eq_false_iff.2 fun hb => ?_⟩
      · exact hc (h.latched.enabled_of_isBufferChan (hfull c hb))
      · obtain ⟨_, herr⟩ := h.pending c hc
        rcases hs.error c hb with hb | ⟨_, he⟩
        · simp [herr] at hb
        · exact hc he
    signalled := fun c hc => by rw [hl.isBufferChan]; exact hfull c hc }

namespace SessionStep

variable {s t : State}

/-- A step that writes none of the registers the laws read but CAL_VALID, which it may only set. -/
theorem of_frame (hv : s.calValid = true → t.calValid = true)
    (h : t = { t with
      st := s.st, clkEn := s.clkEn, irqMask := s.irqMask, irqStatus := s.irqStatus, errStatus := s.errStatus
      chEn := s.chEn, input := s.input, actMode := s.actMode, onCycles := s.onCycles
      totalCycles := s.totalCycles, ch := s.ch, mem := s.mem }) : SessionStep s t := by
  generalize hcal : t.calValid = v at hv
  rw [h]
  exact ⟨rfl, fun _ => rfl, fun hs => hcal.trans (hv hs), fun _ => .inl, fun _ => .inl,
    fun hf => ⟨hf.memory, hf.counts, hf.rearmed⟩⟩

/-- A write outside CMD moves staging fields only (R49). -/
theorem writeOffset (s : State) (o : Nat) (v : Word) : SessionStep s (writeOffset s o v) := by
  obtain ⟨ch, b, m, heq, hstaging⟩ := writeOffset_frame s o v
  have hbank (c : Chan) : ((Machine.writeOffset s o v).chan c).latchedPart = (s.chan c).latchedPart := by
    simp only [Channel.latchedPart, hstaging]
  have hcount (c : Chan) : ((Machine.writeOffset s o v).chan c).count = (s.chan c).count := by
    have h := congrArg Channel.count (hstaging c)
    exact h
  have hmem : (Machine.writeOffset s o v).mem = s.mem := by rw [heq]
  refine ⟨by rw [heq], hbank, by rw [heq]; exact id, by rw [heq]; exact fun _ => .inl,
    by rw [heq]; exact fun _ => .inl, fun hf => hf.of_sameCounts ?_ (hmem ▸ hf.memory) hcount⟩
  exact ⟨by rw [heq], by rw [heq], by rw [heq], hbank⟩

/-- The phases E and A clear pending bits and toggle halves (R230). -/
theorem serviceSwapped (s : State) : SessionStep s (serviceSwapped s) := by
  have hbank (c : Chan) : ((Machine.serviceSwapped s).chan c).latchedPart = (s.chan c).latchedPart := by
    rw [chan_serviceSwapped]
    split_ifs <;> rfl
  have hcount (c : Chan) : ((Machine.serviceSwapped s).chan c).count = (s.chan c).count := by
    rw [chan_serviceSwapped]
    split_ifs <;> rfl
  have heq := serviceSwapped_eq s
  have hmem : (Machine.serviceSwapped s).mem = s.mem := by rw [heq]
  refine ⟨by rw [heq], hbank, by rw [heq]; exact id, fun c hc => .inl ?_, fun c hc => .inl ?_,
    fun hf => hf.of_sameCounts ⟨by rw [heq], by rw [heq], by rw [heq], hbank⟩ (hmem ▸ hf.memory) hcount⟩
  · rw [heq, bitOf_foldl_clearBit, Bool.and_eq_true] at hc
    exact hc.left
  · rw [heq, bitOf_foldl_clearBit, Bool.and_eq_true] at hc
    exact hc.left

/-- ENG_WRITE stores inside MEM (R240). -/
theorem execEng {c : Chan} {x : Half} {k w : Word16} (h : execEng c x k w s = .next t) : SessionStep s t := by
  obtain ⟨_, haddr, rfl⟩ := execEng_next h
  exact ⟨rfl, fun _ => rfl, id, fun _ => .inl, fun _ => .inl,
    fun hf => ⟨Memory.wf_write16 _ haddr hf.memory, hf.counts, hf.rearmed⟩⟩

/-- HALF_FULL raises the bit of a buffer channel, while Running (R241). -/
theorem execHalf {c : Chan} (h : execHalf c s = .next t) : SessionStep s t := by
  unfold Machine.execHalf at h
  split_ifs at h with hen
  obtain rfl : halfFull c s = t := Host.Outcome.next.inj h
  simp only [halfFullEnabled, Bool.and_eq_true, decide_eq_true_eq] at hen
  obtain ⟨⟨hrun, _⟩, hbuf⟩ := hen
  refine ⟨rfl, fun _ => rfl, id, fun d hd => ?_, fun _ => .inl, fun hf => ⟨hf.memory, hf.counts, hf.rearmed⟩⟩
  simp only [halfFull, bitOf_setBit, Bool.or_eq_true, decide_eq_true_eq] at hd
  rcases hd with hd | rfl
  · exact .inl hd
  · exact .inr ⟨hrun, hbuf⟩

/-- XFER_ERROR raises the bit of an enabled channel, while Running (R242). -/
theorem execXerr {c : Chan} (h : execXerr c s = .next t) : SessionStep s t := by
  unfold Machine.execXerr at h
  split_ifs at h with hen
  obtain rfl := Host.Outcome.next.inj h
  simp only [xferErrorEnabled, Bool.and_eq_true, decide_eq_true_eq] at hen
  obtain ⟨hrun, hc⟩ := hen
  refine ⟨rfl, fun _ => rfl, id, fun _ => .inl, fun d hd => ?_, fun hf => ⟨hf.memory, hf.counts, hf.rearmed⟩⟩
  simp only [bitOf_setBit, Bool.or_eq_true, decide_eq_true_eq] at hd
  rcases hd with hd | rfl
  · exact .inl hd
  · exact .inr ⟨hrun, hc⟩

/-- A delivery moves MEM and the fill counters, and keeps their laws (R231 to R234). -/
theorem deliverAll {l : List (Chan × Half)} (h : deliverAll l s = .ok t) : SessionStep s t := by
  have hd := Delivered.deliverAll h
  refine ⟨by rw [hd.frame], fun c => ?_, by rw [hd.frame]; exact id, by rw [hd.frame]; exact fun _ => .inl,
    by rw [hd.frame]; exact fun _ => .inl, fun hf => hf.deliverAll h⟩
  rw [hd.bank c]
  rfl

/-- CAL_LOAD writes the calibration, RESULT and the model's own ports (R192). -/
theorem calLoad (s : State) : SessionStep s (calLoad s) := by
  rcases calLoad_cases s with ⟨_, heq⟩ | ⟨_, _, _, heq⟩ | ⟨_, _, _, heq⟩ <;> rw [heq]
  · exact .of_frame id rfl
  · exact .of_frame id rfl
  · exact .of_frame (fun _ => rfl) rfl

end SessionStep

/-- SERVICE keeps the laws through its phases E and A and through the delivery (R230). -/
theorem BlockInv.execSvc {s t : State} (h : BlockInv s) (ht : execSvc s = .next t) : BlockInv t := by
  obtain ⟨_, _, hdel⟩ := execSvc_next ht
  exact (h.sessionStep (.serviceSwapped s)).sessionStep (.deliverAll hdel)

/-! ### Steps that change STATE -/

/-- The reset values meet the laws, whatever stands in MEM and the traces (R50, R51). -/
theorem blockInv_resetRegisters {s : State} (hin : ∀ slot ∈ s.input, slot.fmt = .trace ∨ slot.fmt = .cmd)
    (hm : s.mem.wf = true) : BlockInv s.resetRegisters := by
  have hdis (c : Chan) : ¬ Enabled s.resetRegisters c := Nat.not_lt_zero _
  have hbuf (c : Chan) : isBufferChan s.resetRegisters c ≠ true := by
    simp [isBufferChan, State.activeN, State.reset]
  have hcount (c : Chan) : (s.resetRegisters.chan c).count = 0 := by
    rw [show s.resetRegisters.chan c = Channel.reset from chan_reset c]
    rfl
  exact {
    steps := hin
    memory := hm
    running := fun h => absurd h (by simp [State.reset])
    stopped := fun _ => ⟨rfl, rfl, rfl, rfl, irqLine_eq_false.2 (by simp [State.reset])⟩
    session := fun h => absurd rfl h
    enabled := fun c => iff_of_false (by simp [State.reset]) (hdis c)
    latched := {
      count := Nat.zero_le _
      ring := fun h => absurd h (by simp [State.reset])
      samples := fun c h => absurd h (hdis c)
      factors := fun c h => absurd h (hdis c)
      utilisation := overUtilised_nil
      clockPlan := fun h => absurd h (by simp [State.activeN, State.reset])
      receive := fun c h => absurd h (hdis c)
      halves := fun c _ h => absurd h (hbuf c)
      distinct := fun c h => absurd h (hbuf c) }
    counts := fun c => by rw [hcount]; exact Nat.zero_le _
    rearmed := fun c h => absurd h (hdis c)
    pending := fun _ _ => ⟨by simp [State.reset], by simp [State.reset]⟩
    signalled := fun c h => absurd h (by simp [State.reset]) }

/-- Settles O58: MEM is empty at the start of a run. -/
theorem resetMeetsTheInvariant : Obligations.ResetMeetsTheInvariant := fun l hl =>
  blockInv_resetRegisters (s := { State.reset with input := l }) hl Memory.wf_reset

/-- DEINIT resets the registers and appends to HWOPS (R218). -/
theorem BlockInv.deinitPipeline {s : State} (h : BlockInv s) : BlockInv (deinitPipeline s) := by
  rw [deinitPipeline_eq]
  exact (blockInv_resetRegisters h.steps h.memory).sessionStep (.of_frame id rfl)

/-- START unmasks the enabled channels, all masked until then, and switches the clock on (R216). -/
theorem BlockInv.startPipeline {s : State} (h : BlockInv s) : BlockInv (startPipeline s) := by
  rcases startPipeline_cases s with ⟨_, heq⟩ | ⟨_, _, heq⟩ | ⟨hst, hv, heq⟩
  · exact h.sessionStep (.of_frame (by rw [heq]; exact id) (by rw [heq]))
  · exact h.sessionStep (.of_frame (by rw [heq]; exact id) (by rw [heq]))
  · obtain ⟨_, _, hmask, _, _⟩ := h.stopped (by simp [hst])
    rw [heq]
    exact { h with
      running := fun _ => ⟨hv, rfl, fun c => by simp [bitOf_foldl_clearBit, hmask, Enabled, State.activeN]⟩
      stopped := fun hn => absurd rfl hn
      session := fun _ => h.session (by simp [hst])
      latched := SameLatch.latchedOk (s := s) ⟨rfl, rfl, rfl, fun _ => rfl⟩ h.latched }

/-- STOP masks every channel, clears every pending bit and every fill counter (R217). -/
theorem BlockInv.stopPipeline {s : State} (h : BlockInv s) : BlockInv (stopPipeline s) := by
  rcases stopPipeline_cases s with ⟨_, heq⟩ | ⟨hst, heq⟩
  · exact h.sessionStep (.of_frame (by rw [heq]; exact id) (by rw [heq]))
  · have hbank (c : Chan) : (Machine.stopPipeline s).chan c = { s.chan c with count := 0 } := by
      rw [heq]
      exact getElem_mapBanks _ _ c
    have hlatch : SameLatch s (Machine.stopPipeline s) :=
      ⟨by rw [heq], by rw [heq], by rw [heq], fun c => by rw [hbank]; rfl⟩
    rw [heq] at hbank hlatch ⊢
    exact { h with
      running := fun hr => by simp at hr
      stopped := fun _ => ⟨rfl, rfl, rfl, rfl, irqLine_eq_false.2 (by simp)⟩
      session := fun hi => absurd rfl hi
      latched := hlatch.latchedOk h.latched
      counts := fun c => by rw [hbank]; exact Nat.zero_le _
      rearmed := fun c hc _ => by
        obtain ⟨hpos, _⟩ := h.latched.samples c hc
        rw [hbank]
        exact hpos
      pending := fun _ _ => ⟨by simp, by simp⟩
      signalled := fun c hc => by simp at hc }

/-! ### An accepted CONFIGURE -/

/-- A bank of an enabled channel after CONFIGURE. -/
theorem chan_configureDone_of_requested {s : State} {c : Chan} (h : Requested s c) (sch : Schedule) (offs : List Nat) :
    (configureDone s sch offs).chan c =
      latchEnabled s.baseClk.toNat (sch.sf.getD c.val 0) (offs.getD c.val 0) (isRequestBuffer s c) (s.chan c) :=
  (chan_configureDone s sch offs c).trans (if_pos h)

theorem chan_configureDone_of_not_requested {s : State} {c : Chan} (h : ¬ Requested s c) (sch : Schedule)
    (offs : List Nat) : (configureDone s sch offs).chan c = latchDisabled (s.chan c) :=
  (chan_configureDone s sch offs c).trans (if_neg h)

/-- R213: MODE is latched, so the enabled channels are the requested ones. -/
theorem actMode_configureDone (s : State) (sch : Schedule) (offs : List Nat) :
    (configureDone s sch offs).actMode = s.mode := by
  rw [configureDone_eq]

theorem enabled_configureDone (s : State) (sch : Schedule) (offs : List Nat) (c : Chan) :
    Enabled (configureDone s sch offs) c ↔ Requested s c := by
  rw [Enabled, State.activeN, actMode_configureDone, Requested]

/-- R220 agrees with R213's B(i): the buffer channels are the requested ones that own a pair in the request. -/
theorem isBufferChan_configureDone {s : State} (hn : 1 ≤ s.mode.n.toNat) (sch : Schedule) (offs : List Nat)
    (c : Chan) : isBufferChan (configureDone s sch offs) c = true ↔ Requested s c ∧ isRequestBuffer s c = true := by
  rw [isBufferChan, State.activeN, actMode_configureDone, isRequestBuffer, Requested]
  cases s.mode.shared with
  | false => simp
  | true =>
    have h0 : c = 0 → c.val < s.mode.n.toNat := by rintro rfl; exact hn
    simpa using h0

/-- The factor of a requested channel, which 16 bits hold (R156). -/
theorem sf_configureDone {s : State} {sch : Schedule} (hsch : LegalSchedule s.mode.n.toNat sch) (offs : List Nat)
    {c : Chan} (h : Requested s c) :
    ∃ hc : c.val < sch.sf.length, ((configureDone s sch offs).chan c).sf.toNat = sch.sf[c.val] := by
  have hc : c.val < sch.sf.length := by rw [hsch.length]; exact h
  obtain ⟨_, hhi⟩ := hsch.range _ (List.getElem_mem hc)
  refine ⟨hc, ?_⟩
  rw [chan_configureDone_of_requested h]
  simp only [latchEnabled, BitVec.toNat_ofNat, List.getD_eq_getElem _ _ hc]
  exact Nat.mod_eq_of_lt (by omega)

theorem activeFactors_configureDone {s : State} {sch : Schedule} (hsch : LegalSchedule s.mode.n.toNat sch)
    (hn : s.mode.n.toNat ≤ 16) (offs : List Nat) : activeFactors (configureDone s sch offs) = sch.sf := by
  have hN : (configureDone s sch offs).activeN = s.mode.n.toNat := by rw [State.activeN, actMode_configureDone]
  have hlen : (activeFactors (configureDone s sch offs)).length = sch.sf.length := by
    simp [activeFactors, hN, length_chansBelow hn, hsch.length]
  refine List.ext_getElem hlen fun k hk _ => ?_
  simp only [activeFactors, hN, List.length_map] at hk
  have hval := getElem_chansBelow hk
  obtain ⟨_, hsf⟩ := sf_configureDone hsch offs (mem_chansBelow.1 (List.getElem_mem hk))
  simp only [activeFactors, hN, List.getElem_map, hsf, hval]

/-- What a valid request latches is legal (R51 (I4), R42, R31, R90, R91). -/
theorem RequestValid.latchedOk {p : Params} {s : State} {sch : Schedule} (hv : RequestValid p s)
    (hsch : LegalSchedule s.mode.n.toNat sch) (offs : List Nat) : LatchedOk p (configureDone s sch offs) := by
  obtain ⟨hn1, hn16, _⟩ := hv.count
  have hN : (configureDone s sch offs).activeN = s.mode.n.toNat := by rw [State.activeN, actMode_configureDone]
  have hen (c : Chan) := enabled_configureDone s sch offs c
  have hbuf (c : Chan) := isBufferChan_configureDone hn1 sch offs c
  exact {
    count := by rw [hN]; exact hn16
    ring := fun _ => by rw [hN]; exact hn1
    samples := fun c hc => by
      have hr := (hen c).1 hc
      obtain ⟨hlo, hhi, _⟩ := hv.samples c hr
      rw [chan_configureDone_of_requested hr]
      exact ⟨hlo, hhi⟩
    factors := fun c hc => by
      obtain ⟨hlt, hsf⟩ := sf_configureDone hsch offs ((hen c).1 hc)
      obtain ⟨hlo, _⟩ := hsch.range _ (List.getElem_mem hlt)
      rwa [hsf]
    utilisation := by rw [activeFactors_configureDone hsch hn16]; exact hsch.fits
    clockPlan := fun _ => by
      have hclock := hsch.clock
      have htotal := hsch.total
      rw [configureDone_eq]
      simp only [BitVec.toNat_ofNat]
      rw [Nat.mod_eq_of_lt htotal, Nat.mod_eq_of_lt (hclock.trans htotal)]
      exact hclock
    receive := fun c hc => by
      have hr := (hen c).1 hc
      obtain ⟨_, hrx⟩ := hv.addresses c hr
      rw [chan_configureDone_of_requested hr]
      exact hrx
    halves := fun c x hc => by
      obtain ⟨hr, hb⟩ := (hbuf c).1 hc
      obtain ⟨hpair, _⟩ := hv.addresses c hr
      obtain ⟨hping, hpong⟩ := hpair ((requestedBuffer_iff hr).2 hb)
      cases x <;> simpa [halfAddr, halfLen, chan_configureDone_of_requested hr, latchEnabled, hb]
    distinct := fun c hc => by
      obtain ⟨hr, hb⟩ := (hbuf c).1 hc
      simpa [chan_configureDone_of_requested hr, latchEnabled, hb] using
        hv.distinct c hr ((requestedBuffer_iff hr).2 hb) }

/-- CONFIGURE starts every fill counter at 0 (R213). -/
theorem count_configureDone (s : State) (sch : Schedule) (offs : List Nat) (c : Chan) :
    ((configureDone s sch offs).chan c).count = 0 := by
  by_cases h : Requested s c
  · rw [chan_configureDone_of_requested h]; rfl
  · rw [chan_configureDone_of_not_requested h]; rfl

/-- A request that passes all checks is latched from Idle, where nothing is pending and all is masked (R212, R213). -/
theorem BlockInv.configureDone {s : State} {sch : Schedule} (h : BlockInv s) (hv : RequestValid Config.params s)
    (hsch : LegalSchedule s.mode.n.toNat sch) (offs : List Nat) : BlockInv (configureDone s sch offs) := by
  obtain ⟨hn1, _, _⟩ := hv.count
  obtain ⟨hirq, herr, hmask, hclk, _⟩ := h.stopped (by simp [hv.idle])
  have hen (c : Chan) := enabled_configureDone s sch offs c
  have hlatched := hv.latchedOk hsch offs
  have hcount (c : Chan) := count_configureDone s sch offs c
  have hirq' : (Machine.configureDone s sch offs).irqStatus = 0 := by rw [configureDone_eq]; exact hirq
  have herr' : (Machine.configureDone s sch offs).errStatus = 0 := by rw [configureDone_eq]; exact herr
  have hst : (Machine.configureDone s sch offs).st = .configured := by rw [configureDone_eq]
  exact {
    steps := by rw [configureDone_eq]; exact h.steps
    memory := by rw [configureDone_eq]; exact h.memory
    running := fun hr => by simp [hst] at hr
    stopped := fun _ =>
      ⟨hirq', herr', by rw [configureDone_eq]; exact hmask, by rw [configureDone_eq]; exact hclk,
        irqLine_eq_false.2 (by simp [hirq', herr'])⟩
    session := fun _ => by rw [State.activeN, actMode_configureDone]; exact hn1
    enabled := fun c => by
      rw [hen, configureDone_eq]
      simp [bitOf_foldl_setBit, bitOf_lowBits, Requested]
    latched := hlatched
    counts := fun c => by rw [hcount]; exact Nat.zero_le _
    rearmed := fun c hc _ => by
      obtain ⟨hpos, _⟩ := hlatched.samples c hc
      rw [hcount]
      exact hpos
    pending := fun _ _ => ⟨by simp [hirq'], by simp [herr']⟩
    signalled := fun c hc => by simp [hirq'] at hc }

theorem BlockInv.configureWith {s : State} (h : BlockInv s) : BlockInv (configureWith Config.params s) := by
  rcases configureWith_cases Config.params s with ⟨_, _, heq⟩ | ⟨_, heq, _⟩ | ⟨sch, offs, hval, hsch, _, heq⟩ <;>
    rw [heq]
  · exact h.sessionStep (.of_frame id rfl)
  · exact h.sessionStep (.of_frame id rfl)
  · have hv := validate_eq_none.1 hval
    exact h.configureDone hv (hv.legalSchedule paramsOk_params hsch) offs

/-! ### The steps of the spec's agents -/

/-- The rows of the formats CMD and TRACE (R111, R126); the rows left are no steps of an agent (log entries 3, 4). -/
def AgentStep : Instr → Prop
  | .nop | .calLoad | .configure | .start | .stop | .deinit | .reservedCmd _ => True
  | .wr _ _ | .rd _ _ | .svc | .eng _ _ _ _ | .half _ | .xerr _ | .trim _ | .reset => True
  | _ => False

theorem agentStep_decodeCmd (v : Word) : AgentStep (decodeCmd v) := by
  unfold decodeCmd
  split <;> trivial

theorem exists_of_map_eq_ok {ε α β : Type} {f : α → β} {x : Except ε α} {b : β} (h : x.map f = .ok b) :
    ∃ a, f a = b := by
  cases x with
  | error e => simp [Except.map] at h
  | ok a => exact ⟨a, Except.ok.inj h⟩

theorem agentStep_of_decodeEng {l : List Byte} {i : Instr} (h : decodeEng l = .ok i) : AgentStep i := by
  unfold decodeEng at h
  split at h
  · split at h
    · exact Except.ok.inj h ▸ trivial
    · simp at h
    · simp at h
  · simp at h

theorem agentStep_of_decodeChanByte {f : Chan → Instr} (hf : ∀ c, AgentStep (f c)) {l : List Byte} {i : Instr}
    (h : decodeChanByte f l = .ok i) : AgentStep i := by
  unfold decodeChanByte at h
  split at h
  · obtain ⟨c, rfl⟩ := exists_of_map_eq_ok h
    exact hf c
  · simp at h

theorem agentStep_of_decodeTrim {l : List Byte} {i : Instr} (h : decodeTrim l = .ok i) : AgentStep i := by
  unfold decodeTrim at h
  split at h
  · obtain ⟨_, rfl⟩ := exists_of_map_eq_ok h
    trivial
  · simp at h

theorem agentStep_of_decodeBare {k : Instr} (hk : AgentStep k) {l : List Byte} {i : Instr}
    (h : decodeBare k l = .ok i) : AgentStep i := by
  unfold decodeBare at h
  split at h
  · exact Except.ok.inj h ▸ hk
  · simp at h

theorem agentStep_of_decodeWr {l : List Byte} {i : Instr} (h : decodeWr l = .ok i) : AgentStep i := by
  unfold decodeWr at h
  split at h
  · exact Except.ok.inj h ▸ trivial
  · simp at h

theorem agentStep_of_decodeRd {l : List Byte} {i : Instr} (h : decodeRd l = .ok i) : AgentStep i := by
  unfold decodeRd at h
  split at h
  · exact Except.ok.inj h ▸ trivial
  · simp at h

/-- A TRACE record decodes to one of the steps of R126. -/
theorem agentStep_of_decodeTrace {l : List Byte} {i : Instr} (h : decodeTrace l = .ok i) : AgentStep i := by
  unfold decodeTrace at h
  split at h
  · simp at h
  split at h
  · exact agentStep_of_decodeWr h
  · exact agentStep_of_decodeRd h
  · exact agentStep_of_decodeBare (k := .svc) trivial h
  · exact agentStep_of_decodeEng h
  · exact agentStep_of_decodeChanByte (f := .half) (fun _ => trivial) h
  · exact agentStep_of_decodeChanByte (f := .xerr) (fun _ => trivial) h
  · exact agentStep_of_decodeTrim h
  · exact agentStep_of_decodeBare (k := .reset) trivial h
  · simp at h

/-- A record of format TRACE or CMD decodes to a step of an agent. -/
theorem agentStep_of_decode {slot : Slot} {i : Instr} (hf : slot.fmt = .trace ∨ slot.fmt = .cmd)
    (h : decode slot = .ok i) : AgentStep i := by
  rcases hf with hf | hf <;> simp only [decode, hf] at h
  · exact agentStep_of_decodeTrace h
  · unfold decodeCmdBytes at h
    split at h
    · exact Except.ok.inj h ▸ agentStep_decodeCmd _
    · simp at h

/-- Every agent's step that answers keeps the laws; a write to CMD is the command it runs. -/
theorem BlockInv.exec {i : Instr} {s t : State} (hs : BlockInv s) (hi : AgentStep i) (h : exec i s = .next t) :
    BlockInv t := by
  refine exec_cases (P := fun i => AgentStep i → BlockInv t) (fun o v _ ht _ => ?_)
    (fun v hv _ => hv (agentStep_decodeCmd v)) (fun i hwr h hi => ?_) i h hi
  · exact ht ▸ hs.sessionStep (.writeOffset s o.toNat v)
  · cases i with
    | wr o v => exact absurd rfl (hwr o v)
    | nop | reservedCmd _ | rd _ _ | trim _ => exact Host.Outcome.next.inj h ▸ hs.sessionStep (.of_frame id rfl)
    | calLoad => exact Host.Outcome.next.inj h ▸ hs.sessionStep (.calLoad s)
    | configure => exact Host.Outcome.next.inj h ▸ hs.configureWith
    | start => exact Host.Outcome.next.inj h ▸ hs.startPipeline
    | stop => exact Host.Outcome.next.inj h ▸ hs.stopPipeline
    | deinit => exact Host.Outcome.next.inj h ▸ hs.deinitPipeline
    | reset => exact Host.Outcome.next.inj h ▸ blockInv_resetRegisters hs.steps hs.memory
    | svc => exact hs.execSvc h
    | eng _ _ _ _ => exact hs.sessionStep (.execEng h)
    | half _ => exact hs.sessionStep (.execHalf h)
    | xerr _ => exact hs.sessionStep (.execXerr h)
    | _ => exact hi.elim

/-- Settles O59: the record taken is an agent's, and taking it leaves agents' records. -/
theorem stepKeepsTheInvariant : Obligations.StepKeepsTheInvariant := by
  intro s t hs h
  obtain ⟨slot, rest, i, hin, hdec, hexec⟩ := step_next h
  have hslots : ∀ x ∈ slot :: rest, x.fmt = .trace ∨ x.fmt = .cmd := hin ▸ hs.steps
  obtain ⟨hslot, hrest⟩ := List.forall_mem_cons.1 hslots
  have htaken : BlockInv { s with input := rest } :=
    { hs with
      steps := hrest
      latched := SameLatch.latchedOk (s := s) ⟨rfl, rfl, rfl, fun _ => rfl⟩ hs.latched }
  exact htaken.exec (agentStep_of_decode hslot hdec) hexec

end Sys2Proof.Machine
end

section
/-! PROOFS. The memory family: a running block does not read the staging registers (R99), no access leaves MEM (R81),
SERVICE and ENG_WRITE are the only writers of MEM (R49, R83), and its canonical form stands (log entry 8). -/

namespace Sys2Proof.Machine

/-! ### The banks without their staging fields -/

/-- Two updates of all banks are one. -/
theorem mapBanks_mapBanks (f g : Chan → Channel → Channel) (v : Vector Channel 16) :
    mapBanks f (mapBanks g v) = mapBanks (fun c x => f c (g c x)) v :=
  banks_ext fun c => by simp only [getElem_mapBanks]

@[simp] theorem chan_eraseStaging (s : State) (c : Chan) : s.eraseStaging.chan c = (s.chan c).eraseStaging :=
  getElem_mapBanks _ _ c

/-- No active register is a staging register (R20). -/
@[simp] theorem halfAddr_eraseStaging (s : State) (c : Chan) (h : Half) :
    halfAddr s.eraseStaging c h = halfAddr s c h := by
  cases h <;> simp only [halfAddr, chan_eraseStaging] <;> rfl

@[simp] theorem halfLen_eraseStaging (s : State) (c : Chan) (h : Half) :
    halfLen s.eraseStaging c h = halfLen s c h := by
  cases h <;> simp only [halfLen, chan_eraseStaging] <;> rfl

/-- Banks that agree but for their staging fields give the same state but for the staging registers. -/
theorem eraseStaging_withBanks {s : State} {v w : Vector Channel 16}
    (h : ∀ c : Chan, v[c.val].eraseStaging = w[c.val].eraseStaging) :
    { s with ch := v }.eraseStaging = { s with ch := w }.eraseStaging := by
  have hbanks : mapBanks (fun _ c => c.eraseStaging) v = mapBanks (fun _ c => c.eraseStaging) w :=
    banks_ext fun c => by simpa only [getElem_mapBanks] using h c
  exact congrArg (fun v => { s.eraseStaging with ch := v }) hbanks

theorem eraseStaging_eraseStaging (s : State) : s.eraseStaging.eraseStaging = s.eraseStaging :=
  eraseStaging_withBanks (s := s) fun c => (congrArg Channel.eraseStaging (chan_eraseStaging s c)).trans rfl

@[simp] theorem setChan_eraseStaging (s : State) (c : Chan) (x : Channel) :
    s.eraseStaging.setChan c x.eraseStaging = (s.setChan c x).eraseStaging := by
  have hbanks : (s.eraseStaging.setChan c x.eraseStaging).ch = (s.setChan c x).eraseStaging.ch := by
    refine banks_ext fun d => ?_
    change (s.eraseStaging.setChan c x.eraseStaging).chan d = (s.setChan c x).eraseStaging.chan d
    simp only [chan_setChan, chan_eraseStaging]
    split_ifs <;> rfl
  exact congrArg (fun v => { s.eraseStaging with ch := v }) hbanks

/-- The reset values of the staging registers are zeros (R50). -/
theorem resetRegisters_eraseStaging (s : State) : s.resetRegisters.eraseStaging = s.resetRegisters := by
  have hbanks : mapBanks (fun _ c => c.eraseStaging) State.reset.ch = State.reset.ch := by decide
  exact congrArg (fun v => { s.resetRegisters with ch := v }) hbanks

/-- A write outside CMD reaches staging registers only (R49, R260). -/
theorem writeOffset_eraseStaging (s : State) (o : Nat) (v : Word) :
    (writeOffset s o v).eraseStaging = s.eraseStaging := by
  obtain ⟨ch, b, m, heq, hbank⟩ := writeOffset_frame s o v
  rw [heq] at hbank ⊢
  exact eraseStaging_withBanks (s := s) hbank

/-! ### Commands: all but CONFIGURE read no staging register, and only DEINIT changes one, by resetting it -/

theorem calLoad_eraseStaging (s : State) : calLoad s.eraseStaging = (calLoad s).eraseStaging := by
  simp only [calLoad, apply_ite State.eraseStaging]
  rfl

theorem startPipeline_eraseStaging (s : State) : startPipeline s.eraseStaging = (startPipeline s).eraseStaging := by
  simp only [startPipeline, forChansBelow, foldl_hwUnmaskInterrupt, apply_ite State.eraseStaging]
  rfl

theorem stopPipeline_eraseStaging (s : State) : stopPipeline s.eraseStaging = (stopPipeline s).eraseStaging := by
  by_cases hst : s.st = .idle
  · simp only [stopPipeline, if_pos hst, if_pos (show s.eraseStaging.st = .idle from hst)]
    rfl
  · rw [stopPipeline_eq hst, stopPipeline_eq (s := s.eraseStaging) hst]
    have hbanks : mapBanks (fun _ c => { c with count := 0 }) s.eraseStaging.ch =
        mapBanks (fun _ c => c.eraseStaging) (mapBanks (fun _ c => { c with count := 0 }) s.ch) := by
      simp only [State.eraseStaging, mapBanks_mapBanks]
      rfl
    rw [hbanks]
    rfl

theorem deinitPipeline_eraseStaging (s : State) :
    deinitPipeline s.eraseStaging = (deinitPipeline s).eraseStaging := by
  rw [deinitPipeline_eq, deinitPipeline_eq]
  exact (resetRegisters_eraseStaging { s with hwops := _ }).symm

/-! ### Reads -/

/-- A register without writable bits is no staging register, so it reads the same (R22, R23). -/
theorem readOffset_eraseStaging {o : Nat} (h : writableBits o = 0) (s : State) :
    readOffset s.eraseStaging o = readOffset s o := by
  unfold readOffset
  unfold writableBits at h
  cases hr : regAt o with
  | none => rfl
  | some r =>
    rw [hr] at h
    cases r with
    | glob g =>
      cases g with
      | baseClk | mode => simp at h
      | _ => rfl
    | bank i r =>
      simp only [regWord, chan_eraseStaging]
      cases r with
      | reqRate | reqCfg | pingAddr | pongAddr | pingLen | pongLen | rxAddr => simp at h
      | _ => rfl

/-! ### ENGINE and SERVICE -/

/-- A drain in progress without the staging registers. -/
def Drain.eraseStaging (d : Drain) : Drain := { d with s := d.s.eraseStaging }

theorem store16_eraseStaging (s : State) (a : Nat) (v : Word16) :
    s.eraseStaging.store16 a v = (s.store16 a v).map State.eraseStaging := by
  unfold State.store16
  split_ifs <;> rfl

theorem outcomeOf_map_eraseStaging (x : Except Fault State) :
    outcomeOf (x.map State.eraseStaging) = eraseOutcome (outcomeOf x) := by
  cases x <;> rfl

/-- ENG_WRITE's condition and address are of the latched halves (R240). -/
theorem execEng_eraseStaging (c : Chan) (h : Half) (k w : Word16) (s : State) :
    execEng c h k w s.eraseStaging = eraseOutcome (execEng c h k w s) := by
  have hen : engEnabled s.eraseStaging c h k = engEnabled s c h k := by
    simp only [engEnabled, halfLen_eraseStaging]
    rfl
  have haddr : engAddr s.eraseStaging c h k = engAddr s c h k := by simp only [engAddr, halfAddr_eraseStaging]
  simp only [execEng, hen, haddr, store16_eraseStaging, outcomeOf_map_eraseStaging, apply_ite eraseOutcome]
  rfl

/-- A routed sample reads and moves active and run-time fields of a bank only (R232). -/
theorem route_eraseStaging (t : Chan) (w : Word16) (d : Drain) :
    route t w d.eraseStaging = (route t w d).map Drain.eraseStaging := by
  have hchan : d.eraseStaging.s.chan t = (d.s.chan t).eraseStaging := chan_eraseStaging d.s t
  unfold route
  rw [hchan]
  by_cases hc : (d.s.chan t).count = (d.s.chan t).aNs
  · rw [if_pos hc, if_pos (by exact hc)]
    rfl
  · rw [if_neg hc, if_neg (by exact hc)]
    have hstore : d.eraseStaging.s.store16 (storeAddr (d.s.chan t).eraseStaging)
        (applyCal d.eraseStaging.s w (d.s.chan t).eraseStaging.aDiff) =
        (d.s.store16 (storeAddr (d.s.chan t)) (applyCal d.s w (d.s.chan t).aDiff)).map State.eraseStaging :=
      store16_eraseStaging d.s _ _
    rw [hstore]
    cases d.s.store16 (storeAddr (d.s.chan t)) (applyCal d.s w (d.s.chan t).aDiff) with
    | error f => rfl
    | ok u =>
      have hbank := setChan_eraseStaging u t { d.s.chan t with count := nextCount d.s.actMode.ard (d.s.chan t) }
      exact congrArg (fun v => Except.ok (Drain.mk v _)) hbank

theorem deliver_eraseStaging (c : Chan) (w : Word16) (d : Drain) :
    deliver c w d.eraseStaging = (deliver c w d).map Drain.eraseStaging := by
  unfold deliver demux
  simp only [route_eraseStaging, apply_ite (Except.map Drain.eraseStaging)]
  rfl

theorem drainFrom_eraseStaging (c : Chan) (a left k : Nat) (d : Drain) :
    drainFrom c a left k d.eraseStaging = (drainFrom c a left k d).map Drain.eraseStaging := by
  induction left generalizing k d with
  | zero => rfl
  | succ n ih =>
    have hload : d.eraseStaging.s.load16 (a + 2 * k) = d.s.load16 (a + 2 * k) := rfl
    unfold drainFrom
    rw [hload]
    cases d.s.load16 (a + 2 * k) with
    | error f => rfl
    | ok w =>
      simp only [deliver_eraseStaging]
      cases deliver c w d with
      | error f => rfl
      | ok e => exact ih (k + 1) e

theorem drain_eraseStaging (c : Chan) (h : Half) (s : State) :
    drain c h s.eraseStaging = (drain c h s).map State.eraseStaging := by
  have hfrom := drainFrom_eraseStaging c (halfAddr s c h).toNat (halfLen s c h).toNat 0 (startDrain s)
  unfold drain
  have hstart : startDrain s.eraseStaging = (startDrain s).eraseStaging := rfl
  rw [halfAddr_eraseStaging, halfLen_eraseStaging, hstart, hfrom]
  cases drainFrom c (halfAddr s c h).toNat (halfLen s c h).toNat 0 (startDrain s) <;> rfl

theorem deliverAll_eraseStaging (l : List (Chan × Half)) (s : State) :
    deliverAll l s.eraseStaging = (deliverAll l s).map State.eraseStaging := by
  induction l generalizing s with
  | nil => rfl
  | cons x l ih =>
    simp only [deliverAll, drain_eraseStaging]
    cases drain x.1 x.2 s with
    | error f => rfl
    | ok u => exact ih u

theorem swapRecords_eraseStaging (s : State) (c : Chan) : swapRecords s.eraseStaging c = swapRecords s c := by
  simp only [swapRecords, halfAddr_eraseStaging, halfLen_eraseStaging, chan_eraseStaging]
  rfl

theorem serviceSwapped_eraseStaging (s : State) :
    serviceSwapped s.eraseStaging = (serviceSwapped s).eraseStaging := by
  have hbanks : toggledBanks (pendingFull s) s.eraseStaging.ch =
      mapBanks (fun _ c => c.eraseStaging) (toggledBanks (pendingFull s) s.ch) := by
    simp only [toggledBanks, State.eraseStaging, mapBanks_mapBanks, apply_ite Channel.eraseStaging]
    rfl
  have hrecords : swapRecords s.eraseStaging = swapRecords s := funext (swapRecords_eraseStaging s)
  have hfull : pendingFull s.eraseStaging = pendingFull s := rfl
  rw [serviceSwapped_eq, serviceSwapped_eq, hrecords, hfull, hbanks]
  rfl

theorem justFilled_eraseStaging (s : State) : justFilled s.eraseStaging = justFilled s := by
  simp only [justFilled, chan_eraseStaging]
  rfl

/-- SERVICE runs on the active configuration alone (R99, R230). -/
theorem execSvc_eraseStaging (s : State) : execSvc s.eraseStaging = eraseOutcome (execSvc s) := by
  simp only [execSvc, service, justFilled_eraseStaging, serviceSwapped_eraseStaging, deliverAll_eraseStaging,
    outcomeOf_map_eraseStaging, apply_ite eraseOutcome]
  rfl

/-! ### Every other step -/

theorem eraseOutcome_eraseOutcome (o : Host.Outcome State Fault Refusal) :
    eraseOutcome (eraseOutcome o) = eraseOutcome o := by
  cases o with
  | next s => exact congrArg Host.Outcome.next (eraseStaging_eraseStaging s)
  | fault _ | refused _ => rfl

theorem decodeCmd_ne_rd (v : Word) (o : Word16) (w : Word) : decodeCmd v ≠ .rd o w := by
  unfold decodeCmd; split <;> simp

/-- A write to CMD reads what its command reads (R24). -/
theorem readsStaging_decodeCmd {v : Word} (h : ReadsStaging (decodeCmd v)) : ReadsStaging (.wr 0 v) := by
  rcases h with h | ⟨o, w, h, _⟩
  · rw [commandOf_decodeCmd] at h
    exact .inl ((commandOf_cmd v).trans h)
  · exact absurd h (decodeCmd_ne_rd v o w)

/-- An instruction but a write, if it does not read the staging registers, commutes with erasing them. -/
theorem exec_eraseStaging_of_ne_wr {i : Instr} (hr : ¬ ReadsStaging i) (hwr : ∀ o v, i ≠ .wr o v) (s : State) :
    exec i s.eraseStaging = eraseOutcome (exec i s) := by
  cases i with
  | wr o v => exact absurd rfl (hwr o v)
  | configure => exact absurd (.inl rfl) hr
  | rd o v =>
    have hbits : writableBits o.toNat = 0 := by_contra fun hb => hr (.inr ⟨o, v, rfl, hb⟩)
    simp only [exec, execRd, readOffset_eraseStaging hbits]
    rfl
  | calLoad => exact congrArg Host.Outcome.next (calLoad_eraseStaging s)
  | start => exact congrArg Host.Outcome.next (startPipeline_eraseStaging s)
  | stop => exact congrArg Host.Outcome.next (stopPipeline_eraseStaging s)
  | deinit => exact congrArg Host.Outcome.next (deinitPipeline_eraseStaging s)
  | reset => exact congrArg Host.Outcome.next (resetRegisters_eraseStaging s).symm
  | svc => exact execSvc_eraseStaging s
  | eng c h k w => exact execEng_eraseStaging c h k w s
  | half c =>
    simp only [exec, execHalf, apply_ite eraseOutcome]
    rfl
  | xerr c =>
    simp only [exec, execXerr, apply_ite eraseOutcome]
    rfl
  | computeSchedule a =>
    simp only [exec, execComputeSchedule, apply_ite eraseOutcome]
    rfl
  | nop | reservedCmd _ | trim _ | setClockDivider _ _ | programBuffer _ _ _ _ | enableChannel _
  | unmaskInterrupt _ | readInterruptStatus _ | clearInterrupt _ | maskInterrupt _ | setClockEnable _
  | dataReady _ | sampleGroupComplete _ | bufferFull _ | transferError _ | roundPow2 _ | assignOffsets _
  | apply _ _ => rfl

/-- A step that does not read the staging registers does the same, but for them, without them: a write to CMD is its
command, any other write reaches staging registers only. -/
theorem exec_eraseStaging {i : Instr} (hr : ¬ ReadsStaging i) (s : State) :
    eraseOutcome (exec i s.eraseStaging) = eraseOutcome (exec i s) := by
  by_cases hi : ∃ o v, i = .wr o v
  · obtain ⟨o, v, rfl⟩ := hi
    by_cases ho : o = 0
    · subst ho
      rw [exec_wr_cmd, exec_wr_cmd, exec_eraseStaging_of_ne_wr (hr ∘ readsStaging_decodeCmd) (decodeCmd_ne_wr v) s,
        eraseOutcome_eraseOutcome]
    · simp only [exec, execWr, if_neg ho, eraseOutcome, writeOffset_eraseStaging, eraseStaging_eraseStaging]
  · push Not at hi
    rw [exec_eraseStaging_of_ne_wr hr hi s, eraseOutcome_eraseOutcome]

/-- Settles O11: both runs are the run from the state they share without staging registers. -/
theorem stagingIsNotLive : Obligations.StagingIsNotLive := by
  intro i s t hr hst
  calc eraseOutcome (exec i s) = eraseOutcome (exec i s.eraseStaging) := (exec_eraseStaging hr s).symm
    _ = eraseOutcome (exec i t.eraseStaging) := by rw [hst]
    _ = eraseOutcome (exec i t) := exec_eraseStaging hr t

/-! ### Which steps can fault -/

/-- R81: only SERVICE and ENG_WRITE form an address. -/
theorem exec_fault {i : Instr} {s : State} {f : Fault} (h : exec i s = .fault f) :
    i = .svc ∨ ∃ c x k w, i = .eng c x k w := by
  cases i with
  | svc => exact .inl rfl
  | eng c x k w => exact .inr ⟨c, x, k, w, rfl⟩
  | wr o v =>
    simp only [exec, execWr, runCommand] at h
    split_ifs at h
    split at h <;> cases h
  | half _ =>
    simp only [exec, execHalf] at h
    split_ifs at h
  | xerr _ =>
    simp only [exec, execXerr] at h
    split_ifs at h
  | computeSchedule _ =>
    simp only [exec, execComputeSchedule] at h
    split_ifs at h
  | _ => cases h

/-- R90: the window ends inside MEM, so a latched half does. -/
theorem LatchedOk.half_in_memory {s : State} (h : LatchedOk Config.params s) {c : Chan} (x : Half)
    (hc : isBufferChan s c = true) : (halfAddr s c x).toNat + 2 * (halfLen s c x).toNat ≤ 2 ^ 32 := by
  obtain ⟨_, _, hmax, _⟩ := paramsOk_params
  obtain ⟨_, _, _, _, hend⟩ := h.halves c x hc
  omega

/-- R91: and so does the receive buffer of an enabled channel. -/
theorem LatchedOk.receive_in_memory {s : State} (h : LatchedOk Config.params s) {c : Chan} (hc : Enabled s c) :
    (s.chan c).aRxAddr.toNat + 2 * (s.chan c).aNs.toNat ≤ 2 ^ 32 := by
  obtain ⟨_, _, hmax, _⟩ := paramsOk_params
  obtain ⟨_, _, hend⟩ := h.receive c hc
  omega

/-- Halves of buffer channels are delivered without a fault. -/
theorem BlockInv.deliverAll_completes {s : State} (h : BlockInv s) {l : List (Chan × Half)}
    (hl : ∀ x ∈ l, isBufferChan s x.1 = true) : ∃ t, Machine.deliverAll l s = .ok t := by
  have hreach : ∀ x ∈ l, ReachableOk s x.1 := by
    rintro x hx u (rfl | hu)
    · exact h.latched.receive_in_memory (h.latched.enabled_of_isBufferChan (hl x hx))
    · exact h.latched.receive_in_memory hu
  obtain ⟨t, ht, _⟩ := deliverAll_ok h.counts hreach fun x hx => h.latched.half_in_memory x.2 (hl x hx)
  exact ⟨t, ht⟩

/-- The halves SERVICE delivers belong to channels that signalled, which are buffer channels (R230, R241). -/
theorem BlockInv.execSvc_ne_fault {s : State} (h : BlockInv s) (f : Fault) : Machine.execSvc s ≠ .fault f := by
  have hswap : SessionStep s (serviceSwapped s) := .serviceSwapped s
  have hbuf : ∀ x ∈ justFilled s, isBufferChan (serviceSwapped s) x.1 = true := by
    intro x hx
    obtain ⟨c, hc, rfl⟩ := List.mem_map.1 hx
    rw [hswap.sameLatch.isBufferChan]
    exact h.signalled c (mem_pendingFull.1 hc).left
  obtain ⟨t, ht⟩ := (h.sessionStep hswap).deliverAll_completes hbuf
  unfold Machine.execSvc service
  rw [ht]
  split_ifs <;> simp [outcomeOf]

/-- ENG_WRITE stores inside a latched half (R240). -/
theorem BlockInv.execEng_ne_fault {s : State} (h : BlockInv s) (c : Chan) (x : Half) (k w : Word16) (f : Fault) :
    Machine.execEng c x k w s ≠ .fault f := by
  unfold Machine.execEng
  split_ifs with hen
  · simp only [engEnabled, halfFullEnabled, Bool.and_eq_true, decide_eq_true_eq] at hen
    obtain ⟨⟨_, hbuf⟩, hk⟩ := hen
    have hhalf := h.latched.half_in_memory x hbuf
    have haddr : engAddr s c x k + 1 < 2 ^ 32 := by unfold engAddr; omega
    rw [State.store16_of_lt s w haddr]
    simp [outcomeOf]
  · simp

/-- Taking the record leaves the laws. -/
theorem BlockInv.advance {s : State} (h : BlockInv s) : BlockInv s.advance :=
  { h with
    steps := fun slot hslot => h.steps slot (List.mem_of_mem_tail hslot)
    latched := SameLatch.latchedOk (s := s) ⟨rfl, rfl, rfl, fun _ => rfl⟩ h.latched }

/-- Settles O60: a fault is an access outside MEM of SERVICE or ENG_WRITE, whose buffers lie inside. -/
theorem noFaultUnderTheInvariant : Obligations.NoFaultUnderTheInvariant := by
  intro s f hs h
  unfold step at h
  split at h
  · next i _ =>
    rcases exec_fault h with rfl | ⟨c, x, k, w, rfl⟩
    · exact hs.advance.execSvc_ne_fault f h
    · exact hs.advance.execEng_ne_fault c x k w f h
  · simp at h

/-! ### Which steps write MEM -/

theorem writeOffset_mem (s : State) (o : Nat) (v : Word) : (writeOffset s o v).mem = s.mem := by
  obtain ⟨ch, b, m, heq, _⟩ := writeOffset_frame s o v
  rw [heq]

theorem calLoad_mem (s : State) : (calLoad s).mem = s.mem := by
  rcases calLoad_cases s with ⟨_, heq⟩ | ⟨_, _, _, heq⟩ | ⟨_, _, _, heq⟩ <;> rw [heq]

theorem configureWith_mem (p : Params) (s : State) : (configureWith p s).mem = s.mem := by
  rcases configureWith_cases p s with ⟨_, _, heq⟩ | ⟨_, heq, _⟩ | ⟨sch, offs, _, _, _, heq⟩ <;> rw [heq]
  rw [configureDone_eq]

theorem startPipeline_mem (s : State) : (startPipeline s).mem = s.mem := by
  rcases startPipeline_cases s with ⟨_, heq⟩ | ⟨_, _, heq⟩ | ⟨_, _, heq⟩ <;> rw [heq]

theorem stopPipeline_mem (s : State) : (stopPipeline s).mem = s.mem := by
  rcases stopPipeline_cases s with ⟨_, heq⟩ | ⟨_, heq⟩ <;> rw [heq]

theorem deinitPipeline_mem (s : State) : (deinitPipeline s).mem = s.mem := by
  rw [deinitPipeline_eq]
  rfl

theorem serviceSwapped_mem (s : State) : (serviceSwapped s).mem = s.mem := by
  rw [serviceSwapped_eq]

theorem decodeCmd_ne_eng (v : Word) (c : Chan) (x : Half) (k w : Word16) : decodeCmd v ≠ .eng c x k w := by
  unfold decodeCmd; split <;> simp

/-- What a step can do to MEM (R49, R83). -/
inductive MemoryEffect (i : Instr) (s t : State) : Prop
  | keeps (h : t.mem = s.mem)
  | service (hi : i = .svc) (h : execSvc s = .next t)
  | engine (c : Chan) (x : Half) (k w : Word16) (hi : i = .eng c x k w) (h : execEng c x k w s = .next t)

/-- An instruction that always answers with the state u. -/
theorem MemoryEffect.of_next {i : Instr} {s t u : State}
    (h : (.next u : Host.Outcome State Fault Refusal) = .next t) (hu : u.mem = s.mem) : MemoryEffect i s t :=
  .keeps (Host.Outcome.next.inj h ▸ hu)

theorem exec_memoryEffect {i : Instr} {s t : State} (h : exec i s = .next t) : MemoryEffect i s t := by
  refine exec_cases (P := fun i => MemoryEffect i s t) (fun o v _ ht => ?_) (fun v hv => ?_) (fun i hi h => ?_) i h
  · exact .keeps (ht ▸ writeOffset_mem s o.toNat v)
  · cases hv with
    | keeps hm => exact .keeps hm
    | service hv _ => exact absurd hv (decodeCmd_ne_svc v)
    | engine c x k w hv _ => exact absurd hv (decodeCmd_ne_eng v c x k w)
  · cases i with
    | wr o v => exact absurd rfl (hi o v)
    | svc => exact .service rfl h
    | eng c x k w => exact .engine c x k w rfl h
    | calLoad => exact .of_next h (calLoad_mem s)
    | configure => exact .of_next h (configureWith_mem _ s)
    | start => exact .of_next h (startPipeline_mem s)
    | stop => exact .of_next h (stopPipeline_mem s)
    | deinit => exact .of_next h (deinitPipeline_mem s)
    | half _ =>
      simp only [exec, execHalf] at h
      split_ifs at h
      exact .of_next h rfl
    | xerr _ =>
      simp only [exec, execXerr] at h
      split_ifs at h
      exact .of_next h rfl
    | computeSchedule _ =>
      simp only [exec, execComputeSchedule] at h
      split_ifs at h
      exact .of_next h rfl
    | nop | reservedCmd _ | rd _ _ | trim _ | reset | setClockDivider _ _ | programBuffer _ _ _ _ | enableChannel _
    | unmaskInterrupt _ | readInterruptStatus _ | clearInterrupt _ | maskInterrupt _ | setClockEnable _
    | dataReady _ | sampleGroupComplete _ | bufferFull _ | transferError _ | roundPow2 _ | assignOffsets _
    | apply _ _ => exact .of_next h rfl

/-- Settles O54: of the three effects on MEM the two that write are excluded. -/
theorem onlyServiceAndEngineWriteMemory : Obligations.OnlyServiceAndEngineWriteMemory := by
  intro i s t h hsvc heng a
  cases exec_memoryEffect h with
  | keeps hm => rw [hm]
  | service hi _ => exact absurd hi hsvc
  | engine c x k w hi _ => exact absurd hi (heng c x k w)

/-! ### The canonical form of MEM -/

/-- Where s has the canonical form, t has it. -/
def KeepsCanonical (s t : State) : Prop := s.mem.wf = true → t.mem.wf = true

theorem KeepsCanonical.of_mem_eq {s t : State} (h : t.mem = s.mem) : KeepsCanonical s t :=
  fun hs => h ▸ hs

/-- A routed sample is dropped, or stored inside MEM (R232). -/
theorem route_keepsCanonical {u : Chan} {w : Word16} {d e : Drain} (h : route u w d = .ok e) :
    KeepsCanonical d.s e.s := by
  rcases route_cases h with ⟨_, rfl⟩ | ⟨_, haddr, rfl⟩
  · exact id
  · exact Memory.wf_write16 _ haddr

theorem deliver_keepsCanonical {c : Chan} {w : Word16} {d e : Drain} (h : deliver c w d = .ok e) :
    KeepsCanonical d.s e.s := by
  rcases deliver_cases h with ⟨_, hr⟩ | ⟨_, _, hr⟩ | ⟨_, _, rfl⟩
  · exact route_keepsCanonical hr
  · exact route_keepsCanonical hr
  · exact id

theorem drain_keepsCanonical {c : Chan} {x : Half} {s t : State} (h : drain c x s = .ok t) :
    KeepsCanonical s t := by
  obtain ⟨d, hfrom, rfl⟩ := drain_cases h
  exact drainFrom_induction (P := fun d e => KeepsCanonical d.s e.s) (fun _ => id) (fun h h' => h' ∘ h)
    deliver_keepsCanonical hfrom

theorem deliverAll_keepsCanonical {l : List (Chan × Half)} {s t : State} (h : deliverAll l s = .ok t) :
    KeepsCanonical s t := by
  induction l generalizing s with
  | nil => exact .of_mem_eq (congrArg State.mem (Except.ok.inj h)).symm
  | cons x l ih =>
    obtain ⟨u, hx, hl⟩ := deliverAll_cons h
    exact ih hl ∘ drain_keepsCanonical hx

theorem exec_keepsCanonical {i : Instr} {s t : State} (h : exec i s = .next t) : KeepsCanonical s t := by
  cases exec_memoryEffect h with
  | keeps hm => exact .of_mem_eq hm
  | service _ hsvc =>
    obtain ⟨_, _, hdel⟩ := execSvc_next hsvc
    exact deliverAll_keepsCanonical hdel ∘ KeepsCanonical.of_mem_eq (serviceSwapped_mem s)
  | engine _ _ _ _ _ heng =>
    obtain ⟨_, haddr, rfl⟩ := execEng_next heng
    exact Memory.wf_write16 _ haddr

/-- Settles O57: taking the record leaves MEM, and its execution stores inside MEM or not at all. -/
theorem memoryStaysCanonical : Obligations.MemoryStaysCanonical := by
  intro s t h
  obtain ⟨slot, rest, i, _, _, hexec⟩ := step_next h
  have hkeeps : KeepsCanonical { s with input := rest } t := exec_keepsCanonical hexec
  exact hkeeps

end Sys2Proof.Machine
end

section
/-! PROOFS. The encoding family: the records of R111, R121, R125 and R126 read back and written again, what is no
record, and the steps whose whole effect is one row of a table. -/

namespace Sys2Proof.Machine

/-! ### Bytes and words (R126, log entries 7, 29) -/

@[simp] theorem bytes16_le16 (b0 b1 : Byte) : bytes16 (le16 b0 b1) = [b0, b1] := by
  have hlow : (le16 b0 b1).extractLsb' 0 8 = b0 := BitVec.extractLsb'_append_eq_right
  have hhigh : (le16 b0 b1).extractLsb' 8 8 = b1 := BitVec.extractLsb'_append_eq_left
  rw [bytes16, hlow, hhigh]

@[simp] theorem bytes32_le32 (b0 b1 b2 b3 : Byte) : bytes32 (le32 b0 b1 b2 b3) = [b0, b1, b2, b3] := by
  have hlow (k : Nat) (hk : k + 8 ≤ 16) : (le32 b0 b1 b2 b3).extractLsb' k 8 = (le16 b0 b1).extractLsb' k 8 :=
    BitVec.extractLsb'_append_eq_of_add_le hk
  have hhigh (k : Nat) (hk : 16 ≤ k) : (le32 b0 b1 b2 b3).extractLsb' k 8 = (le16 b2 b3).extractLsb' (k - 16) 8 :=
    BitVec.extractLsb'_append_eq_of_le hk
  have hbytes : bytes32 (le32 b0 b1 b2 b3) = bytes16 (le16 b0 b1) ++ bytes16 (le16 b2 b3) := by
    simp [bytes32, bytes16, hlow, hhigh]
  rw [hbytes, bytes16_le16, bytes16_le16]
  rfl

/-- The two bytes of a word, joined again. -/
@[simp] theorem le16_extractLsb' (v : Word16) : le16 (v.extractLsb' 0 8) (v.extractLsb' 8 8) = v := by
  rw [le16, BitVec.extractLsb'_append_extractLsb'_eq_extractLsb' (by rfl), BitVec.extractLsb'_eq_self]

/-- The four bytes of a word, joined again. -/
@[simp] theorem le32_extractLsb' (v : Word) :
    le32 (v.extractLsb' 0 8) (v.extractLsb' 8 8) (v.extractLsb' 16 8) (v.extractLsb' 24 8) = v := by
  have hlow : le16 (v.extractLsb' 0 8) (v.extractLsb' 8 8) = v.extractLsb' 0 16 :=
    BitVec.extractLsb'_append_extractLsb'_eq_extractLsb' rfl
  have hhigh : le16 (v.extractLsb' 16 8) (v.extractLsb' 24 8) = v.extractLsb' 16 16 :=
    BitVec.extractLsb'_append_extractLsb'_eq_extractLsb' rfl
  rw [le32, hlow, hhigh, BitVec.extractLsb'_append_extractLsb'_eq_extractLsb' (by rfl), BitVec.extractLsb'_eq_self]

/-! ### Operand fields: each decoder accepts the code of its value and nothing else -/

theorem chanOf_eq_ok {n : Nat} {c : Chan} : chanOf n = .ok c ↔ n = c.val := by
  unfold chanOf
  split_ifs with h
  · simp only [Except.ok.injEq, Fin.ext_iff]
  · simp only [false_iff]
    omega

theorem halfOf_eq_ok {n : Nat} {h : Half} : halfOf n = .ok h ↔ n = h.code := by
  unfold halfOf
  split_ifs <;> cases h <;> simp_all [Half.code]

theorem flagOf_eq_ok {n : Nat} {b : Bool} : flagOf n = .ok b ↔ n = flagCode b := by
  unfold flagOf
  split_ifs <;> cases b <;> simp_all [flagCode]

theorem arg16_eq_ok {v : Word} {w : Word16} : arg16 v = .ok w ↔ v = w.setWidth 32 := by
  unfold arg16
  split_ifs with h
  · rw [Except.ok.injEq]
    constructor <;> intro hvw <;> bv_omega
  · simp only [false_iff]
    bv_omega

theorem halfCode_lt (h : Half) : h.code < 2 := by cases h <;> decide

theorem flagCode_lt (b : Bool) : flagCode b < 2 := by cases b <;> decide

theorem toNat_eq_iff_eq_ofNat {w n : Nat} (hn : n < 2 ^ w) {b : BitVec w} : b.toNat = n ↔ b = BitVec.ofNat w n := by
  rw [BitVec.toNat_eq_nat, and_iff_right hn]

/-! A field of one byte in a TRACE record, of four bytes in a HWOP record (log entry 7). -/

theorem chanOf_byte {b : Byte} {c : Chan} : chanOf b.toNat = .ok c ↔ b = chanByte c :=
  chanOf_eq_ok.trans (toNat_eq_iff_eq_ofNat (by omega))

theorem chanOf_word {v : Word} {c : Chan} : chanOf v.toNat = .ok c ↔ v = natWord c.val :=
  chanOf_eq_ok.trans (toNat_eq_iff_eq_ofNat (by omega))

theorem halfOf_byte {b : Byte} {h : Half} : halfOf b.toNat = .ok h ↔ b = BitVec.ofNat 8 h.code :=
  halfOf_eq_ok.trans (toNat_eq_iff_eq_ofNat ((halfCode_lt h).trans (by decide)))

theorem halfOf_word {v : Word} {h : Half} : halfOf v.toNat = .ok h ↔ v = natWord h.code :=
  halfOf_eq_ok.trans (toNat_eq_iff_eq_ofNat ((halfCode_lt h).trans (by decide)))

theorem flagOf_byte {b : Byte} {f : Bool} : flagOf b.toNat = .ok f ↔ b = BitVec.ofNat 8 (flagCode f) :=
  flagOf_eq_ok.trans (toNat_eq_iff_eq_ofNat ((flagCode_lt f).trans (by decide)))

theorem flagOf_word {v : Word} {f : Bool} : flagOf v.toNat = .ok f ↔ v = natWord (flagCode f) :=
  flagOf_eq_ok.trans (toNat_eq_iff_eq_ofNat ((flagCode_lt f).trans (by decide)))

/-- A mapped result is the image of a result. -/
theorem exceptMap_eq_ok {ε α β : Type} {f : α → β} {x : Except ε α} {b : β} :
    x.map f = .ok b ↔ ∃ a, x = .ok a ∧ b = f a := by
  cases x with
  | error e => simp [Except.map]
  | ok a => simp [Except.map, eq_comm]

/-! ### Format CMD (R111 to R113) -/

theorem decodeCmdBytes_eq_ok {l : List Byte} {i : Instr} :
    decodeCmdBytes l = .ok i ↔ ∃ w, i = decodeCmd w ∧ l = bytes32 w := by
  constructor
  · intro h
    unfold decodeCmdBytes at h
    split at h
    · exact ⟨_, (Except.ok.inj h).symm, by simp⟩
    · simp at h
  · rintro ⟨w, rfl, rfl⟩
    simp [decodeCmdBytes, bytes32]

/-- Every word is the opcode of the command it decodes to: all 32 bits are compared (R111). -/
theorem encode_decodeCmd (w : Word) : (decodeCmd w).wellFormed = true ∧ encode (decodeCmd w) = some (cmdSlot w) := by
  by_cases hw : 6 ≤ w.toNat
  · rw [decodeCmd_of_six_le hw]
    exact ⟨decide_eq_true hw, rfl⟩
  · obtain ⟨n, hn, rfl⟩ : ∃ n < 6, w = BitVec.ofNat 32 n := ⟨w.toNat, by omega, by simp⟩
    interval_cases n <;> exact ⟨rfl, rfl⟩

/-! ### Format TRACE (R126) -/

theorem decodeWr_eq_ok {l : List Byte} {i : Instr} :
    decodeWr l = .ok i ↔ ∃ o v, i = .wr o v ∧ l = bytes16 o ++ bytes32 v := by
  constructor
  · intro h
    unfold decodeWr at h
    split at h
    · exact ⟨_, _, (Except.ok.inj h).symm, by simp⟩
    · simp at h
  · rintro ⟨o, v, rfl, rfl⟩
    simp [decodeWr, bytes16, bytes32]

theorem decodeRd_eq_ok {l : List Byte} {i : Instr} :
    decodeRd l = .ok i ↔ ∃ o v, i = .rd o v ∧ l = bytes16 o ++ bytes32 v := by
  constructor
  · intro h
    unfold decodeRd at h
    split at h
    · exact ⟨_, _, (Except.ok.inj h).symm, by simp⟩
    · simp at h
  · rintro ⟨o, v, rfl, rfl⟩
    simp [decodeRd, bytes16, bytes32]

theorem decodeBare_eq_ok {k i : Instr} {l : List Byte} : decodeBare k l = .ok i ↔ i = k ∧ l = [] := by
  cases l with
  | nil => simp [decodeBare, eq_comm]
  | cons b l => simp [decodeBare]

theorem decodeChanByte_eq_ok {f : Chan → Instr} {l : List Byte} {i : Instr} :
    decodeChanByte f l = .ok i ↔ ∃ c, i = f c ∧ l = [chanByte c] := by
  constructor
  · intro h
    unfold decodeChanByte at h
    split at h
    · obtain ⟨c, hc, rfl⟩ := exceptMap_eq_ok.1 h
      exact ⟨c, rfl, by rw [chanOf_byte.1 hc]⟩
    · simp at h
  · rintro ⟨c, rfl, rfl⟩
    exact exceptMap_eq_ok.2 ⟨c, chanOf_byte.2 rfl, rfl⟩

theorem decodeEng_eq_ok {l : List Byte} {i : Instr} :
    decodeEng l = .ok i ↔ ∃ c h k w, i = .eng c h k w ∧
      l = chanByte c :: BitVec.ofNat 8 h.code :: (bytes16 k ++ bytes16 w) := by
  constructor
  · intro h
    unfold decodeEng at h
    split at h
    · split at h
      case h_1 c x hc hx =>
        exact ⟨c, x, _, _, (Except.ok.inj h).symm, by simp [← chanOf_byte.1 hc, ← halfOf_byte.1 hx]⟩
      all_goals simp at h
    · simp at h
  · rintro ⟨c, x, k, w, rfl, rfl⟩
    have hx : halfOf (BitVec.ofNat 8 x.code).toNat = .ok x := halfOf_byte.2 rfl
    simp only [decodeEng, bytes16, List.cons_append, List.nil_append, chanOf_byte.2 rfl, hx, le16_extractLsb']

theorem decodeTrim_eq_ok {l : List Byte} {i : Instr} :
    decodeTrim l = .ok i ↔ ∃ a : TrimAnswers, i = .trim a ∧
      l = BitVec.ofNat 8 (flagCode a.ready) ::
        (bytes16 a.seOffset ++ bytes32 a.seGain ++ bytes16 a.diffOffset ++ bytes32 a.diffGain) := by
  constructor
  · intro h
    unfold decodeTrim at h
    split at h
    · obtain ⟨ready, hr, rfl⟩ := exceptMap_eq_ok.1 h
      exact ⟨_, rfl, by simp [← flagOf_byte.1 hr]⟩
    · simp at h
  · rintro ⟨a, rfl, rfl⟩
    exact exceptMap_eq_ok.2 ⟨a.ready, flagOf_byte.2 rfl, by simp⟩

/-- A tag matched by its number is the tag the encoder writes (R126: the whole byte). -/
theorem traceSlot_of_toNat {tag : Byte} {n : Nat} (h : tag.toNat = n) (ops : List Byte) :
    traceSlot (BitVec.ofNat 8 n) ops = ⟨.trace, tag :: ops⟩ := by
  subst h
  simp [traceSlot]

/-- A TRACE record that decodes is the encoder's: per tag, the operands are the encoded ones. -/
theorem encode_of_decodeTrace {l : List Byte} {i : Instr} (h : decodeTrace l = .ok i) :
    i.wellFormed = true ∧ encode i = some ⟨.trace, l⟩ := by
  unfold decodeTrace at h
  split at h
  · simp at h
  split at h <;> rename_i tag ops htag
  case h_9 => simp at h
  all_goals rw [← traceSlot_of_toNat htag]
  case h_1 =>
    obtain ⟨o, v, rfl, rfl⟩ := decodeWr_eq_ok.1 h
    exact ⟨rfl, rfl⟩
  case h_2 =>
    obtain ⟨o, v, rfl, rfl⟩ := decodeRd_eq_ok.1 h
    exact ⟨rfl, rfl⟩
  case h_3 | h_8 =>
    obtain ⟨rfl, rfl⟩ := decodeBare_eq_ok.1 h
    exact ⟨rfl, rfl⟩
  case h_4 =>
    obtain ⟨c, x, k, w, rfl, rfl⟩ := decodeEng_eq_ok.1 h
    exact ⟨rfl, rfl⟩
  case h_5 | h_6 =>
    obtain ⟨c, rfl, rfl⟩ := decodeChanByte_eq_ok.1 h
    exact ⟨rfl, rfl⟩
  case h_7 =>
    obtain ⟨a, rfl, rfl⟩ := decodeTrim_eq_ok.1 h
    exact ⟨rfl, rfl⟩

/-! ### Format HWOP (R125, log entry 7) -/

theorem words_bytes32_append (v : Word) (l : List Byte) : words (bytes32 v ++ l) = (words l).map (v :: ·) := by
  simp only [bytes32, List.cons_append, List.nil_append, words, le32_extractLsb']

theorem words_flatMap_bytes32 (args : List Word) : words (args.flatMap bytes32) = .ok args := by
  induction args with
  | nil => rfl
  | cons v args ih =>
    rw [List.flatMap_cons, words_bytes32_append, ih]
    rfl

theorem words_eq_ok {l : List Byte} {args : List Word} : words l = .ok args ↔ l = args.flatMap bytes32 := by
  constructor
  · intro h
    induction l using words.induct generalizing args with
    | case1 =>
      obtain rfl : [] = args := Except.ok.inj h
      rfl
    | case2 b0 b1 b2 b3 rest ih =>
      obtain ⟨more, hmore, rfl⟩ := exceptMap_eq_ok.1 h
      simp [ih hmore]
    | case3 l hnil hfour => simp [words] at h
  · rintro rfl
    exact words_flatMap_bytes32 args

theorem hwopProgramBuffer_eq_ok {vc vh a vl : Word} {i : Instr} :
    hwopProgramBuffer vc vh a vl = .ok i ↔ ∃ (c : Chan) (h : Half) (l : Word16), i = .programBuffer c h a l ∧
      vc = natWord c.val ∧ vh = natWord h.code ∧ vl = l.setWidth 32 := by
  unfold hwopProgramBuffer
  constructor
  · intro h
    split at h
    case h_1 c x l hc hx hl =>
      exact ⟨c, x, l, (Except.ok.inj h).symm, chanOf_word.1 hc, halfOf_word.1 hx, arg16_eq_ok.1 hl⟩
    all_goals simp at h
  · rintro ⟨c, x, l, rfl, hc, hx, hl⟩
    simp [chanOf_word.2 hc, halfOf_word.2 hx, arg16_eq_ok.2 hl]

/-- A primitive whose one argument is a channel. -/
theorem map_chanOf_word_eq_ok {f : Chan → Instr} {v : Word} {i : Instr} :
    (chanOf v.toNat).map f = .ok i ↔ ∃ c : Chan, i = f c ∧ v = natWord c.val := by
  simp only [exceptMap_eq_ok, chanOf_word, and_comm]

/-- A tag and arguments that decode are the encoder's. -/
theorem encode_of_decodeHwopArgs {tag : Nat} {args : List Word} {i : Instr} (h : decodeHwopArgs tag args = .ok i) :
    i.wellFormed = true ∧ encode i = some (hwopSlot (BitVec.ofNat 8 tag) args) := by
  unfold decodeHwopArgs at h
  split at h
  case h_1 =>
    obtain rfl := Except.ok.inj h
    exact ⟨rfl, rfl⟩
  case h_2 =>
    obtain ⟨c, x, l, rfl, rfl, rfl, rfl⟩ := hwopProgramBuffer_eq_ok.1 h
    exact ⟨rfl, rfl⟩
  case h_3 | h_4 | h_6 | h_7 =>
    obtain ⟨c, rfl, rfl⟩ := map_chanOf_word_eq_ok.1 h
    exact ⟨rfl, rfl⟩
  case h_5 =>
    obtain ⟨m, hm, rfl⟩ := exceptMap_eq_ok.1 h
    exact ⟨rfl, by rw [arg16_eq_ok.1 hm]; rfl⟩
  case h_8 =>
    obtain ⟨b, hb, rfl⟩ := exceptMap_eq_ok.1 h
    exact ⟨rfl, by rw [flagOf_word.1 hb]; rfl⟩
  case h_9 => split_ifs at h

theorem encode_of_decodeHwop {l : List Byte} {i : Instr} (h : decodeHwop l = .ok i) :
    i.wellFormed = true ∧ encode i = some ⟨.hwop, l⟩ := by
  unfold decodeHwop at h
  split at h
  · simp at h
  · rename_i tag rest
    split at h
    · rename_i args hargs
      obtain ⟨hwf, henc⟩ := encode_of_decodeHwopArgs h
      rw [words_eq_ok.1 hargs]
      exact ⟨hwf, by simpa [hwopSlot] using henc⟩
    · simp at h

theorem decode_hwopSlot (tag : Byte) (args : List Word) :
    decode (hwopSlot tag args) = decodeHwopArgs tag.toNat args := by
  simp only [decode, hwopSlot, decodeHwop, words_flatMap_bytes32]

/-! ### Format EVT (R121) -/

/-- The row of R121 for an event of kind k at channel c. -/
def eventInstr (c : Chan) : EventKind → Instr
  | .dataReady => .dataReady c
  | .sampleGroupComplete => .sampleGroupComplete c
  | .bufferFull => .bufferFull c
  | .transferError => .transferError c

theorem encode_eventInstr (c : Chan) (k : EventKind) :
    (eventInstr c k).wellFormed = true ∧ encode (eventInstr c k) = some (evtSlot k c) := by
  cases k <;> exact ⟨rfl, rfl⟩

theorem eventCode_lt (k : EventKind) : k.code < 4 := by cases k <;> decide

/-- The fields of an event word: CHANNEL below, EVENT above, nothing else. -/
theorem eq_eventWord {e : Word} {c : Chan} {k : EventKind} :
    e = Event.word ⟨c, k⟩ ↔ e.toNat / 256 = k.code ∧ e.toNat % 256 = c.val := by
  have hk := eventCode_lt k
  have hval : e.toNat = c.val + 256 * k.code ↔ e = Event.word ⟨c, k⟩ := toNat_eq_iff_eq_ofNat (by omega)
  rw [← hval]
  omega

theorem decodeEvt_eq_ok {e : Word} {i : Instr} :
    decodeEvt e = .ok i ↔ ∃ c k, i = eventInstr c k ∧ e = Event.word ⟨c, k⟩ := by
  constructor
  · intro h
    unfold decodeEvt at h
    split at h <;> rename_i hk
    · obtain ⟨c, hc, rfl⟩ := exceptMap_eq_ok.1 h
      exact ⟨c, .dataReady, rfl, eq_eventWord.2 ⟨hk, chanOf_eq_ok.1 hc⟩⟩
    · obtain ⟨c, hc, rfl⟩ := exceptMap_eq_ok.1 h
      exact ⟨c, .sampleGroupComplete, rfl, eq_eventWord.2 ⟨hk, chanOf_eq_ok.1 hc⟩⟩
    · obtain ⟨c, hc, rfl⟩ := exceptMap_eq_ok.1 h
      exact ⟨c, .bufferFull, rfl, eq_eventWord.2 ⟨hk, chanOf_eq_ok.1 hc⟩⟩
    · obtain ⟨c, hc, rfl⟩ := exceptMap_eq_ok.1 h
      exact ⟨c, .transferError, rfl, eq_eventWord.2 ⟨hk, chanOf_eq_ok.1 hc⟩⟩
    · simp at h
  · rintro ⟨c, k, rfl, he⟩
    obtain ⟨hk, hc⟩ := eq_eventWord.1 he
    unfold decodeEvt
    rw [hk, chanOf_eq_ok.2 hc]
    cases k <;> rfl

theorem decodeEvtBytes_bytes32 (e : Word) : decodeEvtBytes (bytes32 e) = decodeEvt e := by
  simp only [decodeEvtBytes, bytes32, le32_extractLsb']

theorem decodeEvtBytes_eq_ok {l : List Byte} {i : Instr} :
    decodeEvtBytes l = .ok i ↔ ∃ c k, i = eventInstr c k ∧ l = bytes32 (Event.word ⟨c, k⟩) := by
  constructor
  · intro h
    unfold decodeEvtBytes at h
    split at h
    · obtain ⟨c, k, rfl, he⟩ := decodeEvt_eq_ok.1 h
      exact ⟨c, k, rfl, by rw [← he, bytes32_le32]⟩
    · simp at h
  · rintro ⟨c, k, rfl, rfl⟩
    rw [decodeEvtBytes_bytes32]
    exact decodeEvt_eq_ok.2 ⟨c, k, rfl, rfl⟩

/-! ### Every format -/

/-- No bit of a record is dropped: what decodes is what the encoder writes. -/
theorem encode_of_decode {slot : Slot} {i : Instr} (h : decode slot = .ok i) :
    i.wellFormed = true ∧ encode i = some slot := by
  obtain ⟨fmt, bytes⟩ := slot
  cases fmt with
  | cmd =>
    obtain ⟨w, rfl, rfl⟩ := decodeCmdBytes_eq_ok.1 h
    exact encode_decodeCmd w
  | trace => exact encode_of_decodeTrace h
  | hwop => exact encode_of_decodeHwop h
  | evt =>
    obtain ⟨c, k, rfl, rfl⟩ := decodeEvtBytes_eq_ok.1 h
    exact encode_eventInstr c k

theorem decode_cmdSlot {w : Word} {i : Instr} (h : decodeCmd w = i) : decode (cmdSlot w) = .ok i :=
  decodeCmdBytes_eq_ok.2 ⟨w, h.symm, rfl⟩

theorem decode_evtSlot (k : EventKind) (c : Chan) : decode (evtSlot k c) = .ok (eventInstr c k) :=
  decodeEvtBytes_eq_ok.2 ⟨c, k, rfl, rfl⟩

/-- The encoder's record of a well-formed instruction reads back, row by row. -/
theorem decode_of_encode {i : Instr} {slot : Slot} (hi : i.wellFormed = true) (h : encode i = some slot) :
    decode slot = .ok i := by
  cases i with
  | nop | calLoad | configure | start | stop | deinit =>
    obtain rfl := Option.some.inj h
    exact decode_cmdSlot rfl
  | reservedCmd v =>
    obtain rfl := Option.some.inj h
    exact decode_cmdSlot (decodeCmd_of_six_le (of_decide_eq_true hi))
  | wr o v => exact Option.some.inj h ▸ decodeWr_eq_ok.2 ⟨o, v, rfl, rfl⟩
  | rd o v => exact Option.some.inj h ▸ decodeRd_eq_ok.2 ⟨o, v, rfl, rfl⟩
  | svc | reset => exact Option.some.inj h ▸ decodeBare_eq_ok.2 ⟨rfl, rfl⟩
  | eng c x k w => exact Option.some.inj h ▸ decodeEng_eq_ok.2 ⟨c, x, k, w, rfl, rfl⟩
  | half c | xerr c => exact Option.some.inj h ▸ decodeChanByte_eq_ok.2 ⟨c, rfl, rfl⟩
  | trim a => exact Option.some.inj h ▸ decodeTrim_eq_ok.2 ⟨a, rfl, rfl⟩
  | setClockDivider on total => exact Option.some.inj h ▸ decode_hwopSlot 0 [on, total]
  | programBuffer c x a l =>
    exact Option.some.inj h ▸ (decode_hwopSlot _ _).trans (hwopProgramBuffer_eq_ok.2 ⟨c, x, l, rfl, rfl, rfl, rfl⟩)
  | enableChannel c | unmaskInterrupt c | clearInterrupt c | maskInterrupt c =>
    exact Option.some.inj h ▸ (decode_hwopSlot _ _).trans (map_chanOf_word_eq_ok.2 ⟨c, rfl, rfl⟩)
  | readInterruptStatus m =>
    exact Option.some.inj h ▸ (decode_hwopSlot _ _).trans (exceptMap_eq_ok.2 ⟨m, arg16_eq_ok.2 rfl, rfl⟩)
  | setClockEnable b =>
    exact Option.some.inj h ▸ (decode_hwopSlot _ _).trans (exceptMap_eq_ok.2 ⟨b, flagOf_word.2 rfl, rfl⟩)
  | dataReady c => exact Option.some.inj h ▸ decode_evtSlot .dataReady c
  | sampleGroupComplete c => exact Option.some.inj h ▸ decode_evtSlot .sampleGroupComplete c
  | bufferFull c => exact Option.some.inj h ▸ decode_evtSlot .bufferFull c
  | transferError c => exact Option.some.inj h ▸ decode_evtSlot .transferError c
  | computeSchedule _ | roundPow2 _ | assignOffsets _ | apply _ _ => simp [encode] at h

/-- The pure functions alone have no record (R110). -/
theorem isSome_encode (i : Instr) : (encode i).isSome = i.hasRecord := by
  cases i <;> rfl

/-- Settles O1: an instruction with a record has an encoding, which decodes row by row. -/
theorem decodeEncodeAgree : Obligations.DecodeEncodeAgree := by
  intro i hi
  rw [← isSome_encode]
  refine ⟨fun hrec => ?_, fun hnone => by simpa using hnone⟩
  obtain ⟨slot, hslot⟩ := Option.isSome_iff_exists.1 hrec
  exact ⟨slot, hslot, decode_of_encode hi hslot⟩

/-- Settles O2: format by format, every byte of the record is a byte of an operand or the tag. -/
theorem decodedRecordsEncodeBack : Obligations.DecodedRecordsEncodeBack := fun _ _ => encode_of_decode

/-- Settles O3: the seven records evaluated. -/
theorem specWordsDecode : Obligations.SpecWordsDecode := by
  unfold Obligations.SpecWordsDecode
  decide

/-! ### Records that are no steps -/

/-- A record that decodes to no instruction stops the machine by name (U19). -/
theorem step_withSlot_refused {slot : Slot} (h : ∀ i, decode slot ≠ .ok i) (s : State) :
    ∃ e, step (s.withSlot slot) = .refused (.undecodable e) := by
  cases hd : decode slot with
  | ok i => exact absurd hd (h i)
  | error e => exact ⟨e, step_of_decode_error (s.withSlot_input slot) hd⟩

theorem decodeTrace_other_tag {tag : Byte} (h : tag ∉ [0x01, 0x02, 0x10, 0x20, 0x21, 0x22, 0x23, 0x30])
    (ops : List Byte) : decodeTrace (tag :: ops) = .error .badTag := by
  simp only [List.mem_cons, List.not_mem_nil, or_false] at h
  simp only [decodeTrace]
  split
  case h_9 => rfl
  all_goals bv_omega

theorem decodeHwopArgs_other_tag {tag : Nat} (h : 8 ≤ tag) (args : List Word) :
    decodeHwopArgs tag args = .error .badTag := by
  unfold decodeHwopArgs
  split
  case h_9 => exact if_neg (by omega)
  all_goals omega

theorem decodeHwop_other_tag {tag : Byte} (h : 8 ≤ tag.toNat) (args : List Byte) (i : Instr) :
    decodeHwop (tag :: args) ≠ .ok i := by
  cases hargs : words args with
  | ok vs => simp [decodeHwop, hargs, decodeHwopArgs_other_tag h]
  | error e => simp [decodeHwop, hargs]

/-- Settles O4: none of the three records decodes. An event word that decodes is one of R121's, which
`eq_eventWord` bounds. -/
theorem recordsOutsideTheTablesAreRefused : Obligations.RecordsOutsideTheTablesAreRefused := by
  refine ⟨fun tag ops htag => step_withSlot_refused fun i h => ?_,
    fun tag args htag => step_withSlot_refused (decodeHwop_other_tag htag args),
    fun e he => step_withSlot_refused fun i h => ?_⟩
  · have herr : decode ⟨.trace, tag :: ops⟩ = .error .badTag := decodeTrace_other_tag htag ops
    simp [herr] at h
  · have hdec : decodeEvt e = .ok i := decodeEvtBytes_bytes32 e ▸ h
    obtain ⟨c, k, _, hword⟩ := decodeEvt_eq_ok.1 hdec
    obtain ⟨hdiv, hmod⟩ := eq_eventWord.1 hword
    have hk := eventCode_lt k
    omega

/-! ### Steps that are one row of a table -/

/-- CAL_LOAD asks the answers a `trim` record fixed (R126). -/
theorem trimAnswers_of_trim {s : State} {a : TrimAnswers} (h : s.trim = some a) : trimAnswers s = a := by
  rw [trimAnswers, h, Option.getD_some]

/-- Settles O15: the outcomes of `calLoad_cases`, of which readiness leaves one. -/
theorem trimFixesTheNextCalLoad : Obligations.TrimFixesTheNextCalLoad := by
  intro a s
  refine ⟨rfl, fun hst hv => ⟨calLoad { s with trim := some a }, rfl, ?_⟩⟩
  have ha : trimAnswers { s with trim := some a } = a := trimAnswers_of_trim rfl
  rcases calLoad_cases { s with trim := some a } with ⟨hno, _⟩ | ⟨_, _, hr, heq⟩ | ⟨_, _, hr, heq⟩
  · exact absurd hno (by simp [hst, hv])
  · rw [ha] at hr
    rw [heq]
    simp [hr, hv]
  · rw [ha] at hr
    rw [heq]
    simp [ha, hr]

/-- Settles O39: each arm of `exec` is its `hw…` operation; the bits are those of `setBit` and `clearBit`. -/
theorem primitivesAppendTheirRecord : Obligations.PrimitivesAppendTheirRecord := by
  have hset (w : Word16) (c d : Chan) : bitOf (setBit w c) d = true ↔ bitOf w d = true ∨ d = c := by simp
  have hclear (w : Word16) (c d : Chan) : bitOf (clearBit w c) d = true ↔ bitOf w d = true ∧ d ≠ c := by simp
  intro s
  exact ⟨fun _ _ => rfl, fun _ _ _ _ => rfl, fun c => ⟨_, hset s.chEn c, rfl⟩, fun c => ⟨_, hclear s.irqMask c, rfl⟩,
    fun _ => rfl, fun c => ⟨_, hclear s.irqStatus c, rfl⟩, fun c => ⟨_, hset s.irqMask c, rfl⟩, fun _ => rfl⟩

/-! ### The pure functions as steps (log entry 4) -/

theorem exec_computeSchedule_of_ok {a : SchedArgs} (h : a.ok = true) (s : State) :
    exec (.computeSchedule a) s = .next (s.answer (.schedule (computeSchedule Config.params.delay a))) :=
  if_pos h

theorem exec_computeSchedule_of_not_ok {a : SchedArgs} (h : a.ok = false) (s : State) :
    exec (.computeSchedule a) s = .refused .outsideOperands :=
  if_neg (by simp [h])

theorem exec_roundPow2 (x : Nat) (s : State) :
    exec (.roundPow2 x) s = .next (s.answer (.factor (if 1 ≤ x then roundPow2 x else Config.roundPow2AtZero))) :=
  rfl

theorem exec_assignOffsets (sf : List Nat) (s : State) :
    exec (.assignOffsets sf) s =
      .next (s.answer (.offsets (if sf = [] then Config.offsetsOfNone else assignOffsets sf))) :=
  rfl

/-- Settles O41: the values at 0 and at no factor are the free ones of log entry 28. -/
theorem pureFunctionsAnswer : Obligations.PureFunctionsAnswer := by
  refine ⟨fun s => ⟨fun a ha => exec_computeSchedule_of_ok ha s, fun x hx => ?_, fun sf hsf => ?_, fun _ _ => rfl,
    fun a ha => exec_computeSchedule_of_not_ok ha s⟩, ⟨Config.roundPow2AtZero, fun _ => rfl⟩,
    ⟨Config.offsetsOfNone, fun _ => rfl⟩⟩
  · rw [exec_roundPow2, if_pos hx]
    rfl
  · rw [exec_assignOffsets, if_neg hsf]
    rfl

end Sys2Proof.Machine
end

section
/-! PROOFS. The scheduler family: round_pow2 (R154), the doubling loop (R157), the slot factors as a run of steps 1 to 5
(R151 to R159), the clock plan (R160 to R163), the laws of a schedule (R166), and what CONFIGURE hands over (R150). -/

namespace Sys2Proof.Machine

/-! ### round_pow2 (R154) -/

/-- Settles O42: strictly between 2^(k+1) and 2^(k+2) the least power of two above is 2^(k+2). -/
theorem roundPow2PicksTheNearerPower : Obligations.RoundPow2PicksTheNearerPower := by
  refine ⟨roundPow2_pow, fun s k hlow hhigh => ?_⟩
  have hhalf : 2 ^ (k + 2) / 2 = 2 ^ (k + 1) := by rw [pow_succ]; omega
  have hquarter : 2 ^ (k + 2) / 4 = 2 ^ k := by rw [pow_add]; omega
  rw [roundPow2, leastPow2_between hlow hhigh, if_neg hhigh.ne', hhalf, hquarter]

/-! ### The doubling loop (R157) -/

/-- j is the least number of doublings that brings the utilisation to at most 1 (R157, R158). -/
def FirstFit (sf : List Nat) (j : Nat) : Prop :=
  utilisation (sf.map (2 ^ j * ·)) ≤ 1 ∧ ∀ i, i < j → 1 < utilisation (sf.map (2 ^ i * ·))

theorem utilisation_map_mul (sf : List Nat) (m : Nat) :
    utilisation (sf.map (m * ·)) = (sf.map fun x : Nat => (1 : ℚ) / ((m * x : Nat) : ℚ)).sum := by
  rw [utilisation, List.map_map]
  rfl

/-- Factors m times as large make an m-th of the utilisation. -/
theorem utilisation_map_mul_eq_div (sf : List Nat) (m : Nat) :
    utilisation (sf.map (m * ·)) = utilisation sf / (m : ℚ) := by
  rw [utilisation_map_mul, utilisation, div_eq_mul_inv, ← List.sum_map_mul_right]
  refine congrArg List.sum (List.map_congr_left fun x _ => ?_)
  rw [Nat.cast_mul, one_div, one_div, mul_inv_rev]

theorem exists_firstFit (sf : List Nat) : ∃ j, FirstFit sf j := by
  classical
  have hex : ∃ j, utilisation (sf.map (2 ^ j * ·)) ≤ 1 := by
    obtain ⟨j, hj⟩ := pow_unbounded_of_one_lt (utilisation sf) one_lt_two
    refine ⟨j, ?_⟩
    rw [utilisation_map_mul_eq_div, Nat.cast_pow, Nat.cast_two, div_le_one (by positivity)]
    exact hj.le
  exact ⟨Nat.find hex, Nat.find_spec hex, fun i hi => not_le.1 (Nat.find_min hex hi)⟩

theorem map_two_pow_succ_mul (sf : List Nat) (j : Nat) :
    sf.map (2 ^ (j + 1) * ·) = (sf.map (2 * ·)).map (2 ^ j * ·) := by
  rw [List.map_map]
  refine List.map_congr_left fun x _ => ?_
  rw [Function.comp_apply, pow_succ, Nat.mul_assoc]

/-- After the first doubling one doubling less is missing. -/
theorem FirstFit.tail {sf : List Nat} {j : Nat} (h : FirstFit sf (j + 1)) : FirstFit (sf.map (2 * ·)) j := by
  obtain ⟨hfit, hover⟩ := h
  rw [map_two_pow_succ_mul] at hfit
  exact ⟨hfit, fun i hi => map_two_pow_succ_mul sf i ▸ hover (i + 1) (by omega)⟩

theorem overUtilised_eq_false_iff {sf : List Nat} (hx : ∀ x ∈ sf, 1 ≤ x) :
    overUtilised sf = false ↔ utilisation sf ≤ 1 := by
  rw [← Bool.not_eq_true, overUtilised_iff hx, not_lt]

/-- The loop makes the least number of doublings that fits, if every doubled factor is in range; the bound on its
rounds is not what ends it, since a factor of at least b passes 65535 before (R156, R157). -/
theorem doubleLoop_of_firstFit {sf : List Nat} {b fuel j : Nat} (hne : sf ≠ []) (hb : 1 ≤ b)
    (hlow : ∀ x ∈ sf, b ≤ x) (hhigh : ∀ x ∈ sf, x ≤ 65535) (hfuel : 65535 < b * 2 ^ fuel) (hj : FirstFit sf j) :
    doubleLoop fuel sf = if ∀ x ∈ sf, 2 ^ j * x ≤ 65535 then some (sf.map (2 ^ j * ·)) else none := by
  have hpos : ∀ x ∈ sf, 1 ≤ x := fun x hx => hb.trans (hlow x hx)
  induction fuel generalizing sf b j with
  | zero =>
    obtain ⟨x, hx⟩ := List.exists_mem_of_ne_nil sf hne
    have hbx := (hlow x hx).trans (hhigh x hx)
    simp only [pow_zero, Nat.mul_one] at hfuel
    omega
  | succ fuel ih =>
    rw [doubleLoop]
    cases j with
    | zero =>
      have hfits : overUtilised sf = false := (overUtilised_eq_false_iff hpos).2 (by simpa using hj.1)
      simpa [hfits] using hhigh
    | succ j =>
      have hover : overUtilised sf = true := (overUtilised_iff hpos).2 (by simpa using hj.2 0 (by omega))
      rw [if_pos hover]
      by_cases hdouble : ∀ x ∈ sf, 2 * x ≤ 65535
      · have hlow' : ∀ y ∈ sf.map (2 * ·), 2 * b ≤ y :=
          List.forall_mem_map.2 fun x hx => Nat.mul_le_mul_left 2 (hlow x hx)
        have hrec := ih (by simpa using hne) (by omega) hlow' (List.forall_mem_map.2 hdouble)
          (hfuel.trans_eq (by ring)) hj.tail
          (fun y hy => le_trans (by omega) (hlow' y hy))
        rw [if_pos (by simpa using hdouble), hrec, ← map_two_pow_succ_mul]
        simp only [List.forall_mem_map, pow_succ, Nat.mul_assoc]
      · obtain ⟨x, hx, htop⟩ : ∃ x ∈ sf, 65535 < 2 * x := by simpa using hdouble
        have hmore : 2 * x ≤ 2 ^ (j + 1) * x := Nat.mul_le_mul_right x (Nat.le_self_pow (by omega) 2)
        rw [if_neg (by simpa using hdouble), if_neg fun hall => by have := hall x hx; omega]

theorem relieve_of_firstFit {sf : List Nat} {j : Nat} (hne : sf ≠ []) (hsf : ∀ x ∈ sf, 1 ≤ x ∧ x ≤ 65535)
    (hj : FirstFit sf j) :
    relieve sf = if ∀ x ∈ sf, 2 ^ j * x ≤ 65535 then some (sf.map (2 ^ j * ·)) else none :=
  doubleLoop_of_firstFit hne le_rfl (fun x hx => (hsf x hx).1) (fun x hx => (hsf x hx).2) (by norm_num) hj

/-- Settles O43: a first fit exists, since the utilisation falls below any bound, and the loop stops there. -/
theorem doublingStopsAtTheFirstFit : Obligations.DoublingStopsAtTheFirstFit := by
  intro sf hne hsf
  obtain ⟨j, hj⟩ := exists_firstFit sf
  have hrelieve := relieve_of_firstFit hne hsf hj
  simp only [FirstFit, utilisation_map_mul] at hj
  exact ⟨j, hj.1, hj.2, hrelieve⟩

/-- `relieve` is the loop of R157 as a relation. -/
theorem relieve_eq_some_iff {sf out : List Nat} (hne : sf ≠ []) (hsf : ∀ x ∈ sf, 1 ≤ x ∧ x ≤ 65535) :
    relieve sf = some out ↔ Relieved sf out := by
  constructor
  · intro h
    obtain ⟨j, hj⟩ := exists_firstFit sf
    rw [relieve_of_firstFit hne hsf hj, Option.ite_none_right_eq_some, Option.some_inj] at h
    obtain ⟨htop, rfl⟩ := h
    exact ⟨j, rfl, List.forall_mem_map.2 htop, hj⟩
  · rintro ⟨j, rfl, htop, hj⟩
    rw [relieve_of_firstFit hne hsf hj, if_pos (List.forall_mem_map.1 htop)]

/-! ### The preconditions (R150) -/

/-- R150's chain of rates. -/
theorem ratesOk_iff {bound : Nat} {rates : List Nat} :
    ratesOk bound rates = true ↔ (∀ r ∈ rates, 1 ≤ r) ∧ (bound :: rates).IsChain (· ≥ ·) := by
  induction rates generalizing bound with
  | nil => simp [ratesOk]
  | cons r rs ih =>
    simp only [ratesOk, Bool.and_eq_true, decide_eq_true_eq, ih, List.forall_mem_cons, List.isChain_cons_cons]
    tauto

/-- R150, clause by clause. -/
theorem schedArgs_ok_iff {a : SchedArgs} :
    a.ok = true ↔ (1 ≤ a.base ∧ a.base < 2 ^ 32) ∧ (1 ≤ a.chans.length ∧ a.chans.length ≤ 16) ∧
      (1 ≤ a.ns0 ∧ a.ns0 ≤ 1023) ∧ (∀ c ∈ a.chans, 1 ≤ c.rate) ∧
      (5000000 :: a.chans.map (·.rate)).IsChain (· ≥ ·) := by
  simp only [SchedArgs.ok, Bool.and_eq_true, decide_eq_true_eq, ratesOk_iff, List.forall_mem_map, and_assoc]

/-- Inside the preconditions there is a base clock, a channel, and on each channel a rate. -/
theorem schedArgs_ok_positive {a : SchedArgs} (h : a.ok = true) :
    1 ≤ a.base ∧ a.chans ≠ [] ∧ ∀ c ∈ a.chans, 1 ≤ c.rate := by
  obtain ⟨⟨hbase, _⟩, ⟨hlen, _⟩, _, hrates, _⟩ := schedArgs_ok_iff.1 h
  exact ⟨hbase, List.length_pos_iff.1 hlen, hrates⟩

theorem chansBelow_getElem? {n : Nat} (hn : n ≤ 16) {i : Chan} (hi : i.val < n) : (chansBelow n)[i.val]? = some i := by
  have hlen : i.val < (chansBelow n).length := by rwa [length_chansBelow hn]
  rw [List.getElem?_eq_getElem hlen, Option.some_inj]
  exact Fin.ext (getElem_chansBelow hlen)

/-- Channels that pass check 5 ask for rates that do not rise, from the device maximum down. -/
theorem RequestValid.rates_isChain {p : Params} {s : State} (hv : RequestValid p s) :
    (5000000 :: (schedArgs s).chans.map (·.rate)).IsChain (· ≥ ·) := by
  have hgood : ∀ i ∈ chansBelow s.mode.n.toNat, RateGood s i := fun i hi => hv.rates i (mem_chansBelow.1 hi)
  rw [schedArgs, List.map_map, List.isChain_cons, List.isChain_map, List.isChain_iff_getElem]
  refine ⟨fun r hr => ?_, fun k hk => ?_⟩
  · obtain ⟨i, hi, rfl⟩ := List.mem_map.1 (List.mem_of_mem_head? hr)
    obtain ⟨_, hmax, _⟩ := hgood i hi
    exact hmax
  · obtain ⟨_, _, hprev⟩ := hgood _ (List.getElem_mem hk)
    exact hprev _ (by rw [getElem_chansBelow, getElem_chansBelow])

/-- Settles O17: check 4 bounds the base clock, checks 2, 5 and 6 the channels. -/
theorem validRequestsMeetThePreconditions : Obligations.ValidRequestsMeetThePreconditions := by
  intro p s hv
  obtain ⟨hn1, hn16, _⟩ := hv.count
  have hlen : (schedArgs s).chans.length = s.mode.n.toNat := by simp [schedArgs, length_chansBelow hn16]
  have hbase : 1 ≤ s.baseClk.toNat := by
    have := hv.clock
    bv_omega
  obtain ⟨hns, hns', _⟩ := hv.samples 0 hn1
  refine ⟨schedArgs_ok_iff.2 ⟨⟨hbase, s.baseClk.isLt⟩, hlen.symm ▸ ⟨hn1, hn16⟩, ⟨hns, hns'⟩, ?_, hv.rates_isChain⟩,
    rfl, rfl, rfl, hlen, fun i hi => ?_⟩
  · refine List.forall_mem_map.2 fun i hi => ?_
    obtain ⟨hrate, _⟩ := hv.rates i (mem_chansBelow.1 hi)
    exact hrate
  · rw [schedArgs, List.getElem?_map, chansBelow_getElem? hn16 hi]
    rfl

/-! ### The clock plan (R160 to R163) -/

/-- `cdiv` is the ceiling of R14. -/
theorem isCeil_cdiv (a : Nat) {b : Nat} (hb : 0 < b) : IsCeil a b (cdiv a b) :=
  ⟨le_cdiv_mul a hb, fun _ => (cdiv_le_iff hb).2⟩

theorem isCeil_iff {a b q : Nat} (hb : 0 < b) : IsCeil a b q ↔ q = cdiv a b := by
  refine ⟨fun ⟨hle, hleast⟩ => ?_, fun h => h ▸ isCeil_cdiv a hb⟩
  exact le_antisymm (hleast _ (le_cdiv_mul a hb)) ((cdiv_le_iff hb).2 hle)

theorem channelHold_le_holdNs {delay : Nat → Nat} {chans : List SchedChan} {c : SchedChan} (hc : c ∈ chans) :
    channelHold delay c ≤ holdNs delay chans :=
  le_foldl_max (.inr (List.mem_map_of_mem hc))

/-- h[i] is at least each of its three bounds (R160). -/
theorem le_channelHold (delay : Nat → Nat) (c : SchedChan) :
    delay c.gain.toNat ≤ channelHold delay c ∧ (c.dac = true → 3500 ≤ channelHold delay c) ∧
      100 ≤ channelHold delay c := by
  rw [channelHold]
  refine ⟨by omega, fun hdac => ?_, by omega⟩
  rw [if_pos hdac]
  omega

/-- h[i] is one of its three bounds (R160). -/
theorem channelHold_cases (delay : Nat → Nat) (c : SchedChan) :
    channelHold delay c = delay c.gain.toNat ∨ (c.dac = true ∧ channelHold delay c = 3500) ∨
      channelHold delay c = 100 := by
  rw [channelHold]
  split_ifs with hdac
  · simp only [hdac, true_and]
    omega
  · omega

theorem one_hundred_le_holdNs (delay : Nat → Nat) {chans : List SchedChan} (hne : chans ≠ []) :
    100 ≤ holdNs delay chans := by
  obtain ⟨c, hc⟩ := List.exists_mem_of_ne_nil chans hne
  obtain ⟨_, _, hmin⟩ := le_channelHold delay c
  exact hmin.trans (channelHold_le_holdNs hc)

/-- `hold_ns` is the hold time of a channel (R160). -/
theorem exists_channelHold_eq_holdNs (delay : Nat → Nat) {chans : List SchedChan} (hne : chans ≠ []) :
    ∃ c ∈ chans, channelHold delay c = holdNs delay chans := by
  rcases foldl_max_mem (chans.map (channelHold delay)) 0 with h | h
  · have hmin : 100 ≤ holdNs delay chans := one_hundred_le_holdNs delay hne
    rw [holdNs, h] at hmin
    omega
  · exact List.mem_map.1 h

/-- R163: the static override is a lower bound. -/
theorem staticTotal_eq_max (static : Bool) (base rate0 total : Nat) :
    staticTotal static base rate0 total = max total (if static then cdiv base rate0 else 0) := by
  cases static with
  | false => simp [staticTotal]
  | true =>
    simp only [staticTotal, Bool.true_and, decide_eq_true_eq, if_true]
    split_ifs <;> omega

/-- Settles O45: hold is `hold_ns`, and the other three are the ceilings the model computes. -/
theorem clockPlanFollowsTheHoldTime : Obligations.ClockPlanFollowsTheHoldTime := by
  intro delay a sch hok hsch
  obtain ⟨_, hne, hrates⟩ := schedArgs_ok_positive hok
  obtain ⟨_, _, _, hon, htotal⟩ := computeSchedule_eq_some hsch
  refine ⟨holdNs delay a.chans, onCyclesOf a.base (holdNs delay a.chans),
    cdiv (a.base * (holdNs delay a.chans + 100)) (10 ^ 9), cdiv a.base ((a.chans.map (·.rate)).headD 0),
    fun c hc => ?_, ?_, isCeil_cdiv _ (by norm_num), isCeil_cdiv _ (by norm_num), fun c0 hc0 => ?_, hon, ?_⟩
  · obtain ⟨hdelay, hdac, hmin⟩ := le_channelHold delay c
    have hle : channelHold delay c ≤ holdNs delay a.chans := channelHold_le_holdNs hc
    exact ⟨hdelay.trans hle, fun h => (hdac h).trans hle, hmin.trans hle⟩
  · obtain ⟨c, hc, heq⟩ := exists_channelHold_eq_holdNs delay hne
    exact ⟨c, hc, heq ▸ channelHold_cases delay c⟩
  · have hhead : (a.chans.map (·.rate)).headD 0 = c0.rate := by simp [hc0]
    rw [hhead]
    exact isCeil_cdiv _ (hrates c0 (List.mem_of_mem_head? hc0))
  · rw [htotal, staticTotal_eq_max]
    rfl

/-! ### The laws of a schedule (R166) -/

/-- A power of two of at least 2, divided by 4 and floored at 2, is one. -/
theorem isPow2_quarter {x : Nat} (h : ∃ k, x = 2 ^ k) : ∃ k, max 2 (x / 4) = 2 ^ k := by
  obtain ⟨k, rfl⟩ := h
  rcases Nat.lt_or_ge k 3 with hk | hk
  · exact ⟨1, by interval_cases k <;> rfl⟩
  · obtain ⟨m, rfl⟩ := Nat.exists_eq_add_of_le hk
    refine ⟨m + 1, ?_⟩
    have height : 2 ^ (3 + m) = 4 * 2 ^ (m + 1) := by ring
    have htwo : 2 ≤ 2 ^ (m + 1) := Nat.le_self_pow (by omega) 2
    omega

/-- Step 5 keeps the laws: the first factor is the least and is only lowered (R159). -/
theorem singleSample_laws {ns0 n : Nat} {sf out : List Nat} (h : singleSample ns0 sf = some out)
    (hs : FactorLaws n sf) : FactorLaws n out ∧ out.length = sf.length := by
  obtain ⟨hrange, hfits, hlen⟩ := singleSample_range h (fun x hx => ⟨hs.low x hx, hs.high x hx⟩) hs.fits
  suffices hrest : (1 < n → ∀ x ∈ out, ∃ k, x = 2 ^ k) ∧ out.Pairwise (· ≤ ·) from
    ⟨⟨fun x hx => (hrange x hx).1, fun x hx => (hrange x hx).2, hrest.1, hrest.2, hfits⟩, hlen⟩
  cases sf with
  | nil =>
    obtain rfl := Option.some.inj h
    exact ⟨hs.pow2, hs.sorted⟩
  | cons x xs =>
    simp only [singleSample] at h
    split_ifs at h with h1
    · obtain ⟨_, j, rfl, _⟩ := relieve_spec h
      have hx := hs.low x List.mem_cons_self
      obtain ⟨hfirst, hsorted⟩ := List.pairwise_cons.1 hs.sorted
      refine ⟨fun hn => List.forall_mem_map.2 fun y hy => isPow2_mul ?_, pairwise_map_mul j ?_⟩
      · obtain ⟨hpow, hpows⟩ := List.forall_mem_cons.1 (hs.pow2 hn)
        rcases List.mem_cons.1 hy with rfl | hy
        · exact isPow2_quarter hpow
        · exact hpows y hy
      · exact List.pairwise_cons.2 ⟨fun y hy => le_trans (by omega) (hfirst y hy), hsorted⟩
    · obtain rfl := Option.some.inj h
      exact ⟨hs.pow2, hs.sorted⟩

/-- Settles O46: steps 1 to 4 and step 5 keep the laws of the factors, and the clock plan is in order. -/
theorem schedulesKeepTheLaws : Obligations.SchedulesKeepTheLaws := by
  intro delay a hok
  cases hsch : computeSchedule delay a with
  | none => exact .inl rfl
  | some sch =>
    obtain ⟨hbase, hne, hrates⟩ := schedArgs_ok_positive hok
    obtain ⟨sf0, hsf0, hlast, hon, htotal⟩ := computeSchedule_eq_some hsch
    obtain ⟨hlaws0, hlen0⟩ := slotFactors_laws hsf0 (List.forall_mem_map.2 hrates)
    obtain ⟨hlaws, hlen⟩ := singleSample_laws hlast hlaws0
    rw [List.length_map] at hlaws hlen0
    have hhold : 100 ≤ holdNs delay a.chans := one_hundred_le_holdNs delay hne
    refine .inr ⟨sch, rfl, hlen.trans hlen0, fun x hx => ⟨hlaws.low x hx, hlaws.high x hx⟩, hlaws.pow2, hlaws.sorted,
      (overUtilised_eq_false_iff fun x hx => ?_).1 hlaws.fits, ?_, ?_⟩
    · exact le_trans (by norm_num) (hlaws.low x hx)
    · rw [hon]
      exact one_le_cdiv (Nat.mul_pos (by omega) hbase) (by norm_num)
    · rw [hon, htotal]
      exact (onCyclesOf_lt_totalCyclesOf _ _).trans_le (le_staticTotal _ _ _ _)

/-! ### The slot factors as a run of steps 1 to 5 (R151 to R159) -/

/-- The factors of a run: there is one, and each is in 2..65535. -/
structure FactorsInRange (sf : List Nat) : Prop where
  nonempty : sf ≠ []
  range : ∀ x ∈ sf, 2 ≤ x ∧ x ≤ 65535

theorem FactorsInRange.relieve_iff {sf out : List Nat} (h : FactorsInRange sf) :
    relieve sf = some out ↔ Relieved sf out := by
  obtain ⟨hne, hsf⟩ := h
  exact relieve_eq_some_iff hne fun x hx => ⟨le_trans (by norm_num) (hsf x hx).1, (hsf x hx).2⟩

theorem FactorsInRange.relieve {sf out : List Nat} (h : FactorsInRange sf) (hout : relieve sf = some out) :
    FactorsInRange out := by
  obtain ⟨hne, hsf⟩ := h
  obtain ⟨_, j, hj, _⟩ := relieve_spec hout
  exact ⟨by simpa [hj] using hne, relieve_range hout hsf⟩

theorem factorsInRange_append {prev : List Nat} (hprev : ∀ x ∈ prev, 2 ≤ x ∧ x ≤ 65535) {v : Nat} (hlow : 2 ≤ v)
    (hhigh : v ≤ 65535) : FactorsInRange (prev ++ [v]) := by
  refine ⟨by simp, fun x hx => ?_⟩
  rcases List.mem_append.1 hx with hx | hx
  · exact hprev x hx
  · obtain rfl := List.mem_singleton.1 hx
    exact ⟨hlow, hhigh⟩

/-- The loop body as one condition: range, rounding, range, relief (R151, R155, R156). -/
theorem addFactor_eq_some_iff {n : Nat} {prev out : List Nat} {v : Nat} :
    addFactor n prev v = some out ↔
      v ≤ 65535 ∧ (1 < n → roundPow2 v ≤ 65535) ∧
        relieve (prev ++ [if 1 < n then roundPow2 v else v]) = some out := by
  by_cases hv : v ≤ 65535
  · by_cases hn : 1 < n
    · by_cases hr : roundPow2 v ≤ 65535 <;> simp [addFactor, fitFactor, hv, hn, hr]
    · simp [addFactor, fitFactor, hv, hn]
  · simp [addFactor, fitFactor, hv]

/-- The factors a loop body hands to the relief are in range. -/
theorem factorsInRange_append_rounded {n : Nat} {prev : List Nat} (hprev : ∀ x ∈ prev, 2 ≤ x ∧ x ≤ 65535) {v : Nat}
    (hv : 2 ≤ v) (hfit : v ≤ 65535) (hround : 1 < n → roundPow2 v ≤ 65535) :
    FactorsInRange (prev ++ [if 1 < n then roundPow2 v else v]) := by
  split_ifs with hn
  · exact factorsInRange_append hprev (two_le_roundPow2 hv) (hround hn)
  · exact factorsInRange_append hprev hv hfit

/-- A created factor of at least 2 is added as the run says. -/
theorem addFactor_iff_factorAdded {a : SchedArgs} {prev out : List Nat} {v : Nat}
    (hprev : ∀ x ∈ prev, 2 ≤ x ∧ x ≤ 65535) (hv : 2 ≤ v) :
    addFactor a.chans.length prev v = some out ↔ FactorAdded a prev v out := by
  rw [addFactor_eq_some_iff, FactorAdded]
  exact and_congr_right fun hfit => and_congr_right fun hround =>
    (factorsInRange_append_rounded hprev hv hfit hround).relieve_iff

theorem addFactor_inRange {n : Nat} {prev out : List Nat} {v : Nat} (hprev : ∀ x ∈ prev, 2 ≤ x ∧ x ≤ 65535)
    (hv : 2 ≤ v) (h : addFactor n prev v = some out) : FactorsInRange out := by
  obtain ⟨hfit, hround, hout⟩ := addFactor_eq_some_iff.1 h
  exact (factorsInRange_append_rounded hprev hv hfit hround).relieve hout

/-- Step 2 from a channel and the factors so far to the next channel and its factors (R153). -/
def StageStep (a : SchedArgs) (x y : SchedChan × List Nat) : Prop :=
  ∃ q f, IsCeil x.1.rate y.1.rate q ∧ x.2.getLast? = some f ∧ FactorAdded a x.2 (f * q) y.2

theorem FactorsInRange.getLast? {sf : List Nat} (h : FactorsInRange sf) : sf.getLast? = some (sf.getLastD 0) := by
  rw [List.getLastD_eq_getLast?, List.getLast?_eq_some_getLast h.nonempty, Option.getD_some]

/-- The first value of a next factor is at least 2 (R153). -/
theorem FactorsInRange.two_le_next {prev : List Nat} (h : FactorsInRange prev) {r r' : Nat} (hr : 1 ≤ r)
    (hr' : 1 ≤ r') : 2 ≤ prev.getLastD 0 * cdiv r r' := by
  obtain ⟨hlow, _⟩ := h.range _ (List.mem_of_getLast? h.getLast?)
  exact hlow.trans (Nat.le_mul_of_pos_right _ (one_le_cdiv hr hr'))

theorem stageStep_iff {a : SchedArgs} {p c : SchedChan} {prev cur : List Nat} (hprev : FactorsInRange prev)
    (hp : 1 ≤ p.rate) (hc : 1 ≤ c.rate) :
    StageStep a (p, prev) (c, cur) ↔
      addFactor a.chans.length prev (prev.getLastD 0 * cdiv p.rate c.rate) = some cur := by
  rw [addFactor_iff_factorAdded hprev.range (hprev.two_le_next hp hc)]
  constructor
  · rintro ⟨q, f, hq, hf, hadded⟩
    obtain rfl := (isCeil_iff hc).1 hq
    obtain rfl := Option.some.inj (hprev.getLast?.symm.trans hf)
    exact hadded
  · exact fun hadded => ⟨_, _, isCeil_cdiv _ hc, hprev.getLast?, hadded⟩

/-- A chain, by positions. -/
theorem isChain_iff_getElem? {α : Type} {R : α → α → Prop} {l : List α} :
    l.IsChain R ↔ ∀ i x y, l[i]? = some x → l[i + 1]? = some y → R x y := by
  rw [List.isChain_iff_getElem]
  constructor
  · intro h i x y hx hy
    obtain ⟨_, rfl⟩ := List.getElem?_eq_some_iff.1 hx
    obtain ⟨hi, rfl⟩ := List.getElem?_eq_some_iff.1 hy
    exact h i hi
  · exact fun h i hi => h i _ _ (List.getElem?_eq_getElem _) (List.getElem?_eq_getElem hi)

/-- The clause of a run about the later channels says that its stages are a chain of such steps. -/
theorem isChain_stageStep_iff {a : SchedArgs} {stages : List (List Nat)} :
    (a.chans.zip stages).IsChain (StageStep a) ↔
      ∀ (i : Nat) p c prev cur, a.chans[i]? = some p → a.chans[i + 1]? = some c →
        stages[i]? = some prev → stages[i + 1]? = some cur →
        ∃ q f, IsCeil p.rate c.rate q ∧ prev.getLast? = some f ∧ FactorAdded a prev (f * q) cur := by
  simp only [isChain_iff_getElem?, List.getElem?_zip_eq_some, Prod.forall, StageStep]
  exact ⟨fun h i p c prev cur hp hc hprev hcur => h i p prev c cur ⟨hp, hprev⟩ ⟨hc, hcur⟩,
    fun h i p prev c cur hx hy => h i p c prev cur hx.1 hy.1 hx.2 hy.2⟩

/-- The cascade answers the factors of the last stage of a chain of steps. -/
theorem cascade_eq_some_iff {a : SchedArgs} {p : SchedChan} {cs : List SchedChan} {sf out : List Nat}
    (hsf : FactorsInRange sf) (hrates : ∀ c ∈ p :: cs, 1 ≤ c.rate) :
    cascade a.chans.length sf p.rate (cs.map (·.rate)) = some out ↔
      ∃ stages : List (List Nat), stages.length = cs.length ∧
        ((p, sf) :: cs.zip stages).IsChain (StageStep a) ∧ (sf :: stages).getLast? = some out := by
  induction cs generalizing p sf with
  | nil =>
    constructor
    · intro h
      obtain rfl := Option.some.inj h
      exact ⟨[], rfl, List.isChain_singleton _, rfl⟩
    · rintro ⟨stages, hlen, _, hlast⟩
      obtain rfl := List.eq_nil_of_length_eq_zero hlen
      exact hlast
  | cons c cs ih =>
    obtain ⟨hp, hrest⟩ := List.forall_mem_cons.1 hrates
    have hc : 1 ≤ c.rate := hrest c List.mem_cons_self
    rw [List.map_cons, cascade]
    constructor
    · intro h
      cases hadd : addFactor a.chans.length sf (sf.getLastD 0 * cdiv p.rate c.rate) with
      | none => simp only [hadd, reduceCtorEq] at h
      | some mid =>
        simp only [hadd] at h
        have hmid := addFactor_inRange hsf.range (hsf.two_le_next hp hc) hadd
        obtain ⟨stages, hlen, hchain, hlast⟩ := (ih hmid hrest).1 h
        exact ⟨mid :: stages, by simp [hlen],
          List.isChain_cons_cons.2 ⟨(stageStep_iff hsf hp hc).2 hadd, hchain⟩, by simpa using hlast⟩
    · rintro ⟨stages, hlen, hchain, hlast⟩
      obtain ⟨mid, stages, rfl⟩ := List.exists_cons_of_length_eq_add_one hlen
      obtain ⟨hstep, hchain⟩ := List.isChain_cons_cons.1 hchain
      have hadd := (stageStep_iff hsf hp hc).1 hstep
      have hmid := addFactor_inRange hsf.range (hsf.two_le_next hp hc) hadd
      simp only [hadd]
      exact (ih hmid hrest).2 ⟨stages, by simpa using hlen, hchain, by simpa using hlast⟩

/-- Steps 1 to 4 answer the factors of the last stage. -/
theorem slotFactors_eq_some_iff {a : SchedArgs} {c0 : SchedChan} {cs : List SchedChan} {sf : List Nat}
    (hchans : a.chans = c0 :: cs) (hrates : ∀ c ∈ a.chans, 1 ≤ c.rate) :
    slotFactors a.base (a.chans.map (·.rate)) = some sf ↔
      ∃ s0 stages, stages.length = cs.length ∧
        FactorAdded a [] (max 2 (cdiv a.base c0.rate)) s0 ∧
        (a.chans.zip (s0 :: stages)).IsChain (StageStep a) ∧ (s0 :: stages).getLast? = some sf := by
  have hnil : ∀ x ∈ ([] : List Nat), 2 ≤ x ∧ x ≤ 65535 := by simp
  have hfirst : 2 ≤ max 2 (cdiv a.base c0.rate) := le_max_left _ _
  have hlen : (cs.map (·.rate)).length + 1 = a.chans.length := by simp [hchans]
  have hmap : a.chans.map (·.rate) = c0.rate :: cs.map (·.rate) := by rw [hchans, List.map_cons]
  have hzip (s0 : List Nat) (stages : List (List Nat)) :
      a.chans.zip (s0 :: stages) = (c0, s0) :: cs.zip stages := by rw [hchans, List.zip_cons_cons]
  have hrates' : ∀ c ∈ c0 :: cs, 1 ≤ c.rate := hchans ▸ hrates
  simp only [hzip]
  rw [hmap, slotFactors, hlen]
  constructor
  · intro h
    cases hadd : addFactor a.chans.length [] (max 2 (cdiv a.base c0.rate)) with
    | none => simp only [hadd, reduceCtorEq] at h
    | some s0 =>
      simp only [hadd] at h
      obtain ⟨stages, hstages, hchain, hlast⟩ :=
        (cascade_eq_some_iff (addFactor_inRange hnil hfirst hadd) hrates').1 h
      exact ⟨s0, stages, hstages, (addFactor_iff_factorAdded hnil hfirst).1 hadd, hchain, hlast⟩
  · rintro ⟨s0, stages, hstages, hadded, hchain, hlast⟩
    have hadd := (addFactor_iff_factorAdded hnil hfirst).2 hadded
    simp only [hadd]
    exact (cascade_eq_some_iff (addFactor_inRange hnil hfirst hadd) hrates').2 ⟨stages, hstages, hchain, hlast⟩

/-- Step 5 (R159) as the run says it. -/
theorem singleSample_eq_some_iff {ns0 : Nat} {sf out : List Nat} (hsf : FactorsInRange sf) :
    singleSample ns0 sf = some out ↔
      ∀ x xs, sf = x :: xs → if ns0 = 1 then Relieved (max 2 (x / 4) :: xs) out else out = x :: xs := by
  obtain ⟨hne, hrange⟩ := hsf
  cases sf with
  | nil => exact absurd rfl hne
  | cons x xs =>
    obtain ⟨hx, hxs⟩ := List.forall_mem_cons.1 hrange
    have hquarter : FactorsInRange (max 2 (x / 4) :: xs) :=
      ⟨List.cons_ne_nil _ _, List.forall_mem_cons.2 ⟨by omega, hxs⟩⟩
    simp only [singleSample, List.cons.injEq, and_imp, forall_eq', forall_apply_eq_imp_iff]
    split_ifs
    · exact hquarter.relieve_iff
    · rw [Option.some_inj, eq_comm]

/-- The factors of steps 1 to 4 are in range (R166). -/
theorem slotFactors_inRange {base : Nat} {rates sf : List Nat} (h : slotFactors base rates = some sf)
    (hne : rates ≠ []) (hr : ∀ r ∈ rates, 1 ≤ r) : FactorsInRange sf := by
  obtain ⟨hlaws, hlen⟩ := slotFactors_laws h hr
  refine ⟨fun hnil => hne ?_, fun x hx => ⟨hlaws.low x hx, hlaws.high x hx⟩⟩
  rw [← List.length_eq_zero_iff, ← hlen, hnil, List.length_nil]

/-- The runs of steps 1 to 5 and the answers of the model's steps are the same. -/
theorem exists_factorRun_iff {a : SchedArgs} {out : List Nat} (hne : a.chans ≠ [])
    (hrates : ∀ c ∈ a.chans, 1 ≤ c.rate) :
    (∃ stages, FactorRun a stages out) ↔
      ∃ sf0, slotFactors a.base (a.chans.map (·.rate)) = some sf0 ∧ singleSample a.ns0 sf0 = some out := by
  obtain ⟨c0, cs, hchans⟩ := List.exists_cons_of_ne_nil hne
  have hhead : a.chans[0]? = some c0 := by rw [hchans, List.getElem?_cons_zero]
  have hc0 : 1 ≤ c0.rate := hrates c0 (hchans ▸ List.mem_cons_self)
  have hcount : a.chans.length = cs.length + 1 := by rw [hchans, List.length_cons]
  have hrange {sf0 : List Nat} (h : slotFactors a.base (a.chans.map (·.rate)) = some sf0) : FactorsInRange sf0 :=
    slotFactors_inRange h (by simpa using hne) (List.forall_mem_map.2 hrates)
  constructor
  · rintro ⟨stages, hrun⟩
    obtain ⟨s0, stages, rfl⟩ := List.exists_cons_of_length_eq_add_one (hrun.length.trans hcount)
    obtain ⟨q, hq, hadded⟩ := hrun.first c0 s0 hhead rfl
    obtain rfl := (isCeil_iff hc0).1 hq
    have hlast := List.getLast?_eq_some_getLast (List.cons_ne_nil s0 stages)
    have hsf0 := (slotFactors_eq_some_iff hchans hrates).2
      ⟨s0, stages, Nat.succ.inj (hrun.length.trans hcount), hadded, isChain_stageStep_iff.2 hrun.next, hlast⟩
    have hstep5 := (singleSample_eq_some_iff (hrange hsf0)).2 fun x xs hx =>
      hrun.last x xs (hlast.trans (congrArg some hx))
    exact ⟨_, hsf0, hstep5⟩
  · rintro ⟨sf0, hsf0, hout⟩
    obtain ⟨s0, stages, hlen, hadded, hchain, hlast⟩ := (slotFactors_eq_some_iff hchans hrates).1 hsf0
    refine ⟨s0 :: stages, by simp [hchans, hlen], fun c cur hc hcur => ?_, isChain_stageStep_iff.1 hchain,
      fun x xs hx => (singleSample_eq_some_iff (hrange hsf0)).1 hout x xs (Option.some.inj (hlast.symm.trans hx))⟩
    obtain rfl := Option.some.inj (hhead.symm.trans hc)
    obtain rfl := Option.some.inj hcur
    exact ⟨_, isCeil_cdiv _ hc0, hadded⟩

/-- The clock plan never makes `compute_schedule` infeasible (R165). -/
theorem exists_computeSchedule_iff {delay : Nat → Nat} {a : SchedArgs} {out : List Nat} :
    (∃ sch, computeSchedule delay a = some sch ∧ sch.sf = out) ↔
      ∃ sf0, slotFactors a.base (a.chans.map (·.rate)) = some sf0 ∧ singleSample a.ns0 sf0 = some out := by
  constructor
  · rintro ⟨sch, hsch, rfl⟩
    obtain ⟨sf0, hsf0, hout, _⟩ := computeSchedule_eq_some hsch
    exact ⟨sf0, hsf0, hout⟩
  · rintro ⟨sf0, hsf0, hout⟩
    simp only [computeSchedule, hsf0, hout]
    exact ⟨_, rfl, rfl⟩

/-! ### One channel (R155, R159) -/

theorem overUtilised_singleton {v : Nat} (hv : 1 ≤ v) : overUtilised [v] = false := by
  simpa [overUtilised, commonMultiple, Nat.div_self hv] using Nat.pos_iff_ne_zero.1 hv

theorem addFactor_single {v : Nat} (hv : 1 ≤ v) : addFactor 1 [] v = if v ≤ 65535 then some [v] else none := by
  have hrelieve := relieve_of_not_over (overUtilised_singleton hv)
  split_ifs with hfit <;> simp [addFactor, fitFactor, hfit, hrelieve]

theorem slotFactors_singleton (base r : Nat) :
    slotFactors base [r] = if max 2 (cdiv base r) ≤ 65535 then some [max 2 (cdiv base r)] else none := by
  rw [slotFactors, List.length_nil, Nat.zero_add, addFactor_single (by omega)]
  split_ifs <;> rfl

theorem singleSample_singleton (ns0 v : Nat) :
    singleSample ns0 [v] = some [if ns0 = 1 then max 2 (v / 4) else v] := by
  have hrelieve := relieve_of_not_over (overUtilised_singleton (v := max 2 (v / 4)) (by omega))
  rw [singleSample]
  split_ifs
  · exact hrelieve
  · rfl

/-- Settles O44: the runs are the answers, and one channel's factor is the ceiling, floored and not rounded. -/
theorem slotFactorsFollowTheSteps : Obligations.SlotFactorsFollowTheSteps := by
  intro delay a hok
  obtain ⟨_, hne, hrates⟩ := schedArgs_ok_positive hok
  have hrun (out : List Nat) :
      (∃ sch, computeSchedule delay a = some sch ∧ sch.sf = out) ↔ ∃ stages, FactorRun a stages out :=
    exists_computeSchedule_iff.trans (exists_factorRun_iff hne hrates).symm
  refine ⟨fun sch hsch => (hrun sch.sf).1 ⟨sch, hsch, rfl⟩, fun stages out h => (hrun out).2 ⟨stages, h⟩,
    fun ch hch => ⟨cdiv a.base ch.rate, isCeil_cdiv _ (hrates ch (by simp [hch])), fun hover => ?_, fun hfit => ?_⟩⟩
  · have hslot := slotFactors_singleton a.base ch.rate
    rw [if_neg (by omega)] at hslot
    rw [computeSchedule, hch, List.map_singleton, hslot]
  · have hslot := slotFactors_singleton a.base ch.rate
    rw [if_pos hfit] at hslot
    exact exists_computeSchedule_iff.2 ⟨_, by rw [hch, List.map_singleton, hslot], singleSample_singleton _ _⟩

end Sys2Proof.Machine
end

section
/-! PROOFS. The allocator family: the scan is the greedy first fit (R181), and on the factors of a schedule it
always succeeds and its offsets never collide (R184). -/

namespace Sys2Proof.Machine

/-! ### The greedy first fit (R181) -/

/-- Candidate c lands on one of the first m slots of a channel before i. -/
def Hits (m : Nat) (sf offs : List Nat) (i c : Nat) : Prop :=
  ∃ j k o f : Nat, j < i ∧ k < m ∧ offs[j]? = some o ∧ sf[j]? = some f ∧ c = o + k * f

/-- The channels with an offset have those of the greedy first fit. -/
def Greedy (m : Nat) (sf offs : List Nat) : Prop :=
  offs[0]? = some 0 ∧ ∀ i c : Nat, 1 ≤ i → offs[i]? = some c →
    c < m ∧ ¬ Hits m sf offs i c ∧ ∀ c' : Nat, c' < c → Hits m sf offs i c'

/-- The greedy first fit has reached a channel all of whose candidates are hit. -/
def GreedyStuck (m : Nat) (sf : List Nat) : Prop :=
  ∃ offs : List Nat, offs.length < sf.length ∧ Greedy m sf offs ∧ ∀ c, c < m → Hits m sf offs offs.length c

theorem mem_take_iff_exists_getElem? {α : Type} {l : List α} {i : Nat} {x : α} :
    x ∈ l.take i ↔ ∃ j, j < i ∧ l[j]? = some x := by
  simp [List.mem_iff_getElem?, List.getElem?_take]

/-- The channels before i as pairs (factor, offset), in the form the scan holds them. -/
theorem hits_iff {m : Nat} {sf offs : List Nat} {i c : Nat} :
    Hits m sf offs i c ↔ ∃ p ∈ (sf.take i).zip (offs.take i), LandsOn m c p.1 p.2 := by
  have htake : (sf.take i).zip (offs.take i) = (sf.zip offs).take i := List.take_zipWith.symm
  simp only [htake, mem_take_iff_exists_getElem?, Hits, LandsOn]
  constructor
  · rintro ⟨j, k, o, f, hj, hk, ho, hf, rfl⟩
    exact ⟨(f, o), ⟨j, hj, List.getElem?_zip_eq_some.2 ⟨hf, ho⟩⟩, k, hk, rfl⟩
  · rintro ⟨p, ⟨j, hj, hp⟩, k, hk, rfl⟩
    obtain ⟨hf, ho⟩ := List.getElem?_zip_eq_some.1 hp
    exact ⟨j, k, _, _, hj, hk, ho, hf, rfl⟩

/-- Later channels are not looked at. -/
theorem hits_append {m : Nat} {sf offs later : List Nat} {i c : Nat} (hi : i ≤ offs.length) :
    Hits m sf (offs ++ later) i c ↔ Hits m sf offs i c := by
  rw [hits_iff, hits_iff, List.take_append_of_le_length hi]

/-- R182 for all assigned channels at once. -/
theorem exists_collides_iff_hits {m : Nat} {done rest offs : List Nat} {c : Nat} (hlen : done.length = offs.length)
    (hc : c < m) :
    (∃ p ∈ done.zip offs, collides c p = true) ↔ Hits m (done ++ rest) offs offs.length c := by
  rw [hits_iff, List.take_length, List.take_left' hlen]
  exact exists_congr fun p => and_congr_right fun _ => collides_iff hc

theorem greedy_singleton (m : Nat) (sf : List Nat) : Greedy m sf [0] := by
  refine ⟨rfl, fun i c hi hc => ?_⟩
  rw [List.getElem?_eq_none (by simpa using hi)] at hc
  contradiction

/-- The next channel takes the least candidate that is not hit. -/
theorem Greedy.concat {m : Nat} {sf offs : List Nat} {c : Nat} (hg : Greedy m sf offs) (hc : c < m)
    (hfree : ¬ Hits m sf offs offs.length c) (hleast : ∀ c', c' < c → Hits m sf offs offs.length c') :
    Greedy m sf (offs ++ [c]) := by
  obtain ⟨hzero, hlater⟩ := hg
  refine ⟨List.getElem?_append_left (List.getElem?_eq_some_iff.1 hzero).1 ▸ hzero, fun i x hi hx => ?_⟩
  rcases Nat.lt_trichotomy i offs.length with hlt | rfl | hgt
  · rw [List.getElem?_append_left hlt] at hx
    simpa only [hits_append hlt.le] using hlater i x hi hx
  · obtain rfl : c = x := by simpa using hx
    simpa only [hits_append le_rfl] using ⟨hc, hfree, hleast⟩
  · rw [List.getElem?_eq_none (by simpa using hgt)] at hx
    contradiction

/-- The scan takes the least candidate that is not hit. -/
theorem firstFree_zip_eq_some {m : Nat} {done rest offs : List Nat} {c : Nat} (hlen : done.length = offs.length)
    (h : firstFree (done.zip offs) m 0 = some c) :
    c < m ∧ ¬ Hits m (done ++ rest) offs offs.length c ∧
      ∀ c', c' < c → Hits m (done ++ rest) offs offs.length c' := by
  obtain ⟨_, hc, hfree, hleast⟩ := firstFree_eq_some h
  rw [Nat.zero_add] at hc
  refine ⟨hc, fun hhit => ?_, fun c' hc' =>
    (exists_collides_iff_hits hlen (hc'.trans hc)).1 (hleast c' (Nat.zero_le _) hc')⟩
  obtain ⟨p, hp, hcol⟩ := (exists_collides_iff_hits hlen hc).2 hhit
  simp [hfree p hp] at hcol

/-- The scan fails only where every candidate is hit. -/
theorem firstFree_zip_eq_none {m : Nat} {done rest offs : List Nat} (hlen : done.length = offs.length)
    (h : firstFree (done.zip offs) m 0 = none) : ∀ c, c < m → Hits m (done ++ rest) offs offs.length c :=
  fun c hc => (exists_collides_iff_hits hlen hc).1 (firstFree_eq_none h c (Nat.zero_le _) (by rwa [Nat.zero_add]))

/-- From channels with greedy offsets the scan goes on with greedy offsets, or gets stuck. -/
theorem assignRest_greedy {m : Nat} {done offs fs : List Nat} (hlen : done.length = offs.length)
    (hg : Greedy m (done ++ fs) offs) :
    (∀ rest, assignRest m (done.zip offs) fs = some rest → Greedy m (done ++ fs) (offs ++ rest)) ∧
      (assignRest m (done.zip offs) fs = none → GreedyStuck m (done ++ fs)) := by
  induction fs generalizing done offs with
  | nil => simpa [assignRest] using hg
  | cons f fs ih =>
    cases hscan : firstFree (done.zip offs) m 0 with
    | none =>
      simp only [assignRest, hscan, reduceCtorEq, false_implies, implies_true, true_and]
      exact fun _ => ⟨offs, by simp [hlen], hg, firstFree_zip_eq_none hlen hscan⟩
    | some c =>
      obtain ⟨hc, hfree, hleast⟩ := firstFree_zip_eq_some hlen hscan
      have hzip : (done ++ [f]).zip (offs ++ [c]) = done.zip offs ++ [(f, c)] := List.zip_append hlen
      have hnext := hg.concat hc hfree hleast
      rw [List.append_cons] at hnext ⊢
      obtain ⟨hsome, hnone⟩ := ih (by simp [hlen]) hnext
      rw [hzip] at hsome hnone
      simp only [assignRest, hscan, Option.map_eq_some_iff, Option.map_eq_none_iff]
      refine ⟨?_, hnone⟩
      rintro _ ⟨rest, hrest, rfl⟩
      simpa using hsome rest hrest

/-- R181: the answer is greedy, and without one the greedy first fit is stuck. -/
theorem assignOffsets_greedy {sf : List Nat} (hne : sf ≠ []) :
    (∀ offs, assignOffsets sf = some offs → Greedy (maxFactor sf) sf offs) ∧
      (assignOffsets sf = none → GreedyStuck (maxFactor sf) sf) := by
  obtain ⟨f, fs, rfl⟩ := List.exists_cons_of_ne_nil hne
  obtain ⟨hsome, hnone⟩ :=
    assignRest_greedy (done := [f]) (offs := [0]) (fs := fs) rfl (greedy_singleton (maxFactor (f :: fs)) _)
  simp only [assignOffsets, Option.map_eq_some_iff, Option.map_eq_none_iff]
  refine ⟨?_, hnone⟩
  rintro _ ⟨rest, hrest, rfl⟩
  exact hsome rest hrest

/-- Settles O47: M is `maxFactor`, and the scan is followed channel by channel. -/
theorem offsetsAreTheGreedyFirstFit : Obligations.OffsetsAreTheGreedyFirstFit := by
  intro sf hne
  obtain ⟨hsome, hnone⟩ := assignOffsets_greedy hne
  exact ⟨maxFactor sf, maxFactor_mem hne, fun x hx => le_maxFactor hx,
    fun offs h => ⟨length_assignOffsets h, hsome offs h⟩, hnone⟩

/-! ### The factors of a schedule leave room (R184) -/

/-- What R184 needs of the factors: each divides every later one, and the reciprocals add up to at most 1. -/
structure NestedFactors (sf : List Nat) : Prop where
  nonempty : sf ≠ []
  pos : ∀ x ∈ sf, 1 ≤ x
  dvd : sf.Pairwise (· ∣ ·)
  fits : utilisation sf ≤ 1

/-- Powers of two that do not fall are nested (P1 to P4 of R166). -/
theorem nestedFactors_of_computeSchedule {delay : Nat → Nat} {a : SchedArgs} {sch : Schedule} (hok : a.ok = true)
    (hsch : computeSchedule delay a = some sch) : NestedFactors sch.sf := by
  obtain ⟨sch', hsch', hlen, hrange, hpow, hsorted, hfits, _⟩ :=
    (schedulesKeepTheLaws delay a hok).resolve_left (by simp [hsch])
  obtain rfl : sch = sch' := Option.some.inj (hsch.symm.trans hsch')
  obtain ⟨_, hchans, _⟩ := schedArgs_ok_positive hok
  have hcount : 0 < a.chans.length := List.length_pos_iff.2 hchans
  refine ⟨List.length_pos_iff.1 (hlen ▸ hcount), fun x hx => le_trans (by norm_num) (hrange x hx).1, ?_, hfits⟩
  rcases Nat.eq_or_lt_of_le hcount with hone | hmany
  · obtain ⟨x, hx⟩ := List.length_eq_one_iff.1 (hlen.trans hone.symm)
    exact hx ▸ List.pairwise_singleton _ x
  · refine hsorted.imp_of_mem fun {x y} hx hy hle => ?_
    obtain ⟨k, rfl⟩ := hpow hmany x hx
    obtain ⟨l, rfl⟩ := hpow hmany y hy
    exact Nat.pow_dvd_pow 2 ((Nat.pow_le_pow_iff_right (by norm_num)).1 hle)

theorem NestedFactors.dvd_of_lt {sf : List Nat} (h : NestedFactors sf) {j i fj fi : Nat} (hji : j < i)
    (hj : sf[j]? = some fj) (hi : sf[i]? = some fi) : fj ∣ fi := by
  obtain ⟨hjlen, rfl⟩ := List.getElem?_eq_some_iff.1 hj
  obtain ⟨hilen, rfl⟩ := List.getElem?_eq_some_iff.1 hi
  exact List.pairwise_iff_getElem.1 h.dvd j i hjlen hilen hji

/-- M is a multiple of every factor. -/
theorem NestedFactors.dvd_maxFactor {sf : List Nat} (h : NestedFactors sf) {x : Nat} (hx : x ∈ sf) :
    x ∣ maxFactor sf := by
  obtain ⟨i, hi⟩ := List.mem_iff_getElem?.1 hx
  obtain ⟨q, hq⟩ := List.mem_iff_getElem?.1 (maxFactor_mem h.nonempty)
  rcases Nat.lt_trichotomy i q with hlt | rfl | hgt
  · exact h.dvd_of_lt hlt hi hq
  · rw [Option.some.inj (hi.symm.trans hq)]
  · have hle : maxFactor sf ≤ x := Nat.le_of_dvd (h.pos x hx) (h.dvd_of_lt hgt hq hi)
    rw [le_antisymm (le_maxFactor hx) hle]

theorem NestedFactors.dvd_of_mem_take {sf : List Nat} (h : NestedFactors sf) {i f x : Nat} (hf : sf[i]? = some f)
    (hx : x ∈ sf.take i) : x ∣ f := by
  obtain ⟨j, hj, hxj⟩ := mem_take_iff_exists_getElem?.1 hx
  exact h.dvd_of_lt hj hxj hf

/-- The slots below f of the channels before i, each channel's in a row. -/
def slotsBelow (sf offs : List Nat) (i f : Nat) : List Nat :=
  ((sf.take i).zip (offs.take i)).flatMap fun p => (List.range (f / p.1)).map fun k => p.2 + k * p.1

/-- A hit candidate below f is one of these slots, where the earlier factors divide f. -/
theorem mem_slotsBelow {m : Nat} {sf offs : List Nat} {i c f : Nat} (hdvd : ∀ x ∈ sf.take i, x ∣ f) (hc : c < f)
    (hhit : Hits m sf offs i c) : c ∈ slotsBelow sf offs i f := by
  obtain ⟨⟨x, o⟩, hp, k, _, hslot⟩ := hits_iff.1 hhit
  have hbound : k * x < f / x * x := by
    rw [Nat.div_mul_cancel (hdvd x (List.of_mem_zip hp).1)]
    exact (Nat.le_add_left _ o).trans_lt (hslot ▸ hc)
  exact List.mem_flatMap.2
    ⟨(x, o), hp, List.mem_map.2 ⟨k, List.mem_range.2 (Nat.lt_of_mul_lt_mul_right hbound), hslot.symm⟩⟩

theorem length_slotsBelow {sf offs : List Nat} {i f : Nat} (hi : i ≤ offs.length) :
    (slotsBelow sf offs i f).length = ((sf.take i).map (f / ·)).sum := by
  have hfst : ((sf.take i).zip (offs.take i)).map Prod.fst = sf.take i := List.map_fst_zip (by simp [hi])
  conv_rhs => rw [← hfst, List.map_map]
  simp [slotsBelow, List.length_flatMap, Function.comp_def]

/-- Channels before i leave room in the f ticks of channel i: their shares 1 / x and 1 / f add up to at most 1. -/
theorem NestedFactors.sum_div_lt {sf : List Nat} (h : NestedFactors sf) {i f : Nat} (hf : sf[i]? = some f) :
    ((sf.take i).map (f / ·)).sum < f := by
  obtain ⟨hi, hfi⟩ := List.getElem?_eq_some_iff.1 hf
  have hfpos : (0 : ℚ) < f := Nat.cast_pos.2 (h.pos f (List.mem_of_getElem? hf))
  have hshare : utilisation (sf.take i) + 1 / (f : ℚ) ≤ 1 := calc
    utilisation (sf.take i) + 1 / (f : ℚ) = utilisation (sf.take (i + 1)) := by
      rw [List.take_succ_eq_append_getElem hi, hfi]
      simp [utilisation]
    _ ≤ utilisation sf :=
      ((List.take_sublist _ _).map _).sum_le_sum (List.forall_mem_map.2 fun x _ => by positivity)
    _ ≤ 1 := h.fits
  have hroom : utilisation (sf.take i) < 1 := by
    have := one_div_pos.2 hfpos
    linarith
  rw [← Nat.cast_lt (α := ℚ), sum_div_of_dvd _ _ (fun _ => h.dvd_of_mem_take hf) fun x hx =>
    h.pos x (List.mem_of_mem_take hx)]
  exact mul_lt_of_lt_one_right hfpos hroom

/-- R184: some candidate below its own factor is free for channel i, by counting. -/
theorem NestedFactors.exists_free {sf offs : List Nat} (h : NestedFactors sf) (m : Nat) {i f : Nat}
    (hf : sf[i]? = some f) (hi : i ≤ offs.length) : ∃ c, c < f ∧ ¬ Hits m sf offs i c := by
  by_contra! hall
  have hsub : List.range f ⊆ slotsBelow sf offs i f := fun c hc =>
    mem_slotsBelow (fun _ => h.dvd_of_mem_take hf) (List.mem_range.1 hc) (hall c (List.mem_range.1 hc))
  have hle : (List.range f).length ≤ (slotsBelow sf offs i f).length :=
    (List.nodup_range.subperm hsub).length_le
  rw [List.length_range, length_slotsBelow hi] at hle
  exact absurd (h.sum_div_lt hf) (not_lt.2 hle)

/-- The scan succeeds on nested factors. -/
theorem NestedFactors.exists_assignOffsets {sf : List Nat} (h : NestedFactors sf) :
    ∃ offs, assignOffsets sf = some offs := by
  rw [← Option.isSome_iff_exists, ← Option.ne_none_iff_isSome]
  intro hnone
  obtain ⟨offs, hlen, _, hall⟩ := (assignOffsets_greedy h.nonempty).2 hnone
  have hf := List.getElem?_eq_getElem hlen
  obtain ⟨c, hc, hfree⟩ := h.exists_free (maxFactor sf) hf le_rfl
  exact hfree (hall c (hc.trans_le (le_maxFactor (List.getElem_mem hlen))))

/-- A greedy offset is below its factor. -/
theorem NestedFactors.offset_lt {sf offs : List Nat} (h : NestedFactors sf) {m : Nat} (hg : Greedy m sf offs)
    {i o f : Nat} (ho : offs[i]? = some o) (hf : sf[i]? = some f) : o < f := by
  obtain ⟨hzero, hlater⟩ := hg
  rcases Nat.eq_zero_or_pos i with rfl | hi
  · obtain rfl := Option.some.inj (hzero.symm.trans ho)
    exact h.pos f (List.mem_of_getElem? hf)
  · obtain ⟨hlen, _⟩ := List.getElem?_eq_some_iff.1 ho
    obtain ⟨_, _, hleast⟩ := hlater i o hi ho
    obtain ⟨c, hc, hfree⟩ := h.exists_free m hf hlen.le
    by_contra hge
    exact hfree (hleast c (hc.trans_le (not_lt.1 hge)))

/-- A tick shared modulo M would put the later channel's offset on a slot of the earlier one. -/
theorem NestedFactors.ticks_apart {sf offs : List Nat} (h : NestedFactors sf) (hg : Greedy (maxFactor sf) sf offs)
    {j i oj oi fj fi : Nat} (hji : j < i) (hoj : offs[j]? = some oj) (hoi : offs[i]? = some oi)
    (hfj : sf[j]? = some fj) (hfi : sf[i]? = some fi) (k l : Nat) :
    (oi + k * fi) % maxFactor sf ≠ (oj + l * fj) % maxFactor sf := by
  intro hshared
  have hM : fj ∣ maxFactor sf := h.dvd_maxFactor (List.mem_of_getElem? hfj)
  have hself : fi % fj = 0 := Nat.mod_eq_zero_of_dvd (h.dvd_of_lt hji hfj hfi)
  have hres : oi % fj = oj := by
    have hmod := congrArg (· % fj) hshared
    simp only [Nat.mod_mod_of_dvd _ hM] at hmod
    rwa [Nat.add_mod, Nat.mul_mod, hself, Nat.mul_zero, Nat.zero_mod, Nat.add_zero, Nat.mod_mod,
      Nat.add_mul_mod_self_right, Nat.mod_eq_of_lt (h.offset_lt hg hoj hfj)] at hmod
  obtain ⟨_, hlater⟩ := hg
  obtain ⟨hlt, hfree, _⟩ := hlater i oi (by omega) hoi
  refine hfree ⟨j, oi / fj, oj, fj, hji, (Nat.div_le_self _ _).trans_lt hlt, hoj, hfj, ?_⟩
  rw [← hres, Nat.mul_comm, Nat.mod_add_div]

/-- Settles O48: the factors are nested, so the scan succeeds, and of two channels one is the later. -/
theorem scheduleOffsetsNeverCollide : Obligations.ScheduleOffsetsNeverCollide := by
  intro delay a sch hok hsch
  have hnested := nestedFactors_of_computeSchedule hok hsch
  obtain ⟨offs, hoffs⟩ := hnested.exists_assignOffsets
  have hg := (assignOffsets_greedy hnested.nonempty).1 offs hoffs
  refine ⟨offs, hoffs, length_assignOffsets hoffs, fun i o f ho hf => hnested.offset_lt hg ho hf,
    fun i j oi oj fi fj hij hoi hoj hfi hfj k l => ?_⟩
  have hmod : (oi + k * fi) % maxFactor sch.sf ≠ (oj + l * fj) % maxFactor sch.sf := by
    rcases Nat.lt_or_gt_of_ne hij with hlt | hgt
    · exact (hnested.ticks_apart hg hlt hoi hoj hfi hfj l k).symm
    · exact hnested.ticks_apart hg hgt hoj hoi hfj hfi k l
  exact ⟨fun heq => hmod (by rw [heq]), hmod⟩

end Sys2Proof.Machine
end

section
/-! PROOFS. The calibration family: CAL_LOAD loads the answers of the trim source (R190, R192), and `apply` is its
formula (R200) and keeps its laws (R201). -/

namespace Sys2Proof.Machine

/-! ### CAL_LOAD (R192) -/

/-- The answers of a device whose four values are the free constants (log entry 11); its readiness is drawn anew. -/
def deviceAnswers : TrimAnswers :=
  { ready := true, seOffset := Config.trimSeOffset, seGain := Config.trimSeGain,
    diffOffset := Config.trimDiffOffset, diffGain := Config.trimDiffGain }

/-- Without a `trim` record CAL_LOAD asks the device (R190). -/
theorem trimAnswers_of_no_trim {s : State} (h : s.trim = none) :
    trimAnswers s = { deviceAnswers with ready := (trimAnswers s).ready } := by
  rw [trimAnswers, h]
  rfl

/-- Settles O14: the outcomes of `calLoad_cases`; a refused CAL_LOAD leaves the model's fields `trim` and `draws`, one
that asks moves them. -/
theorem calLoadReadsTheTrimSource : Obligations.CalLoadReadsTheTrimSource := by
  refine ⟨deviceAnswers, fun s => ?_⟩
  rcases calLoad_cases s with ⟨hno, heq⟩ | ⟨hst, hv, hr, heq⟩ | ⟨hst, hv, hr, heq⟩
  · refine ⟨trimAnswers s, s.trim, s.draws, fun _ => trimAnswers_of_trim, trimAnswers_of_no_trim,
      congrArg Host.Outcome.next (heq.trans ?_)⟩
    rcases hno with hst | hv
    · rw [if_pos hst]
    · rw [if_pos hv, ite_self]
  all_goals
    refine ⟨trimAnswers s, none, s.draws + 1, fun _ => trimAnswers_of_trim, trimAnswers_of_no_trim,
      congrArg Host.Outcome.next (heq.trans ?_)⟩
    simp [hst, hv, hr]

/-! ### The five steps of `apply` (R195 to R199) -/

/-- On 12 bits the XOR with 0x800 flips the bit of weight 2048 and keeps the others. -/
theorem xor_signBit {n : Nat} (hn : n < 4096) : n ^^^ 0x800 = if 2048 ≤ n then n - 2048 else n + 2048 := by
  have hmod : (n ^^^ 0x800) % 2 ^ 11 = n % 2 ^ 11 := by rw [Nat.xor_mod_two_pow, Nat.mod_self, Nat.xor_zero]
  have hdiv : (n ^^^ 0x800) / 2 ^ 11 = n / 2 ^ 11 ^^^ 1 := by rw [Nat.xor_div_two_pow]
  split_ifs with h
  · rw [show n / 2 ^ 11 = 1 by omega, Nat.xor_self] at hdiv
    omega
  · rw [show n / 2 ^ 11 = 0 by omega, Nat.zero_xor] at hdiv
    omega

theorem xor_signBit_lt {n : Nat} (hn : n < 4096) : n ^^^ 0x800 < 4096 :=
  Nat.xor_lt_two_pow (n := 12) hn (by decide)

theorem flipSign_eq (raw : Word16) : flipSign raw = (raw.toNat % 4096 + 2048) % 4096 := by
  rw [flipSign, xor_signBit (Nat.mod_lt _ (by decide))]
  split_ifs <;> omega

theorem flipSign_lt (raw : Word16) : flipSign raw < 4096 := by
  rw [flipSign_eq]
  exact Nat.mod_lt _ (by decide)

theorem flipSign_xor_signBit (raw : Word16) : flipSign raw ^^^ 0x800 = raw.toNat % 4096 :=
  Nat.xor_xor_cancel_right _ _

/-- The gain product is floored once (R197). -/
theorem scaled_isFloor (a : Nat) (off : Word16) (g : Word) :
    1000 * scaled a off g ≤ ((a : ℤ) - (off.toNat : ℤ)) * gainThousandths g ∧
      ((a : ℤ) - (off.toNat : ℤ)) * gainThousandths g < 1000 * (scaled a off g + 1) := by
  unfold scaled
  omega

theorem scaled_mono {a b : Nat} (hab : a ≤ b) (off : Word16) (g : Word) : scaled a off g ≤ scaled b off g := by
  have hoff : (a : ℤ) - off.toNat ≤ b - off.toNat := by omega
  exact Int.ediv_le_ediv (by decide) (mul_le_mul_of_nonneg_right hoff (Int.natCast_nonneg _))

/-- Offset 0 and gain 1.000 change nothing. -/
theorem scaled_unit (a : Nat) {g : Word} (hg : gainThousandths g = 1000) : scaled a 0 g = a := by
  simp [scaled, hg]

theorem clamp12_eq (q : ℤ) : (clamp12 q : ℤ) = max 0 (min q 4095) := by
  unfold clamp12
  omega

theorem clamp12_lt (q : ℤ) : clamp12 q < 4096 := by
  unfold clamp12
  omega

theorem clamp12_mono {p q : ℤ} (h : p ≤ q) : clamp12 p ≤ clamp12 q :=
  min_le_min_right _ (Int.toNat_le_toNat h)

theorem clamp12_natCast {a : Nat} (ha : a < 4096) : clamp12 (a : ℤ) = a :=
  min_eq_left (Nat.le_of_lt_succ ha)

theorem recentre_toNat {c : Nat} (hc : c < 4096) : (recentre c).toNat = c ^^^ 0x800 := by
  rw [recentre, BitVec.toNat_ofNat, Nat.mod_eq_of_lt ((xor_signBit_lt hc).trans (by decide))]

theorem calibrate_toNat (raw off : Word16) (g : Word) :
    (calibrate raw off g).toNat = clamp12 (scaled (flipSign raw) off g) ^^^ 0x800 :=
  recentre_toNat (clamp12_lt _)

/-! ### `apply` (R200, R201) -/

/-- The input type chooses the pair (off, g) (R200). -/
theorem applyCal_eq_calibrate (s : State) (raw : Word16) (d : Bool) :
    applyCal s raw d = calibrate raw (if d then s.calDiffOffset else s.calSeOffset)
      (if d then s.calDiffGain else s.calSeGain) := by
  cases d <;> rfl

/-- Settles O49: the five steps in order, on the pair the input type chooses. -/
theorem applyFollowsTheFormula : Obligations.ApplyFollowsTheFormula := by
  intro s raw d
  rw [applyCal_eq_calibrate, calibrate_toNat, xor_signBit (clamp12_lt _)]
  exact ⟨_, _, _, _, flipSign_eq raw, rfl, scaled_isFloor _ _ _, clamp12_eq _, rfl⟩

/-- (L1): the range. -/
theorem calibrate_le (raw off : Word16) (g : Word) : (calibrate raw off g).toNat ≤ 0x0FFF := by
  rw [calibrate_toNat]
  exact Nat.le_of_lt_succ (xor_signBit_lt (clamp12_lt _))

/-- (L2): with offset 0 and gain 1.000 the two flips cancel. -/
theorem calibrate_unit (raw : Word16) {g : Word} (hg : gainThousandths g = 1000) :
    (calibrate raw 0 g).toNat = raw.toNat % 4096 := by
  rw [calibrate_toNat, scaled_unit _ hg, clamp12_natCast (flipSign_lt raw), flipSign_xor_signBit]

/-- (L5): the channel id in the upper four bits is discarded. -/
theorem calibrate_congr {x y : Word16} (h : x.toNat % 4096 = y.toNat % 4096) (off : Word16) (g : Word) :
    calibrate x off g = calibrate y off g := by
  have hflip : flipSign x = flipSign y := by rw [flipSign, flipSign, h]
  rw [calibrate, calibrate, hflip]

/-- (L6): the flip is an involution on 12 bits. -/
theorem flipSign_flipSign (raw : Word16) : flipSign (BitVec.ofNat 16 (flipSign raw)) = raw.toNat % 4096 := by
  have hlt := flipSign_lt raw
  rw [flipSign, BitVec.toNat_ofNat, Nat.mod_eq_of_lt (hlt.trans (by decide)), Nat.mod_eq_of_lt hlt,
    flipSign_xor_signBit]

/-- Settles O50: the laws in order; for (L4), gain 0.500 sends 0x000 and 0x001 to one result. -/
theorem applyKeepsItsLaws : Obligations.ApplyKeepsItsLaws :=
  ⟨calibrate_le, fun raw _ hg => calibrate_unit raw hg,
    fun _ _ off g hab => clamp12_mono (scaled_mono hab off g),
    ⟨0, 0x01F4, 0x000, 0x001, by decide, by decide⟩,
    fun _ _ off g h => calibrate_congr h off g, flipSign_flipSign⟩

end Sys2Proof.Machine
end

section
/-! PROOFS. The command family: which failure CONFIGURE reports (R212, R275), what an accepted one latches and appends
(R213, R214), and START, STOP, DEINIT, NOP and the reserved opcodes (R211, R216 to R219). -/

namespace Sys2Proof.Machine

/-! ### The commands that read no request -/

/-- Settles O12: the arm of `exec` is the end of a command that succeeds. -/
theorem nopWritesResultOk : Obligations.NopWritesResultOk := fun _ => rfl

/-- Settles O13: from 6 on a written word decodes to the reserved command. -/
theorem reservedOpcodesAnswerInvalidCommand : Obligations.ReservedOpcodesAnswerInvalidCommand := by
  intro v s hv
  refine ⟨?_, rfl, ?_⟩
  · rw [exec_wr_cmd, decodeCmd_of_six_le hv]
    rfl
  · have hword : (Result.mk .invalidCommand 0xFF).word = 0x0000FF0B := by decide
    rw [readOffset, regAt_eq_result.2 rfl]
    exact hword

/-- Settles O22: the three answers of `startPipeline_cases`. -/
theorem startUnmasksAndRuns : Obligations.StartUnmasksAndRuns := by
  intro s
  have hexec : exec .start s = .next (startPipeline s) := rfl
  rw [hexec]
  rcases startPipeline_cases s with ⟨hst, heq⟩ | ⟨hst, hv, heq⟩ | ⟨hst, hv, heq⟩ <;> rw [heq]
  · exact ⟨fun _ => rfl, fun h => absurd h hst, fun h => absurd h hst⟩
  · exact ⟨fun h => absurd hst h, fun _ _ => rfl, fun _ h => absurd h (by simp [hv])⟩
  · refine ⟨fun h => absurd hst h, fun _ h => absurd h (by simp [hv]), fun _ _ => ⟨_, fun c => ?_, rfl⟩⟩
    simp [bitOf_foldl_clearBit, Enabled]

/-- Settles O23: the two answers of `stopPipeline_cases`. -/
theorem stopMasksAndClears : Obligations.StopMasksAndClears := by
  intro s
  have hexec : exec .stop s = .next (stopPipeline s) := rfl
  rw [hexec]
  rcases stopPipeline_cases s with ⟨hst, heq⟩ | ⟨hst, heq⟩ <;> rw [heq]
  · exact ⟨fun _ => rfl, fun h => absurd hst h⟩
  · exact ⟨fun h => absurd h hst, fun _ => ⟨_, getElem_mapBanks _ s.ch, rfl⟩⟩

/-- Settles O24: DEINIT is one update of the reset registers. -/
theorem deinitReturnsToReset : Obligations.DeinitReturnsToReset := by
  intro s
  have hexec : exec .deinit s = .next (deinitPipeline s) := rfl
  rw [hexec, deinitPipeline_eq]
  rfl

/-! ### The failure CONFIGURE reports -/

theorem firstFailure_cons_none (l : List (Option Result)) : firstFailure (none :: l) = firstFailure l := rfl

theorem failingOn_cases (i : Chan) (b : Bool) (e : ErrCode) :
    failingOn i b e = none ∨ failingOn i b e = some { code := e, info := chanInfo i } := by
  cases b
  · exact .inl rfl
  · exact .inr rfl

/-- Checks on one channel that raise one error report that error. -/
theorem firstFailure_failingOn {i : Chan} {e : ErrCode} {bs : List Bool}
    (h : firstFailure (bs.map (failingOn i · e)) ≠ none) :
    firstFailure (bs.map (failingOn i · e)) = some { code := e, info := chanInfo i } := by
  induction bs with
  | nil => exact absurd rfl h
  | cons b bs ih =>
    rw [List.map_cons] at h ⊢
    rcases failingOn_cases i b e with hb | hb <;> rw [hb] at h ⊢
    · exact ih h
    · rfl

theorem FirstBad.requested {s : State} {good : Chan → Prop} {i : Chan} (h : FirstBad s good i) : Requested s i := h.1

theorem FirstBad.not_good {s : State} {good : Chan → Prop} {i : Chan} (h : FirstBad s good i) : ¬ good i := h.2.1

/-- On the first channel a check fails on it reports its own error (R212). -/
theorem checkRate_eq_some {s : State} {i : Chan} (h : FirstBad s (RateGood s) i) :
    checkRate s i = some { code := .invalidSamplingRate, info := chanInfo i } :=
  firstFailure_failingOn (bs := [_, _, _]) (mt checkRate_eq_none.1 h.not_good)

theorem checkSamples_eq_some {s : State} {i : Chan} (h : FirstBad s (SamplesGood s) i) :
    checkSamples s i = some { code := .invalidSampleCount, info := chanInfo i } :=
  firstFailure_failingOn (bs := [_, _]) (mt checkSamples_eq_none.1 h.not_good)

theorem checkCollision_eq_some {s : State} {i : Chan} (h : FirstBad s (HalvesDistinct s) i) :
    checkCollision s i = some { code := .pingPongAddressCollision, info := chanInfo i } :=
  (failingOn_cases _ _ _).resolve_left (mt (checkCollision_eq_none h.requested).1 h.not_good)

theorem checkBuffers_eq_some {p : Params} {s : State} {i : Chan} (h : FirstBad s (AddressesGood p s) i) :
    checkBuffers p s i = some { code := .addressOutOfRange, info := chanInfo i } :=
  firstFailure_failingOn (bs := [_, _]) (mt (checkBuffers_eq_none h.requested).1 h.not_good)

theorem pairwise_allChans : allChans.Pairwise (· < ·) := by decide

theorem pairwise_chansBelow (n : Nat) : (chansBelow n).Pairwise (· < ·) := pairwise_allChans.filter _

/-- A check over the channels reports the first requested channel it fails on (R275). -/
theorem checkChans_eq_some {s : State} {f : Chan → Option Result} {good : Chan → Prop} {i : Chan} {r : Result}
    (hi : FirstBad s good i) (hgood : ∀ j, Requested s j → good j → f j = none) (hr : f i = some r) :
    checkChans s f = some r := by
  obtain ⟨hreq, _, hbelow⟩ := hi
  obtain ⟨before, after, hsplit⟩ := List.append_of_mem (mem_chansBelow.2 hreq)
  have hnone : before.findSome? f = none := List.findSome?_eq_none_iff.2 fun j hj => by
    have hmem : j ∈ chansBelow s.mode.n.toNat := hsplit ▸ List.mem_append_left _ hj
    have hlt : j < i := (List.pairwise_append.1 (hsplit ▸ pairwise_chansBelow _)).2.2 j hj i List.mem_cons_self
    exact hgood j (mem_chansBelow.1 hmem) (hbelow j hlt)
  rw [checkChans, hsplit, List.findSome?_append, hnone, Option.none_or, List.findSome?_cons, hr]

/-- A failed check is reported in RESULT, and nothing else moves (R16). -/
theorem configureWith_of_validate {p : Params} {s : State} {r : Result} (h : validate p s = some r) :
    configureWith p s = { s with result := r } := by
  rw [configureWith, h]
  rfl

/-- Past checks 1 to 4 the checks on the channels decide (R212). -/
theorem validate_eq_checkChans {p : Params} {s : State} (hst : s.st = .idle) (hcount : CountGood s)
    (hclk : s.baseClk ≠ 0) :
    validate p s = firstFailure [checkChans s (checkRate s), checkChans s (checkSamples s),
      checkChans s (checkCollision s), checkChans s (checkBuffers p s)] := by
  obtain ⟨hrange, hstatic⟩ := counts_eq_none.2 hcount
  have hclk' : s.baseClk.toNat ≠ 0 := fun h => hclk (BitVec.toNat_inj.1 h)
  rw [validate, failing_eq_none.2 (by simp [hst]), failing_eq_none.2 hrange, failing_eq_none.2 hstatic,
    failing_eq_none.2 (by simp [hclk'])]
  rfl

/-- Checks 2 and 3 raise one error (R212). -/
theorem validate_of_not_countGood {p : Params} {s : State} (hst : s.st = .idle) (hcount : ¬ CountGood s) :
    validate p s = some { code := .invalidChannelCount, info := 0xFF } := by
  rw [← counts_eq_none, not_and, Bool.not_eq_false] at hcount
  rw [validate, failing_eq_none.2 (by simp [hst]), firstFailure_cons_none]
  cases hrange : decide (s.mode.n.toNat < 1) || decide (16 < s.mode.n.toNat) with
  | true => rfl
  | false => rw [hcount hrange]; rfl

theorem validate_of_baseClk_zero {p : Params} {s : State} (hst : s.st = .idle) (hcount : CountGood s)
    (hclk : s.baseClk = 0) : validate p s = some { code := .invalidSamplingRate, info := 0xFF } := by
  obtain ⟨hrange, hstatic⟩ := counts_eq_none.2 hcount
  rw [validate, failing_eq_none.2 (by simp [hst]), failing_eq_none.2 hrange, failing_eq_none.2 hstatic, hclk]
  rfl

/-- Settles O16: each check reports the first channel it fails on, once the checks before it pass. -/
theorem configureReportsTheFirstFailure : Obligations.ConfigureReportsTheFirstFailure := by
  intro p s
  refine ⟨fun hst => configureWith_of_validate ?_,
    fun hst hcount => configureWith_of_validate (validate_of_not_countGood hst hcount),
    fun hst hcount hclk => configureWith_of_validate (validate_of_baseClk_zero hst hcount hclk),
    fun hst hcount hclk => ?_⟩
  · rw [validate, failing, if_pos (by simpa using hst)]
    rfl
  have hval := validate_eq_checkChans (p := p) hst hcount hclk
  refine ⟨fun i hi => configureWith_of_validate ?_, fun hrates => ?_⟩
  · rw [hval, checkChans_eq_some hi (fun _ _ => checkRate_eq_none.2) (checkRate_eq_some hi)]
    rfl
  rw [checkChans_eq_none.2 fun i hi => checkRate_eq_none.2 (hrates i hi), firstFailure_cons_none] at hval
  refine ⟨fun i hi => configureWith_of_validate ?_, fun hsamples => ?_⟩
  · rw [hval, checkChans_eq_some hi (fun _ _ => checkSamples_eq_none.2) (checkSamples_eq_some hi)]
    rfl
  rw [checkChans_eq_none.2 fun i hi => checkSamples_eq_none.2 (hsamples i hi), firstFailure_cons_none] at hval
  refine ⟨fun i hi => configureWith_of_validate ?_, fun hdistinct => ?_⟩
  · rw [hval, checkChans_eq_some hi (fun _ hj => (checkCollision_eq_none hj).2) (checkCollision_eq_some hi)]
    rfl
  rw [checkChans_eq_none.2 fun i hi => (checkCollision_eq_none hi).2 (hdistinct i hi), firstFailure_cons_none] at hval
  refine ⟨fun i hi => configureWith_of_validate ?_, fun haddresses hinfeasible => ?_⟩
  · rw [hval, checkChans_eq_some hi (fun _ hj => (checkBuffers_eq_none hj).2) (checkBuffers_eq_some hi)]
    rfl
  · rw [checkChans_eq_none.2 fun i hi => (checkBuffers_eq_none hi).2 (haddresses i hi), firstFailure_cons_none] at hval
    rw [configureWith, hval, hinfeasible]
    rfl

/-! ### What an accepted CONFIGURE latches -/

/-- A valid request with a schedule and offsets is configured (R212). -/
theorem RequestValid.configureWith_eq {p : Params} {s : State} {sch : Schedule} {offs : List Nat}
    (hv : RequestValid p s) (hsch : computeSchedule p.delay (schedArgs s) = some sch)
    (hoffs : assignOffsets sch.sf = some offs) : configureWith p s = configureDone s sch offs := by
  simp only [configureWith, validate_eq_none.2 hv, hsch, hoffs]

/-- The factors handed to `assign_offsets` are nested (R184). -/
theorem RequestValid.nestedFactors {p : Params} {s : State} {sch : Schedule} (hv : RequestValid p s)
    (hsch : computeSchedule p.delay (schedArgs s) = some sch) : NestedFactors sch.sf := by
  obtain ⟨hok, _⟩ := validRequestsMeetThePreconditions p s hv
  exact nestedFactors_of_computeSchedule hok hsch

/-- The request's B(i), with the flags as R213 writes them. -/
theorem isRequestBuffer_iff {s : State} {i : Chan} : isRequestBuffer s i = true ↔ s.mode.shared = false ∨ i = 0 := by
  simp [isRequestBuffer]

/-- The offset of a requested channel, which 16 bits hold: it is below its factor (R156, R184). -/
theorem off_configureDone {s : State} {sch : Schedule} {offs : List Nat} (hsch : LegalSchedule s.mode.n.toNat sch)
    (hnested : NestedFactors sch.sf) (hoffs : assignOffsets sch.sf = some offs) {c : Chan} (h : Requested s c) :
    offs[c.val]? = some ((configureDone s sch offs).chan c).off.toNat := by
  have hc : c.val < sch.sf.length := by rw [hsch.length]; exact h
  have hc' : c.val < offs.length := by rwa [length_assignOffsets hoffs]
  have hg := (assignOffsets_greedy hnested.nonempty).1 offs hoffs
  have hlt := hnested.offset_lt hg (List.getElem?_eq_getElem hc') (List.getElem?_eq_getElem hc)
  obtain ⟨_, hmax⟩ := hsch.range _ (List.getElem_mem hc)
  rw [List.getElem?_eq_getElem hc', chan_configureDone_of_requested h]
  simp only [latchEnabled, BitVec.toNat_ofNat, List.getD_eq_getElem _ _ hc', Option.some_inj]
  exact (Nat.mod_eq_of_lt (by omega)).symm

/-- The achieved rate of a requested channel, which 32 bits hold: it is at most the base clock (R164). -/
theorem ach_configureDone {s : State} {sch : Schedule} (hsch : LegalSchedule s.mode.n.toNat sch) (offs : List Nat)
    {c : Chan} (h : Requested s c) :
    ((configureDone s sch offs).chan c).ach.toNat =
      s.baseClk.toNat / ((configureDone s sch offs).chan c).sf.toNat := by
  obtain ⟨hc, hsf⟩ := sf_configureDone hsch offs h
  rw [hsf, chan_configureDone_of_requested h]
  simp only [latchEnabled, achievedRate, BitVec.toNat_ofNat, List.getD_eq_getElem _ _ hc]
  exact Nat.mod_eq_of_lt ((Nat.div_le_self _ _).trans_lt s.baseClk.isLt)

/-- CH_EN after an accepted CONFIGURE (R213). -/
theorem bitOf_chEn_configureDone (s : State) (sch : Schedule) (offs : List Nat) (c : Chan) :
    bitOf (configureDone s sch offs).chEn c = true ↔ Requested s c := by
  rw [configureDone_eq]
  simp [bitOf_foldl_setBit, bitOf_lowBits, Requested]

/-- The clock plan fits its registers (R31). -/
theorem clock_configureDone {s : State} {sch : Schedule} (hsch : LegalSchedule s.mode.n.toNat sch) (offs : List Nat) :
    (configureDone s sch offs).onCycles.toNat = sch.on ∧
      (configureDone s sch offs).totalCycles.toNat = sch.total := by
  have htotal := hsch.total
  rw [configureDone_eq]
  exact ⟨Nat.mod_eq_of_lt (hsch.clock.trans htotal), Nat.mod_eq_of_lt htotal⟩

/-- Settles O18: the fields of `configureDone`, each computed one fitting by the laws of the schedule. -/
theorem configureLatchesTheRequest : Obligations.ConfigureLatchesTheRequest := by
  refine ⟨fun _ => rfl, fun p s sch offs hp hv hsch hoffs => ?_⟩
  have hlegal := hv.legalSchedule hp hsch
  obtain ⟨hon, htotal⟩ := clock_configureDone hlegal offs
  rw [hv.configureWith_eq hsch hoffs]
  refine ⟨by rw [configureDone_eq], by rw [configureDone_eq], by rw [configureDone_eq], by rw [configureDone_eq],
    hon, htotal, by rw [configureDone_eq], by rw [configureDone_eq], bitOf_chEn_configureDone s sch offs,
    fun i hi => ?_, fun i hi => ?_, by rw [configureDone_eq]⟩
  · obtain ⟨hlt, hsf⟩ := sf_configureDone hlegal offs hi
    refine ⟨by rw [hsf, List.getElem?_eq_getElem hlt],
      off_configureDone hlegal (hv.nestedFactors hsch) hoffs hi, ach_configureDone hlegal offs hi, ?_⟩
    rw [chan_configureDone_of_requested hi]
    simp only [latchEnabled, isRequestBuffer_iff]
  · exact chan_configureDone_of_not_requested hi sch offs

/-- The half a requested buffer channel latches is the staged one (R213). -/
theorem armRecords_latchConfig {s : State} {i : Chan} (h : Requested s i) (sch : Schedule) (offs : List Nat) :
    armRecords (latchConfig s sch offs) i =
      if s.mode.shared = false ∨ i = 0 then
        [.programBuffer i .ping (s.chan i).pingAddr (s.chan i).pingLen,
         .programBuffer i .pong (s.chan i).pongAddr (s.chan i).pongLen]
      else [] := by
  have hbank : (latchConfig s sch offs).chan i =
      latchEnabled s.baseClk.toNat (sch.sf.getD i.val 0) (offs.getD i.val 0) (isRequestBuffer s i) (s.chan i) :=
    (getElem_mapBanks _ _ i).trans (if_pos h)
  have hbuf : isRequestBuffer (latchConfig s sch offs) i = isRequestBuffer s i := rfl
  simp only [armRecords, hbuf, halfAddr, halfLen, hbank, ← isRequestBuffer_iff]
  split_ifs with hb <;> simp [latchEnabled, hb]

/-- Two records for each channel that owns a descriptor: all of them, or channel 0 of a ring (R214). -/
theorem length_flatMap_pairs {n : Nat} (hn : 1 ≤ n) (hn' : n ≤ 16) (shared : Bool) (f : Chan → List Hwop)
    (hf : ∀ i, (f i).length = if shared = false ∨ i = 0 then 2 else 0) :
    ((chansBelow n).flatMap f).length = if shared then 2 else 2 * n := by
  simp only [List.length_flatMap, hf]
  revert n
  cases shared <;> decide

/-- Settles O19: the HWOPS of `configureDone`, on the latched halves, which are the staged ones. -/
theorem configureEmitsThePrimitives : Obligations.ConfigureEmitsThePrimitives := by
  intro p s sch offs hp hv hsch hoffs
  obtain ⟨hn1, hn16, _⟩ := hv.count
  rw [hv.configureWith_eq hsch hoffs]
  have harm := List.flatMap_congr (l := chansBelow s.mode.n.toNat)
    fun i hi => armRecords_latchConfig (mem_chansBelow.1 hi) sch offs
  refine ⟨_, by rw [configureDone_eq], ?_, ?_⟩
  · rw [harm, configureDone_eq]
  · rw [List.length_cons, List.length_append, List.length_map, length_chansBelow hn16, harm,
      length_flatMap_pairs hn1 hn16 s.mode.shared]
    · split_ifs <;> omega
    · intro i
      split_ifs <;> rfl

/-- Settles O20: the factors of the schedule are nested, so the offsets exist. -/
theorem schedulableRequestsAreConfigured : Obligations.SchedulableRequestsAreConfigured := by
  refine ⟨fun _ => rfl, fun p s sch hv hsch => ?_⟩
  obtain ⟨offs, hoffs⟩ := (hv.nestedFactors hsch).exists_assignOffsets
  have heq := hv.configureWith_eq hsch hoffs
  refine ⟨offs, hoffs, heq, ?_, by rw [configureDone_eq], by rw [configureDone_eq]⟩
  rintro rfl
  exact congrArg Host.Outcome.next heq

/-! ### What a failed CONFIGURE reports is an error -/

/-- A check reports errors only. -/
def ReportsErrors (x : Option Result) : Prop := ∀ r, x = some r → r.code ≠ .ok

theorem reportsErrors_failing (b : Bool) {e : ErrCode} (he : e ≠ .ok) : ReportsErrors (failing b e) := by
  intro r hr
  cases b
  · simp [failing] at hr
  · exact Option.some.inj hr ▸ he

theorem reportsErrors_failingOn (i : Chan) (b : Bool) {e : ErrCode} (he : e ≠ .ok) :
    ReportsErrors (failingOn i b e) := by
  intro r hr
  rcases failingOn_cases i b e with hb | hb <;> rw [hb] at hr
  · simp at hr
  · exact Option.some.inj hr ▸ he

theorem reportsErrors_firstFailure {l : List (Option Result)} (hl : ∀ x ∈ l, ReportsErrors x) :
    ReportsErrors (firstFailure l) := by
  intro r hr
  obtain ⟨x, hx, hxr⟩ := List.exists_of_findSome?_eq_some hr
  exact hl x hx r hxr

theorem reportsErrors_checkChans {s : State} {f : Chan → Option Result} (hf : ∀ i, ReportsErrors (f i)) :
    ReportsErrors (checkChans s f) := by
  intro r hr
  obtain ⟨i, _, hir⟩ := List.exists_of_findSome?_eq_some hr
  exact hf i r hir

/-- Every check of R212 raises an error. -/
theorem reportsErrors_validate (p : Params) (s : State) : ReportsErrors (validate p s) := by
  refine reportsErrors_firstFailure ?_
  simp only [List.forall_mem_cons, List.not_mem_nil, false_implies, implies_true, and_true]
  refine ⟨reportsErrors_failing _ (by decide), reportsErrors_failing _ (by decide),
    reportsErrors_failing _ (by decide), reportsErrors_failing _ (by decide), reportsErrors_checkChans fun i => ?_,
    reportsErrors_checkChans fun i => ?_, reportsErrors_checkChans fun i => reportsErrors_failingOn i _ (by decide),
    reportsErrors_checkChans fun i => ?_⟩
  all_goals
    refine reportsErrors_firstFailure ?_
    simp only [List.forall_mem_cons, List.not_mem_nil, false_implies, implies_true, and_true]
  · exact ⟨reportsErrors_failingOn i _ (by decide), reportsErrors_failingOn i _ (by decide),
      reportsErrors_failingOn i _ (by decide)⟩
  · exact ⟨reportsErrors_failingOn i _ (by decide), reportsErrors_failingOn i _ (by decide)⟩
  · exact ⟨reportsErrors_failingOn i _ (by decide), reportsErrors_failingOn i _ (by decide)⟩

/-- Settles O21: of the three answers of `configureWith_cases` the first two write an error to RESULT. -/
theorem configureIsAllOrNothing : Obligations.ConfigureIsAllOrNothing := by
  refine fun s => ⟨configureWith Config.params s, rfl, ?_⟩
  rcases configureWith_cases Config.params s with ⟨r, hval, heq⟩ | ⟨_, heq, _⟩ | ⟨sch, offs, hval, hsch, hoffs, heq⟩ <;>
    rw [heq]
  · exact .inl ⟨rfl, reportsErrors_validate _ _ r hval⟩
  · exact .inl ⟨rfl, by simp⟩
  · have hv := validate_eq_none.1 hval
    exact .inr ⟨hv.idle, hv, sch, offs, hsch, hoffs, rfl, by rw [configureDone_eq], by rw [configureDone_eq]⟩

end Sys2Proof.Machine
end

section
/-! PROOFS. The ENGINE family: what the three steps do where they are enabled (R240 to R242), and that they and SERVICE
are refused elsewhere (log entry 12). -/

namespace Sys2Proof.Machine

/-- `bufch(c)` as R220 writes it. -/
theorem isBufferChan_iff {s : State} {c : Chan} :
    isBufferChan s c = true ↔ if s.actMode.shared then c = 0 else c.val < s.activeN := by
  unfold isBufferChan
  split_ifs <;> simp

/-- The condition of HALF_FULL (R241). -/
theorem halfFullEnabled_iff {s : State} {c : Chan} :
    halfFullEnabled s c = true ↔
      s.st = .running ∧ s.clkEn = true ∧ if s.actMode.shared then c = 0 else c.val < s.activeN := by
  rw [← isBufferChan_iff]
  simp [halfFullEnabled, and_assoc]

/-- The condition of ENG_WRITE (R240). -/
theorem engEnabled_iff {s : State} {c : Chan} {h : Half} {k : Word16} :
    engEnabled s c h k = true ↔
      s.st = .running ∧ s.clkEn = true ∧ (if s.actMode.shared then c = 0 else c.val < s.activeN) ∧
        k.toNat < (halfLen s c h).toNat := by
  simp only [engEnabled, Bool.and_eq_true, halfFullEnabled_iff, decide_eq_true_eq, and_assoc]

/-- The condition of XFER_ERROR (R242). -/
theorem xferErrorEnabled_iff {s : State} {c : Chan} :
    xferErrorEnabled s c = true ↔ s.st = .running ∧ c.val < s.activeN := by
  simp [xferErrorEnabled]

/-- The condition of SERVICE (R230). -/
theorem serviceEnabled_iff {s : State} : serviceEnabled s = true ↔ s.st = .running ∧ irqLine s = true := by
  simp [serviceEnabled]

/-- Settles O35: the store is the 16-bit write at `engAddr`. -/
theorem engineWriteStoresOneSample : Obligations.EngineWriteStoresOneSample := by
  intro c h k w s hrun hclk hbuf hk haddr
  have hstore : s.store16 (engAddr s c h k) w = .ok { s with mem := s.mem.write16 (engAddr s c h k) w } :=
    State.store16_of_lt s w haddr
  have hexec : exec (.eng c h k w) s = outcomeOf (s.store16 (engAddr s c h k) w) :=
    if_pos (engEnabled_iff.2 ⟨hrun, hclk, hbuf, hk⟩)
  rw [hstore] at hexec
  refine ⟨_, hexec, ?_, ?_, rfl, fun a => Memory.read_write16_other s.mem w⟩
  · rw [Memory.read_write16, if_pos rfl]
  · rw [Memory.read_write16, if_neg (by omega), if_pos rfl]

/-- Settles O36: the two words of `halfFull`, bit by bit. -/
theorem halfFullSetsPendingOrOverrun : Obligations.HalfFullSetsPendingOrOverrun := by
  intro c s hrun hclk hbuf
  have hexec : exec (.half c) s = .next (halfFull c s) := if_pos (halfFullEnabled_iff.2 ⟨hrun, hclk, hbuf⟩)
  refine ⟨_, _, hexec, fun d => by simp, fun d => ?_⟩
  by_cases hc : bitOf s.irqStatus c = true
  · simp [hc]
  · simp [hc]

/-- Settles O37: the word of `execXerr`, bit by bit. -/
theorem transferErrorSetsItsPendingBit : Obligations.TransferErrorSetsItsPendingBit := by
  intro c s hrun hc
  have hexec : exec (.xerr c) s = .next { s with errStatus := setBit s.errStatus c } :=
    if_pos (xferErrorEnabled_iff.2 ⟨hrun, hc⟩)
  exact ⟨_, hexec, fun d => by simp⟩

/-- Settles O38: each condition is the test its step makes. -/
theorem stepsOutsideTheirConditionAreRefused : Obligations.StepsOutsideTheirConditionAreRefused := fun _ _ =>
  ⟨fun h => if_neg (mt serviceEnabled_iff.1 h), fun _ _ _ h => if_neg (mt engEnabled_iff.1 h),
    fun h => if_neg (mt halfFullEnabled_iff.1 h), fun h => if_neg (mt xferErrorEnabled_iff.1 h)⟩

end Sys2Proof.Machine
end

section
/-! PROOFS. The SERVICE family, first part: the snapshots, the phases E and A and the order of the drains (R230, R235),
and that an enabled SERVICE completes inside MEM (R81, R85). -/

namespace Sys2Proof.Machine

/-! ### The snapshots S and E -/

/-- The channels with P have one ascending list. -/
theorem AscendingList.unique {l l' : List Chan} {P : Chan → Prop} (h : AscendingList l P) (h' : AscendingList l' P) :
    l = l' := by
  obtain ⟨hl, hmem⟩ := h
  obtain ⟨hl', hmem'⟩ := h'
  have hperm : l.Perm l' :=
    (List.perm_ext_iff_of_nodup (hl.imp ne_of_lt) (hl'.imp ne_of_lt)).2 fun c => (hmem c).trans (hmem' c).symm
  exact hperm.eq_of_pairwise' (hl.imp le_of_lt) (hl'.imp le_of_lt)

theorem ascendingList_pendingFull (s : State) : AscendingList (pendingFull s) (SignalsFull s) :=
  ⟨pairwise_allChans.filter _, fun _ => mem_pendingFull⟩

theorem ascendingList_pendingErr (s : State) : AscendingList (pendingErr s) (SignalsError s) :=
  ⟨pairwise_allChans.filter _, fun _ => mem_pendingErr⟩

/-- The drained channels are the snapshot S, in its order (R230). -/
theorem map_fst_justFilled (s : State) : (justFilled s).map Prod.fst = pendingFull s := by
  simp [justFilled, Function.comp_def]

theorem mem_justFilled {s : State} {x : Chan × Half} :
    x ∈ justFilled s ↔ SignalsFull s x.1 ∧ x.2 = (s.chan x.1).half := by
  obtain ⟨c, h⟩ := x
  simp only [justFilled, List.mem_map, Prod.mk.injEq]
  constructor
  · rintro ⟨d, hd, rfl, rfl⟩
    exact ⟨mem_pendingFull.1 hd, rfl⟩
  · rintro ⟨hc, rfl⟩
    exact ⟨c, mem_pendingFull.2 hc, rfl, rfl⟩

/-! ### What the phases E and A leave -/

/-- Clearing the pending bits of the unmasked channels leaves those of the masked ones (R230). -/
theorem bitOf_clear_unmasked (w m : Word16) (c : Chan) :
    bitOf ((allChans.filter fun d => bitOf w d && !bitOf m d).foldl clearBit w) c = true ↔
      bitOf w c = true ∧ bitOf m c = true := by
  rw [bitOf_foldl_clearBit]
  cases hw : bitOf w c <;> cases hm : bitOf m c <;> simp [hw, hm]

section
variable (s : State) (c : Chan)

/-- A field of a bank but the active half (R230). -/
theorem field_serviceSwapped {α : Type} (f : Channel → α) (hf : ∀ x h, f { x with half := h } = f x) :
    f ((serviceSwapped s).chan c) = f (s.chan c) := by
  rw [chan_serviceSwapped]
  split_ifs
  · exact hf _ _
  · rfl

theorem count_serviceSwapped : ((serviceSwapped s).chan c).count = (s.chan c).count :=
  field_serviceSwapped s c _ fun _ _ => rfl

theorem aNs_serviceSwapped : ((serviceSwapped s).chan c).aNs = (s.chan c).aNs :=
  field_serviceSwapped s c _ fun _ _ => rfl

theorem aRxAddr_serviceSwapped : ((serviceSwapped s).chan c).aRxAddr = (s.chan c).aRxAddr :=
  field_serviceSwapped s c _ fun _ _ => rfl

theorem aDiff_serviceSwapped : ((serviceSwapped s).chan c).aDiff = (s.chan c).aDiff :=
  field_serviceSwapped s c _ fun _ _ => rfl

theorem actMode_serviceSwapped : (serviceSwapped s).actMode = s.actMode := by rw [serviceSwapped_eq]

theorem enabled_serviceSwapped : Enabled (serviceSwapped s) c ↔ Enabled s c := by
  rw [Enabled, State.activeN, actMode_serviceSwapped, Enabled, State.activeN]

theorem inReceiveBuffer_serviceSwapped (a : Nat) :
    InReceiveBuffer (serviceSwapped s) c a ↔ InReceiveBuffer s c a := by
  rw [InReceiveBuffer, aRxAddr_serviceSwapped, aNs_serviceSwapped, InReceiveBuffer]

theorem bitOf_irqStatus_serviceSwapped :
    bitOf (serviceSwapped s).irqStatus c = true ↔ bitOf s.irqStatus c = true ∧ bitOf s.irqMask c = true := by
  rw [serviceSwapped_eq]
  exact bitOf_clear_unmasked s.irqStatus s.irqMask c

theorem bitOf_errStatus_serviceSwapped :
    bitOf (serviceSwapped s).errStatus c = true ↔ bitOf s.errStatus c = true ∧ bitOf s.irqMask c = true := by
  rw [serviceSwapped_eq]
  exact bitOf_clear_unmasked s.errStatus s.irqMask c

end

/-! ### SERVICE completes -/

/-- An enabled SERVICE answers what its delivery answers (R230). -/
theorem exec_svc_eq {s t : State} (hrun : s.st = .running) (hline : irqLine s = true)
    (h : deliverAll (justFilled s) (serviceSwapped s) = .ok t) : exec .svc s = .next t := by
  have hexec : exec .svc s = outcomeOf (service s) := if_pos (serviceEnabled_iff.2 ⟨hrun, hline⟩)
  rw [hexec, service, h]
  rfl

/-- A signalling channel raises the line (R47). -/
theorem irqLine_of_signalsFull {s : State} (h : ∃ c, SignalsFull s c) : irqLine s = true := by
  obtain ⟨c, hirq, hmask⟩ := h
  exact irqLine_iff.2 ⟨c, .inl hirq, hmask⟩

/-- Settles O28: the drained halves and the receive buffers in reach are those of BuffersInMemory. -/
theorem serviceCompletesInsideReceiveBuffers : Obligations.ServiceCompletesInsideReceiveBuffers := by
  intro s hrun hline hb
  have hcounts : CountsOk (serviceSwapped s) := fun c => by
    rw [count_serviceSwapped, aNs_serviceSwapped]
    exact hb.counts c
  have hreach : ∀ x ∈ justFilled s, ReachableOk (serviceSwapped s) x.1 := by
    intro x hx u hu
    obtain ⟨⟨hirq, _⟩, _⟩ := mem_justFilled.1 hx
    rw [aRxAddr_serviceSwapped, aNs_serviceSwapped]
    rcases hu with rfl | hu
    · exact hb.receive _ (.inr hirq)
    · exact hb.receive u (.inl ((enabled_serviceSwapped s u).1 hu))
  have hhalves : ∀ x ∈ justFilled s, (halfAddr (serviceSwapped s) x.1 x.2).toNat +
      2 * (halfLen (serviceSwapped s) x.1 x.2).toNat ≤ 2 ^ 32 := by
    intro x hx
    obtain ⟨⟨hirq, _⟩, _⟩ := mem_justFilled.1 hx
    rw [halfAddr_serviceSwapped, halfLen_serviceSwapped]
    exact hb.halves _ _ hirq
  obtain ⟨t, hdel, hct, hread⟩ := deliverAll_ok hcounts hreach hhalves
  refine ⟨t, exec_svc_eq hrun hline hdel, fun c => ?_, fun a ha => ?_⟩
  · rw [← aNs_serviceSwapped s c, ← (Delivered.deliverAll hdel).aNs c]
    exact hct c
  · rw [hread a fun u hu => ?_, serviceSwapped_mem]
    rw [inReceiveBuffer_serviceSwapped]
    refine ha u (hu.symm.imp (enabled_serviceSwapped s u).1 ?_)
    rintro ⟨x, hx, rfl⟩
    exact (mem_justFilled.1 hx).left

/-! ### The events of the drains -/

/-- A law of drains in progress that every sample of channel c keeps holds after a drain of c. -/
theorem drainFrom_keeps {P : Drain → Prop} {c : Chan} (hs : ∀ {w d e}, deliver c w d = .ok e → P d → P e)
    {a left k : Nat} {d d' : Drain} (h : drainFrom c a left k d = .ok d') (hd : P d) : P d' := by
  induction left generalizing k d with
  | zero => exact Except.ok.inj h ▸ hd
  | succ n ih =>
    obtain ⟨e, _, hdel, hrest⟩ := drainFrom_succ h
    exact ih hrest (hs hdel hd)

/-- The scratch values before the first sample (R231). -/
def Tally.zero : Tally := { stored := false, done := 0, dropped := false }

theorem startDrain_tally (s : State) (u : Chan) : (startDrain s).tally[u.val] = Tally.zero := by
  simp [startDrain, Tally.zero]

theorem tallyEvents_zero (u : Chan) : tallyEvents u Tally.zero = [] := rfl

/-- A routed sample moves the scratch values of its own channel only. -/
theorem route_tally_other {t u : Chan} {w : Word16} {d d' : Drain} (h : route t w d = .ok d') (hu : u ≠ t) :
    d'.tally[u.val] = d.tally[u.val] := by
  have hne : t.val ≠ u.val := fun he => hu (Fin.ext he.symm)
  rcases route_cases h with ⟨_, rfl⟩ | ⟨_, _, rfl⟩ <;> simp [hne]

/-- In the per-channel variant a drain of c leaves the scratch values of every other channel at zero. -/
def OnlyTallies (c : Chan) (d : Drain) : Prop :=
  d.s.actMode.shared = false → ∀ u, u ≠ c → d.tally[u.val] = Tally.zero

theorem OnlyTallies.deliver {c : Chan} {w : Word16} {d e : Drain} (h : deliver c w d = .ok e) (hd : OnlyTallies c d) :
    OnlyTallies c e := by
  intro hsh u hu
  rw [(Delivered.deliver h).actMode] at hsh
  rcases deliver_cases h with ⟨_, hr⟩ | ⟨hsh', _⟩ | ⟨hsh', _⟩
  · rw [route_tally_other hr hu, hd hsh u hu]
  · simp [hsh] at hsh'
  · simp [hsh] at hsh'

/-- What a drain of channel c can report: no transfer error, and in the per-channel variant c's own events. -/
def OwnReports (s : State) (c : Chan) (es : List Event) : Prop :=
  ∀ e ∈ es, e.kind ≠ .transferError ∧ (s.actMode.shared = false → e.channel = c)

/-- A sample appends no event: they are emitted at the end of the drain (R231). -/
theorem deliver_events {c : Chan} {w : Word16} {d e : Drain} (h : deliver c w d = .ok e) : e.s.events = d.s.events := by
  have hroute {t : Chan} (hr : route t w d = .ok e) : e.s.events = d.s.events := by
    rcases route_cases hr with ⟨_, rfl⟩ | ⟨_, _, rfl⟩ <;> rfl
  rcases deliver_cases h with ⟨_, hr⟩ | ⟨_, _, hr⟩ | ⟨_, _, rfl⟩
  · exact hroute hr
  · exact hroute hr
  · rfl

theorem drain_reports {c : Chan} {h : Half} {s t : State} (hd : drain c h s = .ok t) :
    ∃ es, t.events = s.events ++ es ∧ OwnReports s c es := by
  obtain ⟨d, hfrom, rfl⟩ := drain_cases hd
  have hevents : d.s.events = s.events :=
    drainFrom_keeps (P := fun e => e.s.events = s.events) (fun hs he => (deliver_events hs).trans he) hfrom rfl
  have hmode : d.s.actMode = s.actMode :=
    drainFrom_keeps (P := fun e => e.s.actMode = s.actMode) (fun hs he => (Delivered.deliver hs).actMode.trans he)
      hfrom rfl
  have htally : OnlyTallies c d := drainFrom_keeps OnlyTallies.deliver hfrom fun _ u _ => startDrain_tally s u
  refine ⟨drainEvents d, congrArg (· ++ drainEvents d) hevents, fun e he => ?_⟩
  obtain ⟨u, _, he⟩ := List.mem_flatMap.1 he
  obtain ⟨rfl, hkind⟩ := tallyEvents_kind he
  refine ⟨hkind, fun hsh => by_contra fun hne => ?_⟩
  rw [htally (hmode ▸ hsh) e.channel hne, tallyEvents_zero] at he
  simp at he

/-- A delivery reports the drains in order (R230). -/
theorem deliverAll_reports {l : List (Chan × Half)} {s t : State} (hl : (l.map Prod.fst).Nodup)
    (hd : deliverAll l s = .ok t) :
    ∃ reports : Chan → List Event, t.events = s.events ++ (l.map Prod.fst).flatMap reports ∧
      ∀ c, OwnReports s c (reports c) := by
  induction l generalizing s with
  | nil =>
    obtain rfl : s = t := Except.ok.inj hd
    exact ⟨fun _ => [], by simp, fun _ _ he => absurd he List.not_mem_nil⟩
  | cons x l ih =>
    obtain ⟨hx, hl⟩ := List.nodup_cons.1 hl
    obtain ⟨u, hu, hrest⟩ := deliverAll_cons hd
    obtain ⟨es, hes, hown⟩ := drain_reports hu
    obtain ⟨reports, hreports, hall⟩ := ih hl hrest
    refine ⟨Function.update reports x.1 es, ?_, fun c => ?_⟩
    · have hcongr : (l.map Prod.fst).flatMap (Function.update reports x.1 es) = (l.map Prod.fst).flatMap reports :=
        List.flatMap_congr fun c hc => Function.update_of_ne (by rintro rfl; exact hx hc) _ _
      rw [hreports, hes, List.map_cons, List.flatMap_cons, Function.update_self, hcongr, List.append_assoc]
    · by_cases hc : c = x.1
      · subst hc
        rwa [Function.update_self]
      · rw [Function.update_of_ne hc]
        have hmode := (Delivered.drain hu).actMode
        intro e he
        rw [← hmode]
        exact hall c e he

/-- Settles O29: the phases E and A as one update, then a delivery, which moves MEM, fill counters, DEMUX_ERR and
EVENTS only. -/
theorem serviceSwapsAndRearms : Obligations.ServiceSwapsAndRearms := by
  intro s t h
  obtain ⟨_, _, hdel⟩ := execSvc_next h
  have hd := Delivered.deliverAll hdel
  have hirq (c : Chan) : bitOf t.irqStatus c = true ↔ bitOf s.irqStatus c = true ∧ bitOf s.irqMask c = true := by
    rw [hd.frame]
    exact bitOf_irqStatus_serviceSwapped s c
  have herr (c : Chan) : bitOf t.errStatus c = true ↔ bitOf s.errStatus c = true ∧ bitOf s.irqMask c = true := by
    rw [hd.frame]
    exact bitOf_errStatus_serviceSwapped s c
  have hmask : t.irqMask = s.irqMask := by rw [hd.frame, serviceSwapped_eq]
  refine ⟨hirq, herr, fun c hc => ?_, fun c hc => ?_, fun full errs hfull herrs => ?_, ?_, fun hdm => ?_, ?_⟩
  · rw [hd.bank c, chan_serviceSwapped, if_pos (mem_pendingFull.2 hc)]
  · rw [hd.bank c, chan_serviceSwapped, if_neg (mt mem_pendingFull.1 hc)]
  · obtain rfl := hfull.unique (ascendingList_pendingFull s)
    obtain rfl := herrs.unique (ascendingList_pendingErr s)
    have hnodup : ((justFilled s).map Prod.fst).Nodup := map_fst_justFilled s ▸ nodup_pendingFull s
    obtain ⟨reports, hreports, hown⟩ := deliverAll_reports hnodup hdel
    refine ⟨by rw [hd.frame, serviceSwapped_eq]; rfl, reports, ?_, fun c e he => ?_⟩
    · rw [hreports, map_fst_justFilled, serviceSwapped_eq]
    · rw [← actMode_serviceSwapped s]
      exact hown c e he
  · refine irqLine_eq_false.2 fun c hc => ?_
    rw [hmask]
    rcases hc with hc | hc
    · exact ((hirq c).1 hc).right
    · exact ((herr c).1 hc).right
  · exact hd.demux (by rw [serviceSwapped_eq]; exact hdm)
  · have hframe := hd.frame
    rw [serviceSwapped_eq] at hframe
    rw [hframe]

/-- Settles O30: with S empty the delivery has nothing to drain. -/
theorem transferErrorsAreReportedOnly : Obligations.TransferErrorsAreReportedOnly := by
  intro s hrun hfull herr
  have hnone : pendingFull s = [] := List.eq_nil_iff_forall_not_mem.2 fun c hc => hfull c (mem_pendingFull.1 hc)
  have hline : irqLine s = true := by
    obtain ⟨c, hc, hmask⟩ := herr
    exact irqLine_iff.2 ⟨c, .inr hc, hmask⟩
  have hexec : exec .svc s = .next (serviceSwapped s) :=
    exec_svc_eq hrun hline (by rw [justFilled, hnone]; rfl)
  have hbanks : toggledBanks [] s.ch = s.ch := banks_ext fun c => by simp [toggledBanks, getElem_mapBanks]
  obtain ⟨hsorted, hmem⟩ := ascendingList_pendingErr s
  refine ⟨(serviceSwapped s).errStatus, pendingErr s, bitOf_errStatus_serviceSwapped s, hmem, hsorted, ?_⟩
  rw [hexec, serviceSwapped_eq, hnone, hbanks]
  rfl

end Sys2Proof.Machine
end

section
/-! PROOFS. The SERVICE family, second part: what a drain delivers, in the closed forms of R231 to R234. A channel is
given the words routed to it, in order; the counters, the places and the bytes stored follow from them. -/

namespace Sys2Proof.Machine

/-! ### Where a word of a half is routed -/

/-- The channel a word of channel c's half is routed to; none where its id is not enabled (R231, R233). -/
def routedTo (s : State) (c : Chan) (w : Word16) : Option Chan :=
  if s.actMode.shared then (if (sampleChan w).val < s.activeN then some (sampleChan w) else none) else some c

/-- A drain of channel c's half can route to channel u. -/
def Reaches (s : State) (c u : Chan) : Prop := ∃ w, routedTo s c w = some u

theorem routedTo_own {s : State} (h : s.actMode.shared = false) (c : Chan) (w : Word16) :
    routedTo s c w = some c := by
  simp [routedTo, h]

theorem reaches_own {s : State} (h : s.actMode.shared = false) {c u : Chan} : Reaches s c u ↔ u = c := by
  simp [Reaches, routedTo_own h, eq_comm]

theorem routedTo_ring {s : State} (h : s.actMode.shared = true) {c u : Chan} {w : Word16} :
    routedTo s c w = some u ↔ sampleChan w = u ∧ Enabled s u := by
  simp only [routedTo, h, if_true, Enabled]
  split_ifs with he
  · rw [Option.some_inj]
    exact ⟨fun hu => ⟨hu, hu ▸ he⟩, And.left⟩
  · simp only [false_iff, not_and]
    rintro rfl
    exact he

theorem routedTo_ring_eq_none {s : State} (h : s.actMode.shared = true) {c : Chan} {w : Word16} :
    routedTo s c w = none ↔ s.activeN ≤ (sampleChan w).val := by
  simp [routedTo, h]

theorem Reaches.enabled {s : State} {c u : Chan} (h : s.actMode.shared = true) (hu : Reaches s c u) : Enabled s u := by
  obtain ⟨w, hw⟩ := hu
  exact ((routedTo_ring h).1 hw).right

theorem Delivered.routedTo {s t : State} (h : Delivered s t) (c : Chan) (w : Word16) :
    routedTo t c w = routedTo s c w := by
  unfold Machine.routedTo
  rw [h.actMode, h.activeN]

/-- A word with a channel to go to is routed there (R232). -/
theorem deliver_of_routedTo {c u : Chan} {w : Word16} {d : Drain} (h : routedTo d.s c w = some u) :
    deliver c w d = route u w d := by
  unfold routedTo at h
  unfold deliver demux
  split_ifs at h ⊢ <;> rw [Option.some.inj h]

/-- A word without one raises DEMUX_ERR and is dropped (R233). -/
theorem deliver_of_unrouted {c : Chan} {w : Word16} {d : Drain} (h : routedTo d.s c w = none) :
    deliver c w d = .ok { d with s := { d.s with demuxErr := true } } := by
  unfold routedTo at h
  unfold deliver demux
  split_ifs at h ⊢
  rfl

/-- The words of a drain that go to channel u, in order. -/
def routedWords (s : State) (c : Chan) (ws : List Word16) (u : Chan) : List Word16 :=
  ws.filter fun w => decide (routedTo s c w = some u)

/-- One more word for channel u. -/
def pushWord (W : Chan → List Word16) (u : Chan) (w : Word16) : Chan → List Word16 :=
  Function.update W u (W u ++ [w])

theorem pushWord_same (W : Chan → List Word16) (u : Chan) (w : Word16) : pushWord W u w u = W u ++ [w] :=
  Function.update_self ..

theorem pushWord_other (W : Chan → List Word16) {u v : Chan} (w : Word16) (h : v ≠ u) : pushWord W u w v = W v :=
  Function.update_of_ne h ..

theorem pushWord_ne_nil {W : Chan → List Word16} {v : Chan} (u : Chan) (w : Word16) (h : W v ≠ []) :
    pushWord W u w v ≠ [] := by
  by_cases hv : v = u
  · subst hv
    simp [pushWord_same]
  · rwa [pushWord_other W w hv]

theorem routedWords_concat_routed {s : State} {c u : Chan} {w : Word16} (ws : List Word16)
    (h : routedTo s c w = some u) : routedWords s c (ws ++ [w]) = pushWord (routedWords s c ws) u w := by
  funext v
  by_cases hv : v = u
  · subst hv
    simp [pushWord_same, routedWords, h]
  · have hne : u ≠ v := fun he => hv he.symm
    simp [pushWord_other _ w hv, routedWords, h, hne]

theorem routedWords_concat_unrouted {s : State} {c : Chan} {w : Word16} (ws : List Word16)
    (h : routedTo s c w = none) : routedWords s c (ws ++ [w]) = routedWords s c ws := by
  funext v
  simp [routedWords, h]

/-- In the per-channel variant all words of a drain go to its channel. -/
theorem routedWords_own {s : State} (h : s.actMode.shared = false) (c : Chan) (ws : List Word16) :
    routedWords s c ws c = ws := by
  simp [routedWords, routedTo_own h]

theorem routedWords_own_other {s : State} (h : s.actMode.shared = false) {c u : Chan} (hu : u ≠ c)
    (ws : List Word16) : routedWords s c ws u = [] := by
  simp [routedWords, routedTo_own h, hu.symm]

/-- A channel that was given a word can be reached. -/
theorem reaches_of_routedWords {s : State} {c u : Chan} {ws : List Word16} (h : routedWords s c ws u ≠ []) :
    Reaches s c u := by
  obtain ⟨w, hw⟩ := List.exists_mem_of_ne_nil _ h
  exact ⟨w, by simpa using (List.mem_filter.1 hw).right⟩

/-! ### The places of R232 -/

/-- A place lies inside the receive buffer, at an even distance from its start. -/
theorem sampleAddr_eq_some {s : State} {u : Chan} {j x : Nat} (h : sampleAddr s u j = some x) :
    ∃ p, p < threshold s u ∧ x = receiveAddr s u + 2 * p := by
  unfold sampleAddr at h
  obtain ⟨p, hp, rfl⟩ := Option.map_eq_some_iff.1 h
  refine ⟨p, ?_, rfl⟩
  unfold samplePlace at hp
  split_ifs at hp with _ hlt hlt <;> obtain rfl := Option.some.inj hp
  · exact hlt
  · exact Nat.mod_lt _ (by omega)

/-- The next sample of channel u, after l of them, is dropped at the threshold and else stored at the counter. -/
theorem sampleAddr_eq {s : State} {u : Chan} (h : fillCount s u ≤ threshold s u) (l : Nat) :
    sampleAddr s u l =
      if countAfter s.actMode.ard (fillCount s u) (threshold s u) l = threshold s u then none
      else some (receiveAddr s u + 2 * countAfter s.actMode.ard (fillCount s u) (threshold s u) l) := by
  rw [sampleAddr, samplePlace_eq h]
  split_ifs <;> rfl

/-- Places in receive buffers that share no byte are at least two bytes apart. -/
theorem places_apart {s : State} {u v : Chan} {i j x y : Nat}
    (h : SamplesApart (receiveAddr s u) (threshold s u) (receiveAddr s v) (threshold s v))
    (hx : sampleAddr s u i = some x) (hy : sampleAddr s v j = some y) : x + 2 ≤ y ∨ y + 2 ≤ x := by
  obtain ⟨p, hp, rfl⟩ := sampleAddr_eq_some hx
  obtain ⟨q, hq, rfl⟩ := sampleAddr_eq_some hy
  unfold SamplesApart at h
  omega

/-- So are two different places of one receive buffer. -/
theorem places_apart_of_ne {s : State} {u : Chan} {i j x y : Nat} (hx : sampleAddr s u i = some x)
    (hy : sampleAddr s u j = some y) (hne : y ≠ x) : x + 2 ≤ y ∨ y + 2 ≤ x := by
  obtain ⟨p, _, rfl⟩ := sampleAddr_eq_some hx
  obtain ⟨q, _, rfl⟩ := sampleAddr_eq_some hy
  omega

/-- A later sample at another place does not hide this one. -/
theorem LastThere.of_le {s : State} {u : Chan} {l l' j : Nat} (h : LastThere s u l j) (hl : l' ≤ l) :
    LastThere s u l' j :=
  fun j' hj hl' => h j' hj (by omega)

/-- MEM after a sample that has a place, or none. -/
def Memory.storeAt (m : Memory) (place : Option Nat) (v : Word16) : Memory :=
  place.elim m (m.write16 · v)

theorem Memory.read_storeAt {m : Memory} {place : Option Nat} {v : Word16} {y : Nat}
    (h : ∀ x, place = some x → y ≠ x ∧ y ≠ x + 1) : Memory.read (m.storeAt place v) y = Memory.read m y := by
  cases place with
  | none => rfl
  | some x =>
    obtain ⟨hx, hx'⟩ := h x rfl
    exact Memory.read_write16_other m v hx hx'

theorem Memory.read16_storeAt {m : Memory} {place : Option Nat} {v : Word16} {y : Nat}
    (h : ∀ x, place = some x → y + 2 ≤ x ∨ x + 2 ≤ y) : (m.storeAt place v).read16 y = m.read16 y := by
  cases place with
  | none => rfl
  | some x => exact Memory.read16_write16_other m v (h x rfl)

/-- A 16-bit read is of its two bytes. -/
theorem Memory.read16_congr {m m' : Memory} {a : Nat} (h : Memory.read m a = Memory.read m' a)
    (h' : Memory.read m (a + 1) = Memory.read m' (a + 1)) : m.read16 a = m'.read16 a := by
  rw [Memory.read16, h, h', Memory.read16]

/-! ### The state after words have been routed -/

/-- t is s after each channel u has been given the words W u: the counters, the bytes outside the places of those
words, and the words at places no later word of the channel took, on channels whose receive buffer is apart. -/
structure Fills (s : State) (W : Chan → List Word16) (t : State) : Prop where
  idle : ∀ u, W u = [] → (t.chan u).count = (s.chan u).count
  count : ∀ u, fillCount s u ≤ threshold s u →
    fillCount t u = countAfter s.actMode.ard (fillCount s u) (threshold s u) (W u).length
  frame : ∀ y, (∀ u j x, j < (W u).length → sampleAddr s u j = some x → y ≠ x ∧ y ≠ x + 1) →
    Memory.read t.mem y = Memory.read s.mem y
  data : ∀ u j w x, (W u)[j]? = some w → sampleAddr s u j = some x → LastThere s u (W u).length j →
    (∀ v, v ≠ u → W v ≠ [] → SamplesApart (receiveAddr s u) (threshold s u) (receiveAddr s v) (threshold s v)) →
    t.mem.read16 x = applyCal s w (s.chan u).aDiff

theorem Fills.refl (s : State) : Fills s (fun _ => []) s where
  idle _ _ := rfl
  count _ h := (countAfter_zero h).symm
  frame _ _ := rfl
  data _ _ _ _ h := by simp at h

/-- Bytes apart from the receive buffers of the channels that were given words read as before. -/
theorem Fills.read16_of_apart {s t : State} {W : Chan → List Word16} (h : Fills s W t) {a l k : Nat} (hk : k < l)
    (hapart : ∀ u, W u ≠ [] → SamplesApart a l (receiveAddr s u) (threshold s u)) :
    t.mem.read16 (a + 2 * k) = s.mem.read16 (a + 2 * k) := by
  have hplace (u : Chan) (j x : Nat) (hj : j < (W u).length) (hx : sampleAddr s u j = some x) :
      a + 2 * k + 2 ≤ x ∨ x + 2 ≤ a + 2 * k := by
    have hu := hapart u (List.ne_nil_of_length_pos (by omega))
    obtain ⟨p, hp, rfl⟩ := sampleAddr_eq_some hx
    unfold SamplesApart at hu
    omega
  refine Memory.read16_congr (h.frame _ fun u j x hj hx => ?_) (h.frame _ fun u j x hj hx => ?_)
  · have := hplace u j x hj hx
    omega
  · have := hplace u j x hj hx
    omega

/-- The buffer of a channel is full when its words have filled it. -/
theorem Fills.full_iff {s t : State} {W : Chan → List Word16} (h : Fills s W t) (hd : Delivered s t) {u : Chan}
    (hu : fillCount s u ≤ threshold s u) :
    (t.chan u).count = (t.chan u).aNs ↔
      countAfter s.actMode.ard (fillCount s u) (threshold s u) (W u).length = threshold s u := by
  rw [← BitVec.toNat_inj, hd.aNs, ← h.count u hu]
  rfl

/-- Where it is not, the next sample is the last of a group when it fills the last place; the counter does not wrap. -/
theorem Fills.last_iff {s t : State} {W : Chan → List Word16} (h : Fills s W t) (hd : Delivered s t) {u : Chan}
    (hu : fillCount s u ≤ threshold s u) (hroom : (t.chan u).count ≠ (t.chan u).aNs) :
    (t.chan u).count + 1 = (t.chan u).aNs ↔
      countAfter s.actMode.ard (fillCount s u) (threshold s u) (W u).length + 1 = threshold s u := by
  have hlt : fillCount t u < threshold s u := by
    rw [h.count u hu]
    exact lt_of_le_of_ne countAfter_le (mt (h.full_iff hd hu).2 hroom)
  have hmax : threshold s u < 2 ^ 16 := (s.chan u).aNs.isLt
  have hsucc : ((t.chan u).count + 1).toNat = fillCount t u + 1 := by
    rw [BitVec.toNat_add]
    exact Nat.mod_eq_of_lt (lt_of_le_of_lt hlt hmax)
  rw [← BitVec.toNat_inj, hsucc, h.count u hu, hd.aNs]
  rfl

/-- What a routed sample does to a state that has taken words already: it goes to the next place of its channel. -/
theorem Fills.route_effect {s : State} {W : Chan → List Word16} {u : Chan} {w : Word16} {d d' : Drain}
    (h : Fills s W d.s) (hd : Delivered s d.s) (hu : fillCount s u ≤ threshold s u) (hr : route u w d = .ok d') :
    d'.s.mem = d.s.mem.storeAt (sampleAddr s u (W u).length) (applyCal s w (s.chan u).aDiff) ∧
      fillCount d'.s u = countAfter s.actMode.ard (fillCount s u) (threshold s u) ((W u).length + 1) ∧
      ∀ v, v ≠ u → d'.s.chan v = d.s.chan v := by
  have hcount : (d.s.chan u).count.toNat = countAfter s.actMode.ard (fillCount s u) (threshold s u) (W u).length :=
    h.count u hu
  have hfull := h.full_iff hd hu
  rw [sampleAddr_eq hu, countAfter_succ hu]
  rcases route_cases hr with ⟨hc, rfl⟩ | ⟨hc, _, rfl⟩
  · rw [if_pos (hfull.1 hc), if_pos (hfull.1 hc)]
    exact ⟨rfl, hcount.trans (hfull.1 hc), fun _ _ => rfl⟩
  · have hne := mt hfull.2 hc
    have haDiff : (d.s.chan u).aDiff = (s.chan u).aDiff := by rw [hd.bank u]
    have hle : (d.s.chan u).count.toNat ≤ (d.s.chan u).aNs.toNat := by
      rw [hcount, hd.aNs]
      exact countAfter_le
    rw [if_neg hne, if_neg hne]
    refine ⟨?_, ?_, fun v hv => chan_setChan_other _ _ hv⟩
    · simp only [State.setChan_mem, storeAddr, hcount, hd.aRxAddr, haDiff, hd.applyCal]
      rfl
    · rw [fillCount, chan_setChan_same, toNat_nextCount (count_lt_of_ne hc hle), hcount, hd.aNs, hd.actMode]
      rfl

/-- A routed sample is one more word for its channel. -/
theorem Fills.route {s : State} {W : Chan → List Word16} {u : Chan} {w : Word16} {d d' : Drain}
    (h : Fills s W d.s) (hd : Delivered s d.s) (hu : fillCount s u ≤ threshold s u) (hr : route u w d = .ok d') :
    Fills s (pushWord W u w) d'.s := by
  obtain ⟨hmem, hcount, hother⟩ := h.route_effect hd hu hr
  refine ⟨fun v hv => ?_, fun v hv => ?_, fun y hy => ?_, fun v j w' x hw hx hlast hapart => ?_⟩
  · have hne : v ≠ u := by
      rintro rfl
      simp [pushWord_same] at hv
    rw [pushWord_other W w hne] at hv
    rw [hother v hne, h.idle v hv]
  · by_cases hvu : v = u
    · subst hvu
      rw [pushWord_same, List.length_append, List.length_singleton, hcount]
    · rw [pushWord_other W w hvu, fillCount, hother v hvu]
      exact h.count v hv
  · rw [hmem, Memory.read_storeAt, h.frame]
    · intro v j x hj hx
      refine hy v j x ?_ hx
      by_cases hvu : v = u
      · subst hvu
        simp only [pushWord_same, List.length_append]
        omega
      · rwa [pushWord_other W w hvu]
    · intro x hx
      exact hy u (W u).length x (by simp [pushWord_same]) hx
  · have hold : ∀ v', v' ≠ v → W v' ≠ [] →
        SamplesApart (receiveAddr s v) (threshold s v) (receiveAddr s v') (threshold s v') :=
      fun v' hne hv' => hapart v' hne (pushWord_ne_nil u w hv')
    rw [hmem]
    by_cases hvu : v = u
    · subst hvu
      rw [pushWord_same] at hw hlast
      rw [List.length_append, List.length_singleton] at hlast
      rcases Nat.lt_trichotomy j (W v).length with hj | rfl | hj
      · rw [List.getElem?_append_left hj] at hw
        rw [Memory.read16_storeAt fun z hz => ?_]
        · exact h.data v j w' x hw hx (hlast.of_le (by omega)) hold
        · refine places_apart_of_ne hx hz ?_
          rintro rfl
          exact hlast _ hj (by omega) (hz.trans hx.symm)
      · obtain rfl : w = w' := by simpa using hw
        rw [hx]
        exact Memory.read16_write16_same _ _ _
      · rw [List.getElem?_eq_none (by simp; omega)] at hw
        simp at hw
    · rw [pushWord_other W w hvu] at hw hlast
      rw [Memory.read16_storeAt fun z hz => places_apart (hapart u (fun he => hvu he.symm) ?_) hx hz]
      · exact h.data v j w' x hw hx hlast hold
      · simp [pushWord_same]

/-- A bank that took no word is as it was (R230). -/
theorem Delivered.chan_eq {s t : State} (h : Delivered s t) {u : Chan} (hc : (t.chan u).count = (s.chan u).count) :
    t.chan u = s.chan u := by
  rw [h.bank u, hc]

/-- Places follow from the bank and A_ARD. -/
theorem sampleAddr_congr {s t : State} (hm : t.actMode = s.actMode) {u : Chan} (hu : t.chan u = s.chan u) :
    sampleAddr t u = sampleAddr s u := by
  funext j
  rw [sampleAddr, hm, fillCount, threshold, receiveAddr, hu]
  rfl

/-- Two runs of words for different channels are one run. -/
theorem Fills.trans {s t r : State} {V W : Chan → List Word16} (h : Fills s V t) (hd : Delivered s t)
    (h' : Fills t W r) (hdis : ∀ u, V u = [] ∨ W u = []) : Fills s (fun u => V u ++ W u) r := by
  have hchan (u : Chan) (hu : V u = []) : t.chan u = s.chan u := hd.chan_eq (h.idle u hu)
  have hplace (u : Chan) (hu : V u = []) : sampleAddr t u = sampleAddr s u := sampleAddr_congr hd.actMode (hchan u hu)
  have hfirst (u : Chan) (hu : W u ≠ []) : V u = [] := (hdis u).resolve_right hu
  have hrx (u : Chan) : receiveAddr t u = receiveAddr s u := congrArg BitVec.toNat (hd.aRxAddr u)
  have hns (u : Chan) : threshold t u = threshold s u := congrArg BitVec.toNat (hd.aNs u)
  refine ⟨fun u hu => ?_, fun u hu => ?_, fun y hy => ?_, fun u j w x hw hx hlast hapart => ?_⟩
  · obtain ⟨hv, hw⟩ := List.append_eq_nil_iff.1 hu
    rw [h'.idle u hw, h.idle u hv]
  · rcases hdis u with hv | hw
    · have hc := h'.count u
      rw [hns, hd.actMode, fillCount, hchan u hv] at hc
      rw [hv, List.nil_append]
      exact hc hu
    · rw [hw, List.append_nil, fillCount, h'.idle u hw]
      exact h.count u hu
  · rw [h'.frame, h.frame]
    · exact fun u j x hj hx => hy u j x (by rw [List.length_append]; omega) hx
    · intro u j x hj hx
      have hu := hfirst u (List.ne_nil_of_length_pos (by omega))
      rw [hplace u hu] at hx
      exact hy u j x (by rw [List.length_append]; omega) hx
  · rcases hdis u with hv | hw'
    · simp only [hv, List.nil_append] at hw hlast
      rw [h'.data u j w x hw (by rw [hplace u hv]; exact hx), hchan u hv, hd.applyCal]
      · rwa [LastThere, hplace u hv]
      · intro v hne hv'
        rw [hrx, hns, hrx, hns]
        exact hapart v hne (by simp [hv'])
    · simp only [hw', List.append_nil] at hw hlast
      have hkeep (y : Nat) (hlo : x ≤ y) (hhi : y ≤ x + 1) : Memory.read r.mem y = Memory.read t.mem y := by
        refine h'.frame y fun v i z hi hz => ?_
        have hv' : W v ≠ [] := List.ne_nil_of_length_pos (by omega)
        rw [hplace v (hfirst v hv')] at hz
        have hne : v ≠ u := by
          rintro rfl
          exact hv' hw'
        have := places_apart (hapart v hne (by simp [hv'])) hx hz
        omega
      rw [Memory.read16_congr (hkeep x le_rfl (by omega)) (hkeep (x + 1) (by omega) le_rfl)]
      exact h.data u j w x hw hx hlast fun v hne hv => hapart v hne (by simp [hv])

/-! ### The scratch values and the report of a drain -/

/-- The scratch values of a channel with counter n and threshold m after l samples (R231, R232). -/
def tallyAfter (ard : Bool) (n m l : Nat) : Tally where
  stored := decide (n < m ∧ 1 ≤ l)
  done := groupsDone ard n m l
  dropped := decide ((ard = true ∨ m ≤ n) ∧ m < n + l)

theorem tallyAfter_zero {ard : Bool} {n m : Nat} (h : n ≤ m) : tallyAfter ard n m 0 = Tally.zero := by
  simp [tallyAfter, Tally.zero, groupsDone_zero, h]

/-- A sample that finds the buffer full is marked as dropped and nothing else. -/
theorem tallyAfter_succ_of_full {ard : Bool} {n m l : Nat} (h : n ≤ m) (hc : countAfter ard n m l = m) :
    tallyAfter ard n m (l + 1) = { tallyAfter ard n m l with dropped := true } := by
  have hdone : groupsDone ard n m (l + 1) = groupsDone ard n m l := by
    rw [groupsDone_succ h, if_neg (by simp [hc]), Nat.add_zero]
  have hstop : ard = true ∨ m ≤ n := by
    by_contra! hno
    rw [countAfter, if_neg (by simpa using hno)] at hc
    exact absurd hc (Nat.mod_lt _ (by omega)).ne
  have hfull : m ≤ n + l := by
    rw [countAfter_stop hstop] at hc
    omega
  simp only [tallyAfter, hdone, hstop, true_and, Tally.mk.injEq, decide_eq_decide, decide_eq_true_eq]
  omega

/-- A sample that is stored marks that, and the group it completes. -/
theorem tallyAfter_succ_of_room {ard : Bool} {n m l : Nat} (h : n ≤ m) (hc : countAfter ard n m l ≠ m) :
    tallyAfter ard n m (l + 1) =
      { tallyAfter ard n m l with
        stored := true
        done := if countAfter ard n m l + 1 = m then groupsDone ard n m l + 1 else groupsDone ard n m l } := by
  have hlt : n < m := by
    by_contra! hge
    rw [countAfter_stop (.inr hge)] at hc
    omega
  have hdone : groupsDone ard n m (l + 1) =
      if countAfter ard n m l + 1 = m then groupsDone ard n m l + 1 else groupsDone ard n m l := by
    rw [groupsDone_succ h]
    simp only [ne_eq, hc, not_false_eq_true, true_and]
    split_ifs <;> rfl
  have hdropped : (ard = true ∨ m ≤ n) ∧ m < n + (l + 1) ↔ (ard = true ∨ m ≤ n) ∧ m < n + l := by
    refine and_congr_right fun hstop => ?_
    rw [countAfter_stop hstop] at hc
    omega
  simp only [tallyAfter, hdone, hdropped, Tally.mk.injEq, decide_eq_true_eq, and_true]
  omega

/-- The events of a channel at the end of a drain (R234). -/
theorem tallyEvents_tallyAfter (u : Chan) (ard : Bool) (n m l : Nat) :
    tallyEvents u (tallyAfter ard n m l) = drainReport u ard n m l := by
  simp only [tallyEvents, tallyAfter, drainReport, decide_eq_true_eq]

/-- d is a drain of channel c's half of s in progress, after the words ws. -/
structure Drained (s : State) (c : Chan) (ws : List Word16) (d : Drain) : Prop where
  delivered : Delivered s d.s
  fills : Fills s (routedWords s c ws) d.s
  events : d.s.events = s.events
  demux : d.s.demuxErr = true ↔ s.demuxErr = true ∨ ∃ w ∈ ws, routedTo s c w = none
  untouched : ∀ u, routedWords s c ws u = [] → d.tally[u.val] = Tally.zero
  tally : ∀ u, fillCount s u ≤ threshold s u →
    d.tally[u.val] = tallyAfter s.actMode.ard (fillCount s u) (threshold s u) (routedWords s c ws u).length

theorem Drained.start (s : State) (c : Chan) : Drained s c [] (startDrain s) where
  delivered := .refl s
  fills := .refl s
  events := rfl
  demux := by simp [startDrain]
  untouched u _ := startDrain_tally s u
  tally u hu := (startDrain_tally s u).trans (tallyAfter_zero hu).symm

/-- A routed sample moves the scratch values of its channel as the closed form does (R232). -/
theorem Fills.route_tally {s : State} {W : Chan → List Word16} {u : Chan} {w : Word16} {d d' : Drain}
    (h : Fills s W d.s) (hd : Delivered s d.s) (hu : fillCount s u ≤ threshold s u) (hr : Machine.route u w d = .ok d')
    (ht : d.tally[u.val] = tallyAfter s.actMode.ard (fillCount s u) (threshold s u) (W u).length) :
    d'.tally[u.val] = tallyAfter s.actMode.ard (fillCount s u) (threshold s u) ((W u).length + 1) := by
  have hfull := h.full_iff hd hu
  rcases route_cases hr with ⟨hc, rfl⟩ | ⟨hc, _, rfl⟩
  · rw [tallyAfter_succ_of_full hu (hfull.1 hc), ← ht]
    simp
  · rw [tallyAfter_succ_of_room hu (mt hfull.2 hc)]
    simp only [Vector.getElem_set_self, tallyStored, h.last_iff hd hu hc, ht]
    rfl

/-- A routed sample leaves DEMUX_ERR (R232). -/
theorem route_demuxErr {u : Chan} {w : Word16} {d d' : Drain} (h : route u w d = .ok d') :
    d'.s.demuxErr = d.s.demuxErr := by
  rcases route_cases h with ⟨_, rfl⟩ | ⟨_, _, rfl⟩ <;> rfl

theorem Drained.route {s : State} {c u : Chan} {ws : List Word16} {w : Word16} {d d' : Drain}
    (h : Drained s c ws d) (hw : routedTo s c w = some u) (hu : fillCount s u ≤ threshold s u)
    (hr : route u w d = .ok d') : Drained s c (ws ++ [w]) d' := by
  have hdel : deliver c w d = .ok d' := by
    rw [deliver_of_routedTo ((h.delivered.routedTo c w).trans hw), hr]
  have hpush := routedWords_concat_routed ws hw
  refine ⟨h.delivered.trans (.route hr), hpush ▸ h.fills.route h.delivered hu hr,
    (deliver_events hdel).trans h.events, ?_, fun v hv => ?_, fun v hv => ?_⟩
  · rw [route_demuxErr hr, h.demux]
    simp [hw, or_and_right, exists_or]
  · rw [hpush] at hv
    have hne : v ≠ u := by
      rintro rfl
      simp [pushWord_same] at hv
    rw [pushWord_other _ w hne] at hv
    rw [route_tally_other hr hne, h.untouched v hv]
  · rw [hpush]
    by_cases hvu : v = u
    · subst hvu
      rw [pushWord_same, List.length_append, List.length_singleton]
      exact h.fills.route_tally h.delivered hu hr (h.tally v hu)
    · rw [pushWord_other _ w hvu, route_tally_other hr hvu, h.tally v hv]

theorem Drained.unrouted {s : State} {c : Chan} {ws : List Word16} {w : Word16} {d : Drain}
    (h : Drained s c ws d) (hw : routedTo s c w = none) :
    Drained s c (ws ++ [w]) { d with s := { d.s with demuxErr := true } } := by
  have hdel : deliver c w d = .ok { d with s := { d.s with demuxErr := true } } :=
    deliver_of_unrouted ((h.delivered.routedTo c w).trans hw)
  have hwords := routedWords_concat_unrouted ws hw
  refine ⟨h.delivered.trans (.deliver hdel), ?_, h.events, ?_, by rw [hwords]; exact h.untouched,
    by rw [hwords]; exact h.tally⟩
  · rw [hwords]
    exact ⟨h.fills.idle, h.fills.count, h.fills.frame, h.fills.data⟩
  · exact iff_of_true rfl (.inr ⟨w, by simp, hw⟩)

/-! ### A whole drain -/

/-- The channels a drain of channel c's half can reach have their receive buffers in MEM, and their counters are in
range. -/
def DrainReady (s : State) (c : Chan) : Prop :=
  ∀ u, Reaches s c u → receiveAddr s u + 2 * threshold s u ≤ 2 ^ 32 ∧ fillCount s u ≤ threshold s u

/-- They share no byte with a half of l samples at address a. -/
def HalfApart (s : State) (c : Chan) (a l : Nat) : Prop :=
  ∀ u, Reaches s c u → SamplesApart a l (receiveAddr s u) (threshold s u)

/-- A sample is routed where its receive buffer lies in MEM and its counter is in range (R232). -/
theorem route_completes {u : Chan} (w : Word16) {d : Drain}
    (hmem : (d.s.chan u).aRxAddr.toNat + 2 * (d.s.chan u).aNs.toNat ≤ 2 ^ 32)
    (hle : (d.s.chan u).count.toNat ≤ (d.s.chan u).aNs.toNat) : ∃ d', route u w d = .ok d' := by
  unfold route
  split_ifs with hc
  · exact ⟨_, rfl⟩
  · have hlt := count_lt_of_ne hc hle
    have haddr : storeAddr (d.s.chan u) + 1 < 2 ^ 32 := by
      unfold storeAddr
      omega
    rw [State.store16_of_lt _ _ haddr]
    exact ⟨_, rfl⟩

/-- One more sample of the half is delivered. -/
theorem Drained.deliver {s : State} {c : Chan} {ws : List Word16} {d : Drain} (h : Drained s c ws d)
    (hready : DrainReady s c) (w : Word16) : ∃ d', deliver c w d = .ok d' ∧ Drained s c (ws ++ [w]) d' := by
  cases hw : routedTo s c w with
  | none => exact ⟨_, deliver_of_unrouted ((h.delivered.routedTo c w).trans hw), h.unrouted hw⟩
  | some u =>
    obtain ⟨hmem, hu⟩ := hready u ⟨w, hw⟩
    rw [deliver_of_routedTo ((h.delivered.routedTo c w).trans hw)]
    have hle : (d.s.chan u).count.toNat ≤ (s.chan u).aNs.toNat := (h.fills.count u hu).le.trans countAfter_le
    rw [← h.delivered.aNs] at hle
    rw [receiveAddr, threshold, ← h.delivered.aRxAddr, ← h.delivered.aNs] at hmem
    obtain ⟨d', hr⟩ := route_completes w hmem hle
    exact ⟨d', hr, h.route hw hu hr⟩

/-- The samples k, k+1, …, L-1 of a half of L samples are delivered; where the half is apart from the receive buffers
they are its words at the start. -/
theorem Drained.drainFrom {s : State} {c : Chan} (hready : DrainReady s c) {a L : Nat} (ha : a + 2 * L ≤ 2 ^ 32)
    {left k : Nat} (hL : k + left = L) {ws : List Word16} {d : Drain} (h : Drained s c ws d) :
    ∃ vs d', drainFrom c a left k d = .ok d' ∧ Drained s c (ws ++ vs) d' ∧ vs.length = left ∧
      (HalfApart s c a L → vs = (List.range' k left).map fun i => s.mem.read16 (a + 2 * i)) := by
  induction left generalizing k ws d with
  | zero => exact ⟨[], d, rfl, by rwa [List.append_nil], rfl, fun _ => rfl⟩
  | succ n ih =>
    obtain ⟨e, hdel, he⟩ := h.deliver hready (d.s.mem.read16 (a + 2 * k))
    obtain ⟨vs, d', hrest, hd', hlen, hvs⟩ := ih (k := k + 1) (by omega) he
    refine ⟨d.s.mem.read16 (a + 2 * k) :: vs, d', ?_, ?_, by rw [List.length_cons, hlen], fun hapart => ?_⟩
    · unfold Machine.drainFrom
      rw [State.load16_of_lt _ (by omega)]
      simp only [hdel, hrest]
    · rwa [List.append_cons]
    · rw [hvs hapart, h.fills.read16_of_apart (show k < L by omega) fun u hu => hapart u (reaches_of_routedWords hu)]
      rfl

/-- Sample k of half h of channel c (R84). -/
def halfWord (s : State) (c : Chan) (h : Half) (k : Nat) : Word16 := s.mem.read16 ((halfAddr s c h).toNat + 2 * k)

/-- Half h of channel c lies in MEM. -/
def HalfInMemory (s : State) (c : Chan) (h : Half) : Prop :=
  (halfAddr s c h).toNat + 2 * (halfLen s c h).toNat ≤ 2 ^ 32

/-- A drain delivers as many words as its half holds: the words of the half, where it is apart (R231). -/
theorem drain_drained {s : State} {c : Chan} {h : Half} (hready : DrainReady s c) (hhalf : HalfInMemory s c h) :
    ∃ ws d, drain c h s = .ok (d.s.emitAll (drainEvents d)) ∧ Drained s c ws d ∧ ws.length = (halfLen s c h).toNat ∧
      (HalfApart s c (halfAddr s c h).toNat (halfLen s c h).toNat →
        ws = (List.range (halfLen s c h).toNat).map (halfWord s c h)) := by
  obtain ⟨ws, d, hfrom, hd, hlen, hws⟩ :=
    Drained.drainFrom hready hhalf (Nat.zero_add _) (Drained.start s c)
  rw [List.nil_append] at hd
  refine ⟨ws, d, ?_, hd, hlen, fun hapart => ?_⟩
  · rw [drain, hfrom]
  · rw [hws hapart, List.range_eq_range']
    rfl

/-- A report over all channels is one over those that report. -/
theorem flatMap_filter_of_nil {l : List Chan} {P : Chan → Prop} [DecidablePred P] {f : Chan → List Event}
    (h : ∀ u ∈ l, ¬ P u → f u = []) : l.flatMap f = (l.filter fun u => decide (P u)).flatMap f := by
  induction l with
  | nil => rfl
  | cons u l ih =>
    obtain ⟨hu, hl⟩ := List.forall_mem_cons.1 h
    rw [List.flatMap_cons, ih hl]
    by_cases hP : P u
    · simp [hP]
    · simp [hP, hu hP]

/-- The report of a drain: the channels it may reach in ascending order, each in closed form (R234). -/
theorem Drained.drainEvents {s : State} {c : Chan} {ws : List Word16} {d : Drain} (h : Drained s c ws d)
    {l : List Chan} {P : Chan → Prop} (hl : AscendingList l P) (hreach : ∀ u, Reaches s c u → P u)
    (hcount : ∀ u, P u → fillCount s u ≤ threshold s u) :
    drainEvents d = l.flatMap fun u =>
      drainReport u s.actMode.ard (fillCount s u) (threshold s u) (routedWords s c ws u).length := by
  classical
  have hfilter : l = allChans.filter fun u => decide (P u) :=
    hl.unique ⟨pairwise_allChans.filter _, fun u => by simp⟩
  rw [Machine.drainEvents, flatMap_filter_of_nil (P := P) fun u _ hu => ?_, ← hfilter]
  · obtain ⟨_, hmem⟩ := hl
    refine List.flatMap_congr fun u hu => ?_
    rw [h.tally u (hcount u ((hmem u).1 hu)), tallyEvents_tallyAfter]
  · have hnil : routedWords s c ws u = [] := by_contra fun hne => hu (hreach u (reaches_of_routedWords hne))
    rw [h.untouched u hnil, tallyEvents_zero]

end Sys2Proof.Machine
end

section
/-! PROOFS. The SERVICE family, third part: the deliveries of the per-channel variant, channel by channel, and of the
ring (R231 to R234), with the four statements about them. -/

namespace Sys2Proof.Machine

/-! ### Several halves, in the per-channel variant -/

/-- Half x.2 of channel x.1 and that channel's receive buffer lie in MEM, and its counter is in range. -/
structure OwnReady (s : State) (x : Chan × Half) : Prop where
  half : HalfInMemory s x.1 x.2
  receive : receiveAddr s x.1 + 2 * threshold s x.1 ≤ 2 ^ 32
  count : fillCount s x.1 ≤ threshold s x.1

/-- t is s after the listed halves have been delivered, each channel u given the words W u. -/
structure OwnDelivery (s : State) (l : List (Chan × Half)) (W : Chan → List Word16) (t : State) : Prop where
  fills : Fills s W t
  untouched : ∀ c, c ∉ l.map Prod.fst → W c = []
  length : ∀ x ∈ l, (W x.1).length = (halfLen s x.1 x.2).toNat
  words : (∀ x ∈ l, ∀ y ∈ l, SamplesApart (halfAddr s x.1 x.2).toNat (halfLen s x.1 x.2).toNat
      (receiveAddr s y.1) (threshold s y.1)) →
    ∀ x ∈ l, W x.1 = (List.range (halfLen s x.1 x.2).toNat).map (halfWord s x.1 x.2)
  demux : t.demuxErr = s.demuxErr
  events : t.events = s.events ++ l.flatMap fun x =>
    drainReport x.1 s.actMode.ard (fillCount s x.1) (threshold s x.1) (halfLen s x.1 x.2).toNat

theorem OwnDelivery.refl (s : State) : OwnDelivery s [] (fun _ => []) s where
  fills := .refl s
  untouched _ _ := rfl
  length x hx := absurd hx List.not_mem_nil
  words _ x hx := absurd hx List.not_mem_nil
  demux := rfl
  events := by simp

/-- One half in the per-channel variant. -/
theorem OwnReady.drain {s : State} {x : Chan × Half} (h : OwnReady s x) (hshared : s.actMode.shared = false) :
    ∃ ws t, drain x.1 x.2 s = .ok t ∧ OwnDelivery s [x] (routedWords s x.1 ws) t := by
  have hready : DrainReady s x.1 := fun u hu => by
    rw [(reaches_own hshared).1 hu]
    exact ⟨h.receive, h.count⟩
  obtain ⟨ws, d, hdrain, hd, hlen, hws⟩ := drain_drained hready h.half
  refine ⟨ws, _, hdrain, ?_, fun c hc => ?_, fun y hy => ?_, fun hapart y hy => ?_, ?_, ?_⟩
  · exact ⟨hd.fills.idle, hd.fills.count, hd.fills.frame, hd.fills.data⟩
  · exact routedWords_own_other hshared (by simpa using hc) ws
  · obtain rfl := List.mem_singleton.1 hy
    rw [routedWords_own hshared, hlen]
  · obtain rfl := List.mem_singleton.1 hy
    rw [routedWords_own hshared]
    exact hws fun u hu => (reaches_own hshared).1 hu ▸ hapart y hy y hy
  · have hdemux := hd.demux
    simp only [routedTo_own hshared, reduceCtorEq, and_false, exists_false, or_false] at hdemux
    exact Bool.eq_iff_iff.2 hdemux
  · have hasc : AscendingList [x.1] (· = x.1) := ⟨by simp, fun u => by simp⟩
    rw [State.emitAll_events, hd.events,
      hd.drainEvents hasc (fun u => (reaches_own hshared).1) fun u hu => hu ▸ h.count]
    simp only [List.flatMap_cons, List.flatMap_nil, routedWords_own hshared, hlen]

/-- Different channels' halves are delivered independently. -/
theorem OwnDelivery.cons {s u t : State} {x : Chan × Half} {l : List (Chan × Half)} {V W : Chan → List Word16}
    (h : OwnDelivery s [x] V u) (hd : Delivered s u) (hx : x.1 ∉ l.map Prod.fst) (h' : OwnDelivery u l W t) :
    OwnDelivery s (x :: l) (fun c => V c ++ W c) t := by
  have hother {c : Chan} (hc : c ≠ x.1) : V c = [] := h.untouched c (by simpa using hc)
  have hlater {y : Chan × Half} (hy : y ∈ l) : V y.1 = [] :=
    hother fun he => hx (he ▸ List.mem_map_of_mem hy)
  have hrx (c : Chan) : receiveAddr u c = receiveAddr s c := congrArg BitVec.toNat (hd.aRxAddr c)
  have hns (c : Chan) : threshold u c = threshold s c := congrArg BitVec.toNat (hd.aNs c)
  have hcount {y : Chan × Half} (hy : y ∈ l) : fillCount u y.1 = fillCount s y.1 :=
    congrArg BitVec.toNat (h.fills.idle y.1 (hlater hy))
  have hW : W x.1 = [] := h'.untouched x.1 hx
  refine ⟨h.fills.trans hd h'.fills fun c => ?_, fun c hc => ?_, fun y hy => ?_, fun hapart y hy => ?_,
    h'.demux.trans h.demux, ?_⟩
  · by_cases hc : c = x.1
    · exact .inr (hc ▸ hW)
    · exact .inl (hother hc)
  · rw [List.map_cons, List.mem_cons, not_or] at hc
    obtain ⟨hcx, hcl⟩ := hc
    rw [hother hcx, h'.untouched c hcl, List.nil_append]
  · rcases List.mem_cons.1 hy with rfl | hy
    · rw [hW, List.append_nil, h.length y (List.mem_singleton_self y)]
    · rw [hlater hy, List.nil_append, h'.length y hy, hd.halfLen]
  · rcases List.mem_cons.1 hy with rfl | hy
    · rw [hW, List.append_nil]
      refine h.words (fun a ha b hb => ?_) y (List.mem_singleton_self y)
      rw [List.mem_singleton.1 ha, List.mem_singleton.1 hb]
      exact hapart y List.mem_cons_self y List.mem_cons_self
    · have hwords := h'.words (fun a ha b hb => by
        rw [hd.halfAddr, hd.halfLen, hrx, hns]
        exact hapart a (List.mem_cons_of_mem _ ha) b (List.mem_cons_of_mem _ hb)) y hy
      rw [hlater hy, List.nil_append, hwords, hd.halfLen]
      refine List.map_congr_left fun k hk => ?_
      rw [halfWord, hd.halfAddr]
      refine h.fills.read16_of_apart (List.mem_range.1 hk) fun c hc => ?_
      obtain rfl : c = x.1 := by_contra fun hne => hc (hother hne)
      exact hapart y (List.mem_cons_of_mem _ hy) x List.mem_cons_self
  · rw [h'.events, h.events, List.flatMap_singleton, List.flatMap_cons, List.append_assoc]
    congr 2
    refine List.flatMap_congr fun y hy => ?_
    rw [hd.actMode, hcount hy, hns, hd.halfLen]

/-- The halves of different channels are all delivered (R230, phase B). -/
theorem exists_ownDelivery {l : List (Chan × Half)} {s : State} (hshared : s.actMode.shared = false)
    (hl : (l.map Prod.fst).Nodup) (hready : ∀ x ∈ l, OwnReady s x) :
    ∃ t W, deliverAll l s = .ok t ∧ OwnDelivery s l W t := by
  induction l generalizing s with
  | nil => exact ⟨s, _, rfl, .refl s⟩
  | cons x l ih =>
    obtain ⟨hx, hl⟩ := List.nodup_cons.1 hl
    obtain ⟨hxr, hlr⟩ := List.forall_mem_cons.1 hready
    obtain ⟨ws, u, hdrain, hu⟩ := hxr.drain hshared
    have hd := Delivered.drain hdrain
    have hready' : ∀ y ∈ l, OwnReady u y := by
      intro y hy
      obtain ⟨hhalf, hrec, hcount⟩ := hlr y hy
      have hne : y.1 ≠ x.1 := fun he => hx (he ▸ List.mem_map_of_mem hy)
      refine ⟨?_, ?_, ?_⟩
      · rwa [HalfInMemory, hd.halfAddr, hd.halfLen]
      · rwa [receiveAddr, threshold, hd.aRxAddr, hd.aNs]
      · rwa [fillCount, threshold, hd.aNs, hu.fills.idle _ (routedWords_own_other hshared hne ws)]
    obtain ⟨t, W, hrest, ht⟩ := ih (hd.actMode ▸ hshared) hl hready'
    exact ⟨t, _, by rw [deliverAll, hdrain]; exact hrest, hu.cons hd hx ht⟩

/-! ### SERVICE in the per-channel variant -/

theorem fillCount_serviceSwapped (s : State) (u : Chan) : fillCount (serviceSwapped s) u = fillCount s u :=
  congrArg BitVec.toNat (count_serviceSwapped s u)

theorem threshold_serviceSwapped (s : State) (u : Chan) : threshold (serviceSwapped s) u = threshold s u :=
  congrArg BitVec.toNat (aNs_serviceSwapped s u)

theorem receiveAddr_serviceSwapped (s : State) (u : Chan) : receiveAddr (serviceSwapped s) u = receiveAddr s u :=
  congrArg BitVec.toNat (aRxAddr_serviceSwapped s u)

theorem sampleAddr_serviceSwapped (s : State) (u : Chan) : sampleAddr (serviceSwapped s) u = sampleAddr s u := by
  funext j
  rw [sampleAddr, actMode_serviceSwapped, fillCount_serviceSwapped, threshold_serviceSwapped,
    receiveAddr_serviceSwapped, sampleAddr]

theorem applyCal_serviceSwapped (s : State) (w : Word16) (d : Bool) :
    applyCal (serviceSwapped s) w d = applyCal s w d := by
  rw [serviceSwapped_eq]
  rfl

/-- The half a channel drains holds the words its active half held at entry. -/
theorem halfWord_serviceSwapped (s : State) (c : Chan) :
    halfWord (serviceSwapped s) c (s.chan c).half = filledWord s c := by
  funext k
  rw [halfWord, serviceSwapped_mem, halfAddr_serviceSwapped]
  rfl

/-- The phases E and A move nothing a delivery reads or moves but the active halves. -/
theorem Fills.of_serviceSwapped {s t : State} {W : Chan → List Word16} (h : Fills (serviceSwapped s) W t) :
    Fills s W t where
  idle u hu := (h.idle u hu).trans (count_serviceSwapped s u)
  count u hu := by
    have hc := h.count u
    rw [fillCount_serviceSwapped, threshold_serviceSwapped, actMode_serviceSwapped] at hc
    exact hc hu
  frame y hy := by
    rw [h.frame y fun u j x hj hx => hy u j x hj (by rwa [sampleAddr_serviceSwapped] at hx), serviceSwapped_mem]
  data u j w x hw hx hlast hapart := by
    rw [h.data u j w x hw (by rwa [sampleAddr_serviceSwapped])
      (fun j' hj hl => by rw [sampleAddr_serviceSwapped]; exact hlast j' hj hl) fun v hv hne => ?_,
      applyCal_serviceSwapped, aDiff_serviceSwapped]
    rw [receiveAddr_serviceSwapped, threshold_serviceSwapped, receiveAddr_serviceSwapped, threshold_serviceSwapped]
    exact hapart v hv hne

/-- What the state after a SERVICE of the per-channel variant is, in the terms of the state before it. -/
structure OwnService (s : State) (W : Chan → List Word16) (t : State) : Prop where
  fills : Fills s W t
  untouched : ∀ c, ¬ SignalsFull s c → W c = []
  length : ∀ c, SignalsFull s c → (W c).length = filledLen s c
  words : (∀ c d, SignalsFull s c → SignalsFull s d →
      SamplesApart (filledAddr s c) (filledLen s c) (receiveAddr s d) (threshold s d)) →
    ∀ c, SignalsFull s c → W c = (List.range (filledLen s c)).map (filledWord s c)
  others : ∀ d, ¬ SignalsFull s d → t.chan d = s.chan d
  demux : t.demuxErr = s.demuxErr
  events : ∀ full errs, AscendingList full (SignalsFull s) → AscendingList errs (SignalsError s) →
    t.events = s.events ++ errs.map (fun d => ⟨d, .transferError⟩) ++
      full.flatMap fun c => drainReport c s.actMode.ard (fillCount s c) (threshold s c) (filledLen s c)

/-- The halves SERVICE drains are ready where the channels' own buffers are. -/
theorem ownReady_serviceSwapped {s : State}
    (h : ∀ c, SignalsFull s c → filledAddr s c + 2 * filledLen s c ≤ 2 ^ 32 ∧
      receiveAddr s c + 2 * threshold s c ≤ 2 ^ 32 ∧ fillCount s c ≤ threshold s c) :
    ∀ x ∈ justFilled s, OwnReady (serviceSwapped s) x := by
  intro x hx
  obtain ⟨hc, hhalf⟩ := mem_justFilled.1 hx
  obtain ⟨hmem, hrec, hcount⟩ := h x.1 hc
  refine ⟨?_, ?_, ?_⟩
  · rwa [HalfInMemory, halfAddr_serviceSwapped, halfLen_serviceSwapped, hhalf]
  · rwa [receiveAddr_serviceSwapped, threshold_serviceSwapped]
  · rwa [fillCount_serviceSwapped, threshold_serviceSwapped]

/-- SERVICE in the per-channel variant delivers the words of the halves of S (R230 to R234). -/
theorem exists_ownService {s : State} (hrun : s.st = .running) (hshared : s.actMode.shared = false)
    (hfull : ∃ d, SignalsFull s d)
    (h : ∀ c, SignalsFull s c → filledAddr s c + 2 * filledLen s c ≤ 2 ^ 32 ∧
      receiveAddr s c + 2 * threshold s c ≤ 2 ^ 32 ∧ fillCount s c ≤ threshold s c) :
    ∃ t W, exec .svc s = .next t ∧ OwnService s W t := by
  have hnodup : ((justFilled s).map Prod.fst).Nodup := map_fst_justFilled s ▸ nodup_pendingFull s
  obtain ⟨t, W, hdel, ht⟩ :=
    exists_ownDelivery ((actMode_serviceSwapped s).symm ▸ hshared) hnodup (ownReady_serviceSwapped h)
  have hmem {c : Chan} (hc : SignalsFull s c) : (c, (s.chan c).half) ∈ justFilled s := mem_justFilled.2 ⟨hc, rfl⟩
  have hexec : exec .svc s = .next t := exec_svc_eq hrun (irqLine_of_signalsFull hfull) hdel
  have hnone (c : Chan) (hc : ¬ SignalsFull s c) : W c = [] := by
    refine ht.untouched c ?_
    rw [map_fst_justFilled]
    exact mt mem_pendingFull.1 hc
  refine ⟨t, W, hexec, ht.fills.of_serviceSwapped, hnone, fun c hc => ?_, fun hapart c hc => ?_, fun c hc => ?_, ?_,
    fun full errs hf he => ?_⟩
  · rw [ht.length _ (hmem hc), halfLen_serviceSwapped]
    rfl
  · rw [ht.words (fun x hx y hy => ?_) _ (hmem hc), halfWord_serviceSwapped, halfLen_serviceSwapped]
    · rfl
    · obtain ⟨hcx, hhx⟩ := mem_justFilled.1 hx
      obtain ⟨hcy, _⟩ := mem_justFilled.1 hy
      rw [halfAddr_serviceSwapped, halfLen_serviceSwapped, receiveAddr_serviceSwapped, threshold_serviceSwapped, hhx]
      exact hapart x.1 y.1 hcx hcy
  · obtain ⟨_, _, _, hother, _⟩ := serviceSwapsAndRearms s t hexec
    rw [hother c hc, ht.fills.of_serviceSwapped.idle c (hnone c hc)]
  · rw [ht.demux, serviceSwapped_eq]
  · obtain rfl := hf.unique (ascendingList_pendingFull s)
    obtain rfl := he.unique (ascendingList_pendingErr s)
    rw [ht.events, justFilled, List.flatMap_map, actMode_serviceSwapped]
    simp only [fillCount_serviceSwapped, threshold_serviceSwapped, halfLen_serviceSwapped]
    rw [serviceSwapped_eq]
    rfl

/-- Settles O31: the counters, places and words of `OwnService` on the words of the halves. -/
theorem serviceDeliversCalibratedSamples : Obligations.ServiceDeliversCalibratedSamples := by
  intro s hrun hshared hfull hready hhalves hbuffers
  obtain ⟨t, W, hexec, ht⟩ := exists_ownService hrun hshared hfull hready
  have hsignals {v : Chan} (hv : W v ≠ []) : SignalsFull s v := by_contra fun h => hv (ht.untouched v h)
  refine ⟨t, hexec, fun c k x hc hk hx hlast => ?_, fun y hy => ht.fills.frame y fun c j x hj hx => ?_,
    fun c hc => ?_, ht.others, ht.demux, ht.events⟩
  · refine ht.fills.data c k _ x ?_ hx (by rwa [ht.length c hc]) fun v hne hv => hbuffers c v hc (hsignals hv) hne.symm
    rw [ht.words hhalves c hc]
    simp [hk]
  · have hc := hsignals (List.ne_nil_of_length_pos (Nat.zero_lt_of_lt hj))
    rw [ht.length c hc] at hj
    exact hy c j x hc hj hx
  · obtain ⟨_, _, hcount⟩ := hready c hc
    rw [ht.fills.count c hcount, ht.length c hc]

/-- The buffers of a signalling channel lie in MEM. -/
theorem BuffersInMemory.ready {s : State} (h : BuffersInMemory s) (c : Chan) (hc : SignalsFull s c) :
    filledAddr s c + 2 * filledLen s c ≤ 2 ^ 32 ∧ receiveAddr s c + 2 * threshold s c ≤ 2 ^ 32 ∧
      fillCount s c ≤ threshold s c := by
  obtain ⟨hirq, _⟩ := hc
  exact ⟨h.halves c _ hirq, h.receive c (.inr hirq), h.counts c⟩

/-- With auto-reset and room for a sample none is dropped (R232, R234). -/
theorem drainReport_auto (t : Chan) {n m : Nat} (l : Nat) (h : n < m) :
    drainReport t false n m l =
      (if 1 ≤ l then [⟨t, .dataReady⟩] else []) ++ List.replicate ((n + l) / m) ⟨t, .sampleGroupComplete⟩ := by
  simp [drainReport, groupsDone, h, h.not_ge]

/-- Settles O32: the closed forms of the counter and the report below the threshold. -/
theorem autoResetCompletesWholeGroups : Obligations.AutoResetCompletesWholeGroups := by
  intro s hrun hshared hard hfull hb hroom
  obtain ⟨t, W, hexec, ht⟩ := exists_ownService hrun hshared hfull hb.ready
  refine ⟨t, hexec, fun c hc => ?_, ht.others, fun full errs hf he => ?_⟩
  · rw [ht.fills.count c (hb.counts c), ht.length c hc, hard, countAfter_auto (hroom c hc)]
  · have hsignals (c : Chan) (hc : c ∈ full) : SignalsFull s c := (hf.right c).1 hc
    rw [ht.events full errs hf he, hard, List.flatMap_congr fun c hc => drainReport_auto c _ (hroom c (hsignals c hc))]

/-- Without auto-reset the group completes when the counter reaches the threshold, and what follows is dropped. -/
theorem drainReport_stop (t : Chan) {n m : Nat} (l : Nat) (h : n ≤ m) :
    drainReport t true n m l =
      (if n < m ∧ 1 ≤ l then [⟨t, .dataReady⟩] else []) ++
      (if n < m ∧ m ≤ n + l then [⟨t, .sampleGroupComplete⟩] else []) ++
      (if m < n + l then [⟨t, .bufferFull⟩] else []) := by
  rcases h.lt_or_eq with hlt | rfl
  · by_cases hl : m ≤ n + l <;> simp [drainReport, groupsDone, hlt, hlt.not_ge, hl]
  · simp [drainReport, groupsDone]

/-- Without auto-reset the places are the free ones, in order. -/
theorem sampleAddr_stop {s : State} (h : s.actMode.ard = true) (u : Chan) (j : Nat) :
    sampleAddr s u j =
      if fillCount s u + j < threshold s u then some (receiveAddr s u + 2 * (fillCount s u + j)) else none := by
  rw [sampleAddr, samplePlace, if_pos h]
  split_ifs <;> rfl

/-- So no later sample takes the place of an earlier one. -/
theorem lastThere_stop {s : State} (h : s.actMode.ard = true) {u : Chan} {l j : Nat}
    (hj : fillCount s u + j < threshold s u) : LastThere s u l j := by
  intro j' hlt _
  rw [sampleAddr_stop h, sampleAddr_stop h, if_pos hj]
  split_ifs
  · rw [ne_eq, Option.some_inj]
    omega
  · simp

/-- Settles O33: the closed forms with A_ARD = 1, where every sample that is stored stays. -/
theorem fullReceiveBuffersDropSamples : Obligations.FullReceiveBuffersDropSamples := by
  intro s hrun hshared hard hfull hb
  obtain ⟨t, W, hexec, ht⟩ := exists_ownService hrun hshared hfull hb.ready
  have hsignals {v : Chan} (hv : W v ≠ []) : SignalsFull s v := by_contra fun h => hv (ht.untouched v h)
  refine ⟨t, hexec, fun c hc => ?_, ht.others, fun y hy => ht.fills.frame y fun c j x hj hx => ?_,
    fun hapart c k hc hk hroom => ?_, fun full errs hf he => ?_⟩
  · rw [ht.fills.count c (hb.counts c), ht.length c hc, countAfter_stop (.inl hard)]
  · have hc := hsignals (List.ne_nil_of_length_pos (Nat.zero_lt_of_lt hj))
    have hout := hy c hc
    rw [ht.length c hc] at hj
    rw [sampleAddr_stop hard] at hx
    split_ifs at hx with hroom
    obtain rfl := Option.some.inj hx
    omega
  · refine ht.fills.data c k _ _ ?_ (by rw [sampleAddr_stop hard, if_pos hroom]) (lastThere_stop hard hroom)
      fun v hne hv => (hapart c v hc (hsignals hv)).right hne.symm
    rw [ht.words (fun a b ha hb => (hapart a b ha hb).left) c hc]
    simp [hk]
  · have hcount (c : Chan) : fillCount s c ≤ threshold s c := hb.counts c
    rw [ht.events full errs hf he, hard, List.flatMap_congr fun c _ => drainReport_stop c _ (hcount c)]

/-! ### SERVICE in the shared ring -/

/-- The channel id is bits 15:12 (R115). -/
theorem sampleChan_val (w : Word16) : (sampleChan w).val = w.toNat / 4096 := by
  have hw := w.isLt
  have hid : (sampleChan w).val = w.toNat >>> 12 % 2 ^ 4 := BitVec.extractLsb'_toNat 12 4 w
  rw [hid, Nat.shiftRight_eq_div_pow]
  omega

/-- The words a drain of the ring gives to an enabled channel are those that carry its id, in order (R233). -/
theorem routedWords_ring {s : State} (h : s.actMode.shared = true) {u : Chan} (hu : Enabled s u) :
    routedWords s 0 ((List.range (filledLen s 0)).map (filledWord s 0)) u =
      (ringSamples s u).map (filledWord s 0) := by
  rw [routedWords, List.filter_map, ringSamples]
  congr 2
  funext k
  simp [routedTo_ring h, hu, Fin.ext_iff, sampleChan_val]

theorem routedWords_ring_of_not_enabled {s : State} (h : s.actMode.shared = true) {c u : Chan} (hu : ¬ Enabled s u)
    (ws : List Word16) : routedWords s c ws u = [] :=
  by_contra fun hne => hu ((reaches_of_routedWords hne).enabled h)

theorem routedTo_serviceSwapped (s : State) (c : Chan) (w : Word16) :
    routedTo (serviceSwapped s) c w = routedTo s c w := by
  rw [routedTo, State.activeN, actMode_serviceSwapped, routedTo, State.activeN]

theorem routedWords_serviceSwapped (s : State) (c : Chan) (ws : List Word16) :
    routedWords (serviceSwapped s) c ws = routedWords s c ws := by
  funext u
  simp only [routedWords, routedTo_serviceSwapped]

theorem reaches_serviceSwapped (s : State) (c u : Chan) : Reaches (serviceSwapped s) c u ↔ Reaches s c u := by
  simp only [Reaches, routedTo_serviceSwapped]

/-- The words of the ring's active half. -/
def ringHalfWords (s : State) : List Word16 := (List.range (filledLen s 0)).map (filledWord s 0)

/-- What the state after a SERVICE of the ring is, in the terms of the state before it. -/
structure RingService (s t : State) : Prop where
  fills : Fills s (routedWords s 0 (ringHalfWords s)) t
  demux : t.demuxErr = true ↔ s.demuxErr = true ∨ ∃ w ∈ ringHalfWords s, routedTo s 0 w = none
  events : ∀ marked errs, AscendingList marked (Enabled s) → AscendingList errs (SignalsError s) →
    t.events = s.events ++ errs.map (fun d => ⟨d, .transferError⟩) ++
      marked.flatMap fun u => drainReport u s.actMode.ard (fillCount s u) (threshold s u)
        (routedWords s 0 (ringHalfWords s) u).length

/-- SERVICE in the shared variant delivers the words of the ring's half by their ids (R233). -/
theorem exists_ringService {s : State} (hrun : s.st = .running) (hshared : s.actMode.shared = true)
    (hfull : ∀ d, SignalsFull s d ↔ d = 0) (hb : BuffersInMemory s)
    (hapart : ∀ u, Enabled s u →
      SamplesApart (filledAddr s 0) (filledLen s 0) (receiveAddr s u) (threshold s u)) :
    ∃ t, exec .svc s = .next t ∧ RingService s t := by
  have hzero : SignalsFull s 0 := (hfull 0).2 rfl
  have hpending : pendingFull s = [0] :=
    (ascendingList_pendingFull s).unique ⟨List.pairwise_singleton _ _, fun d => by simp [hfull]⟩
  have hreach (u : Chan) (hu : Reaches (serviceSwapped s) 0 u) : Enabled s u :=
    ((reaches_serviceSwapped s 0 u).1 hu).enabled hshared
  have hready : DrainReady (serviceSwapped s) 0 := fun u hu => by
    rw [receiveAddr_serviceSwapped, threshold_serviceSwapped, fillCount_serviceSwapped]
    exact ⟨hb.receive u (.inl (hreach u hu)), hb.counts u⟩
  have hhalf : HalfInMemory (serviceSwapped s) 0 (s.chan 0).half := by
    rw [HalfInMemory, halfAddr_serviceSwapped, halfLen_serviceSwapped]
    exact hb.halves 0 _ hzero.left
  obtain ⟨ws, d, hdrain, hd, _, hws⟩ := drain_drained hready hhalf
  obtain rfl : ws = ringHalfWords s := by
    rw [hws fun u hu => ?_, halfWord_serviceSwapped, halfLen_serviceSwapped]
    · rfl
    · rw [halfAddr_serviceSwapped, halfLen_serviceSwapped, receiveAddr_serviceSwapped, threshold_serviceSwapped]
      exact hapart u (hreach u hu)
  have hdel : deliverAll (justFilled s) (serviceSwapped s) = .ok (d.s.emitAll (drainEvents d)) := by
    rw [justFilled, hpending, List.map_cons, deliverAll, hdrain]
    rfl
  refine ⟨_, exec_svc_eq hrun (irqLine_of_signalsFull ⟨0, hzero⟩) hdel, ?_, ?_, fun marked errs hm he => ?_⟩
  · have hfills := hd.fills.of_serviceSwapped
    rw [routedWords_serviceSwapped] at hfills
    exact ⟨hfills.idle, hfills.count, hfills.frame, hfills.data⟩
  · have hdemux := hd.demux
    simp only [routedTo_serviceSwapped] at hdemux
    rw [serviceSwapped_eq] at hdemux
    exact hdemux
  · obtain rfl := he.unique (ascendingList_pendingErr s)
    have hreport := hd.drainEvents hm hreach fun u _ => by
      rw [fillCount_serviceSwapped, threshold_serviceSwapped]
      exact hb.counts u
    simp only [actMode_serviceSwapped, fillCount_serviceSwapped, threshold_serviceSwapped,
      routedWords_serviceSwapped] at hreport
    rw [State.emitAll_events, hd.events, hreport, serviceSwapped_eq]

/-- Settles O34: the words routed to an enabled channel are its `ringSamples`. -/
theorem ringSamplesGoByTheirId : Obligations.RingSamplesGoByTheirId := by
  intro s hrun hshared hfull hb hapart
  obtain ⟨t, hexec, ht⟩ := exists_ringService hrun hshared hfull hb hapart
  have hwords {u : Chan} (hu : Enabled s u) :
      routedWords s 0 (ringHalfWords s) u = (ringSamples s u).map (filledWord s 0) := routedWords_ring hshared hu
  have hlen {u : Chan} (hu : Enabled s u) :
      (routedWords s 0 (ringHalfWords s) u).length = (ringSamples s u).length := by rw [hwords hu, List.length_map]
  have henabled {u : Chan} (hu : routedWords s 0 (ringHalfWords s) u ≠ []) : Enabled s u :=
    (reaches_of_routedWords hu).enabled hshared
  refine ⟨t, hexec, ?_, fun u hu => ?_, fun u hu => ?_, fun y hy => ht.fills.frame y fun u j x hj hx => ?_,
    fun hbuffers u j k x hu hk hx hlast => ?_, fun marked errs hm he => ?_⟩
  · rw [ht.demux]
    simp [ringHalfWords, routedTo_ring_eq_none hshared, sampleChan_val]
  · rw [ht.fills.count u (hb.counts u), hlen hu]
  · exact congrArg BitVec.toNat (ht.fills.idle u (routedWords_ring_of_not_enabled hshared hu _))
  · have hu := henabled (List.ne_nil_of_length_pos (Nat.zero_lt_of_lt hj))
    exact hy u j x hu (hlen hu ▸ hj) hx
  · refine ht.fills.data u j _ x ?_ hx ((hlen hu).symm ▸ hlast) fun v hne hv => hbuffers u v hu (henabled hv) hne.symm
    rw [hwords hu, List.getElem?_map, hk]
    rfl
  · rw [ht.events marked errs hm he, List.flatMap_congr fun u hu => by rw [hlen ((hm.right u).1 hu)]]

end Sys2Proof.Machine
end

section
/-! PROOFS. The host access family: the register map as an inverse pair (R22, R23), the words of the registers as sums
of their fields (R261), and a write as the AND of the written word with the register's defined bits (R124, R260). -/

namespace Sys2Proof.Machine

/-! ### The register map (R22, R23, R262) -/

/-- R22: where a global register stands, counted in words. -/
def globalIndex : GlobalReg → Nat
  | .cmd => 0 | .status => 1 | .result => 2 | .baseClk => 3 | .mode => 4 | .onCycles => 5 | .totalCycles => 6
  | .irqStatus => 7 | .irqMask => 8 | .errStatus => 9 | .fault => 10 | .actBaseClk => 11 | .actMode => 12
  | .chEnable => 13 | .calSeOffset => 16 | .calSeGain => 17 | .calDiffOffset => 18 | .calDiffGain => 19

/-- R23: where a register stands inside its bank, counted in words. -/
def bankIndex : BankReg → Nat
  | .reqRate => 0 | .reqCfg => 1 | .pingAddr => 2 | .pongAddr => 3 | .pingLen => 4 | .pongLen => 5 | .rxAddr => 6
  | .sched => 7 | .achRate => 8 | .fill => 9 | .actPingAddr => 10 | .actPongAddr => 11 | .actLen => 12
  | .actRxAddr => 13 | .actCfg => 14

/-- The byte offset of a register. -/
def regOffset : Reg → Nat
  | .glob g => 4 * globalIndex g
  | .bank i r => 0x100 + 0x40 * i.val + 4 * bankIndex r

theorem globalAt_eq_some {w : Nat} {g : GlobalReg} : globalAt w = some g ↔ w = globalIndex g := by
  constructor
  · intro h
    unfold globalAt at h
    split at h <;> cases h <;> rfl
  · rintro rfl
    cases g <;> rfl

theorem bankAt_eq_some {w : Nat} {r : BankReg} : bankAt w = some r ↔ w = bankIndex r := by
  constructor
  · intro h
    unfold bankAt at h
    split at h <;> cases h <;> rfl
  · rintro rfl
    cases r <;> rfl

/-- The global registers end at 0x04C, with a gap of two words after CH_ENABLE. -/
theorem globalIndex_bounds (g : GlobalReg) : globalIndex g < 20 ∧ globalIndex g ≠ 14 ∧ globalIndex g ≠ 15 := by
  cases g <;> decide

/-- The last word of a bank is reserved. -/
theorem bankIndex_lt (r : BankReg) : bankIndex r < 15 := by
  cases r <;> decide

theorem regAt_regOffset (r : Reg) : regAt (regOffset r) = some r := by
  cases r with
  | glob g => cases g <;> rfl
  | bank i r =>
    have hi := i.isLt
    have hr := bankIndex_lt r
    have hbank : (regOffset (.bank i r) - 0x100) / 0x40 = i.val := by simp only [regOffset]; omega
    have hword : (regOffset (.bank i r) - 0x100) % 0x40 / 4 = bankIndex r := by simp only [regOffset]; omega
    have haligned : ¬ regOffset (.bank i r) % 4 ≠ 0 := by simp only [regOffset]; omega
    have hhigh : ¬ regOffset (.bank i r) < 0x100 := by simp only [regOffset]; omega
    simp only [regAt, if_neg haligned, if_neg hhigh, hbank, hword, dif_pos hi, bankAt_eq_some.2 rfl, Option.map_some]

/-- Every register has one offset, and the map finds it there and nowhere else. -/
theorem regAt_eq_some {o : Nat} {r : Reg} : regAt o = some r ↔ o = regOffset r := by
  constructor
  · intro h
    unfold regAt at h
    split_ifs at h with haligned hlow hbank
    · obtain ⟨g, hg, rfl⟩ := Option.map_eq_some_iff.1 h
      have hw := globalAt_eq_some.1 hg
      simp only [regOffset]
      omega
    · obtain ⟨r, hr, rfl⟩ := Option.map_eq_some_iff.1 h
      have hw := bankAt_eq_some.1 hr
      simp only [regOffset]
      omega
  · rintro rfl
    exact regAt_regOffset r

theorem readOffset_regOffset (s : State) (r : Reg) : readOffset s (regOffset r) = regWord s r := by
  rw [readOffset, regAt_regOffset]

theorem writeOffset_regOffset (s : State) (r : Reg) (v : Word) :
    writeOffset s (regOffset r) v = writeReg s v r := by
  rw [writeOffset, regAt_regOffset]

/-! ### The two steps of HOST -/

theorem exec_rd (o : Word16) (v : Word) (s : State) :
    exec (.rd o v) s = .next { s with rdata := readOffset s o.toNat } := rfl

theorem exec_wr_of_ne_zero {o : Word16} (h : o ≠ 0) (v : Word) (s : State) :
    exec (.wr o v) s = .next (writeOffset s o.toNat v) := if_neg h

/-- A read at a register's offset returns the register's word and changes nothing else. -/
theorem exec_rd_register {o : Word16} {r : Reg} {n : Nat} {s : State} (v : Word) (ho : o.toNat = regOffset r)
    (hn : (regWord s r).toNat = n) :
    ∃ t, exec (.rd o v) s = .next t ∧ t = { s with rdata := t.rdata } ∧ t.rdata.toNat = n := by
  refine ⟨_, exec_rd o v s, rfl, ?_⟩
  rw [ho, readOffset_regOffset]
  exact hn

/-- The offset a record gives for a bank register fits its sixteen bits. -/
theorem toNat_bankOffset (i : Chan) (r : BankReg) :
    (BitVec.ofNat 16 (0x100 + 0x40 * i.val + 4 * bankIndex r)).toNat = regOffset (.bank i r) := by
  have hi := i.isLt
  have hr := bankIndex_lt r
  rw [BitVec.toNat_ofNat, regOffset]
  omega

/-! ### Words as sums of their fields (R22, R23, R261) -/

/-- Fields that do not overlap add up: one below bit k, one a multiple of 2^k. -/
theorem toNat_or_of_lt {x y : Word} {k a : Nat} (hx : x.toNat < 2 ^ k) (hy : y.toNat = 2 ^ k * a) :
    (x ||| y).toNat = x.toNat + 2 ^ k * a := by
  rw [BitVec.toNat_or, hy, Nat.or_comm, ← Nat.two_pow_add_eq_or_of_lt hx, Nat.add_comm]

theorem toNat_append_eq_add {m n : Nat} (hi : BitVec m) (lo : BitVec n) :
    (hi ++ lo).toNat = lo.toNat + 2 ^ n * hi.toNat := by
  rw [BitVec.toNat_append, ← Nat.shiftLeft_add_eq_or_of_lt lo.isLt, Nat.shiftLeft_eq, Nat.mul_comm, Nat.add_comm]

@[simp] theorem toNat_low16 (x : Word16) : (low16 x).toNat = x.toNat := by
  rw [low16, BitVec.toNat_setWidth]
  omega

theorem toNat_flagAt {k : Nat} (hk : k < 32) (b : Bool) : (flagAt k b).toNat = 2 ^ k * b.toNat := by
  cases b with
  | false => rfl
  | true => simp [flagAt, BitVec.toNat_twoPow_of_lt hk]

/-- A flag above all the other fields. -/
theorem toNat_or_flagAt {x : Word} {k : Nat} (hk : k < 32) (hx : x.toNat < 2 ^ k) (b : Bool) :
    (x ||| flagAt k b).toNat = x.toNat + 2 ^ k * b.toNat :=
  toNat_or_of_lt hx (toNat_flagAt hk b)

theorem toNat_low16_or_flagAt (x : Word16) (b : Bool) :
    (low16 x ||| flagAt 16 b).toNat = x.toNat + 2 ^ 16 * b.toNat := by
  rw [toNat_or_flagAt (by decide) (by simpa using x.isLt), toNat_low16]

theorem toNat_statusWord (s : State) :
    (statusWord s).toNat = s.st.code.toNat + 2 ^ 2 * s.calValid.toNat + 2 ^ 3 * (irqLine s).toNat := by
  have hcode : s.st.code.toNat < 4 := by cases s.st <;> decide
  have hbit := s.calValid.toNat_le
  have hcal : (s.st.code ||| flagAt 2 s.calValid).toNat = s.st.code.toNat + 2 ^ 2 * s.calValid.toNat :=
    toNat_or_flagAt (by decide) hcode _
  rw [statusWord, toNat_or_flagAt (by decide) (by omega), hcal]

theorem toNat_resultWord (r : Result) : r.word.toNat = r.code.code.toNat + 2 ^ 8 * r.info.toNat := by
  rw [Result.word, toNat_low16, toNat_append_eq_add]

theorem toNat_modeWord (m : Mode) :
    m.word.toNat = m.n.toNat + 2 ^ 8 * m.static.toNat + 2 ^ 9 * m.shared.toNat + 2 ^ 10 * m.ard.toNat := by
  have hn : (m.n.setWidth 32).toNat = m.n.toNat := by rw [BitVec.toNat_setWidth]; omega
  have hlt := m.n.isLt
  have hstatic := m.static.toNat_le
  have hshared := m.shared.toNat_le
  have hword8 := toNat_or_flagAt (x := m.n.setWidth 32) (k := 8) (by decide) (by omega) m.static
  have hword9 := toNat_or_flagAt (k := 9) (by decide) (by omega) m.shared (x := m.n.setWidth 32 ||| flagAt 8 m.static)
  rw [Mode.word, toNat_or_flagAt (by decide) (by omega), hword9, hword8, hn]

theorem toNat_reqCfgWord (c : Channel) :
    (reqCfgWord c).toNat =
      c.numSamples.toNat + 2 ^ 16 * c.diff.toNat + 2 ^ 17 * c.dac.toNat + 2 ^ 24 * c.gain.toNat := by
  have hlt := c.numSamples.isLt
  have hdiff := c.diff.toNat_le
  have hdac := c.dac.toNat_le
  have hword17 := toNat_low16_or_flagAt c.numSamples c.diff
  have hword24 := toNat_or_flagAt (k := 17) (by decide) (by omega) c.dac (x := low16 c.numSamples ||| flagAt 16 c.diff)
  have hgain : (c.gain.setWidth 32 <<< 24).toNat = 2 ^ 24 * c.gain.toNat := by
    have hlt := c.gain.isLt
    rw [BitVec.toNat_shiftLeft, BitVec.toNat_setWidth, Nat.shiftLeft_eq]
    omega
  rw [reqCfgWord, toNat_or_of_lt (by omega) hgain, hword24, hword17]

theorem toNat_fillWord (c : Channel) : (fillWord c).toNat = c.count.toNat + 2 ^ 16 * c.half.code := by
  rw [fillWord, toNat_low16_or_flagAt]
  cases c.half <;> rfl

/-- Settles O9: register by register, the word as the sum of its fields; STATE and CODE by their codes. -/
theorem globalRegistersRead : Obligations.GlobalRegistersRead := by
  intro v s reads
  have hread (g : GlobalReg) {o : Word16} {n : Nat} (ho : o.toNat = regOffset (.glob g))
      (hn : (globalWord s g).toNat = n) : reads o n := exec_rd_register v ho hn
  refine ⟨hread .status rfl ?state, hread .result rfl ?code, hread .baseClk rfl rfl,
    hread .mode rfl (toNat_modeWord s.mode), hread .onCycles rfl rfl, hread .totalCycles rfl rfl,
    hread .irqStatus rfl (toNat_low16 _), hread .irqMask rfl (toNat_low16 _), hread .errStatus rfl (toNat_low16 _),
    hread .fault rfl (toNat_low16_or_flagAt _ _), hread .actBaseClk rfl rfl,
    hread .actMode rfl (toNat_modeWord s.actMode), hread .chEnable rfl (toNat_low16_or_flagAt _ _),
    hread .calSeOffset rfl (toNat_low16 _), hread .calSeGain rfl rfl, hread .calDiffOffset rfl (toNat_low16 _),
    hread .calDiffGain rfl rfl⟩
  case state =>
    refine (toNat_statusWord s).trans ?_
    cases s.st <;> rfl
  case code =>
    refine (toNat_resultWord s.result).trans ?_
    cases s.result.code <;> rfl

/-- Settles O10: register by register, the word as the sum of its fields. -/
theorem bankRegistersRead : Obligations.BankRegistersRead := by
  intro i v s reads
  have hread (r : BankReg) {n : Nat} (hn : (bankWord (s.chan i) r).toNat = n) : reads (4 * bankIndex r) n :=
    exec_rd_register v (toNat_bankOffset i r) hn
  exact ⟨hread .reqRate rfl, hread .reqCfg (toNat_reqCfgWord _), hread .pingAddr rfl, hread .pongAddr rfl,
    hread .pingLen (toNat_low16 _), hread .pongLen (toNat_low16 _), hread .rxAddr rfl,
    hread .sched (toNat_append_eq_add _ _), hread .achRate rfl, hread .fill (toNat_fillWord _),
    hread .actPingAddr rfl, hread .actPongAddr rfl, hread .actLen (toNat_append_eq_add _ _), hread .actRxAddr rfl,
    hread .actCfg (toNat_low16_or_flagAt _ _)⟩

/-! ### Which offsets can be written (R260, R262) -/

/-- The writable registers: BASE_CLK, MODE and the first seven of each bank. -/
theorem offset_of_writableBits {o : Nat} (h : writableBits o ≠ 0) :
    o = 0x00C ∨ o = 0x010 ∨ ∃ i r, o = regOffset (.bank i r) ∧ bankIndex r < 7 := by
  unfold writableBits at h
  split at h
  case h_1 hr => exact .inl (regAt_eq_some.1 hr)
  case h_2 hr => exact .inr (.inl (regAt_eq_some.1 hr))
  case h_10 => exact absurd rfl h
  all_goals
    rename_i hr
    exact .inr (.inr ⟨_, _, regAt_eq_some.1 hr, by decide⟩)

/-- A register without writable bits is read-only: a write to it, or where no register is, changes nothing. -/
theorem writeOffset_of_writableBits_eq_zero {o : Nat} (h : writableBits o = 0) (s : State) (v : Word) :
    writeOffset s o v = s := by
  unfold writeOffset
  unfold writableBits at h
  cases hr : regAt o with
  | none => rfl
  | some r =>
    rw [hr] at h
    cases r with
    | glob g =>
      cases g with
      | baseClk | mode => simp at h
      | _ => rfl
    | bank i r =>
      have hsame : s.setChan i (s.chan i) = s := by
        simp only [State.setChan, State.chan, Vector.set_getElem_self]
      cases r with
      | reqRate | reqCfg | pingAddr | pongAddr | pingLen | pongLen | rxAddr => simp at h
      | _ => exact hsame

/-- Settles O8: an offset outside the RW registers has no writable bits; of the registers only CMD is among the
offsets said to read 0, and it does. -/
theorem offsetsOutsideTheMapDoNothing : Obligations.OffsetsOutsideTheMapDoNothing := by
  intro o v s
  refine ⟨fun ho hout => ?_, fun hout => ?_⟩
  · have hbits : writableBits o.toNat = 0 := by
      by_contra hbits
      rcases offset_of_writableBits hbits with h | h | ⟨i, r, h, hr⟩
      · omega
      · omega
      · have hi := i.isLt
        simp only [regOffset] at h
        omega
    rw [exec_wr_of_ne_zero ho, writeOffset_of_writableBits_eq_zero hbits]
  · suffices hzero : readOffset s o.toNat = 0 by rw [exec_rd, hzero]
    simp only [← BitVec.toNat_inj, BitVec.ofNat_eq_ofNat, BitVec.reduceToNat] at hout
    cases hr : regAt o.toNat with
    | none => rw [readOffset, hr]
    | some r =>
      have ho := regAt_eq_some.1 hr
      cases r with
      | glob g =>
        obtain ⟨hlt, h14, h15⟩ := globalIndex_bounds g
        simp only [regOffset] at ho
        have hfirst : 0 = globalIndex g := by omega
        obtain rfl : GlobalReg.cmd = g := Option.some.inj (globalAt_eq_some.2 hfirst)
        rw [readOffset, hr]
        rfl
      | bank i r =>
        have hi := i.isLt
        have hlt := bankIndex_lt r
        simp only [regOffset] at ho
        omega

/-! ### The fields of a written word are its bits at their positions (R124, R260) -/

/-- A field of n bits, taken out of a word at bit k and put back there. -/
theorem setWidth_extractLsb'_shiftLeft (v : Word) (k n : Nat) :
    (v.extractLsb' k n).setWidth 32 <<< k = v &&& (BitVec.allOnes n).setWidth 32 <<< k := by
  ext i hi
  simp only [BitVec.getElem_shiftLeft, BitVec.getElem_and, BitVec.getElem_setWidth, BitVec.getLsbD_extractLsb',
    BitVec.getLsbD_allOnes]
  by_cases hk : i < k
  · simp [hk]
  · simp [hk, Nat.add_sub_cancel' (not_lt.1 hk), Bool.and_comm, BitVec.getLsbD_eq_getElem hi]

theorem low16_extractLsb' (v : Word) : low16 (v.extractLsb' 0 16) = v &&& 0x0000FFFF := by
  simpa [low16] using setWidth_extractLsb'_shiftLeft v 0 16

/-- A flag, taken out of a word at bit k and put back there. -/
theorem flagAt_getLsbD (v : Word) (k : Nat) : flagAt k (v.getLsbD k) = v &&& BitVec.twoPow 32 k :=
  (BitVec.and_twoPow v k).symm

theorem modeWord_modeOf (v : Word) : (modeOf v).word = v &&& 0x0000071F := by
  have hn : (v.extractLsb' 0 5).setWidth 32 = v &&& 0x0000001F := by
    simpa using setWidth_extractLsb'_shiftLeft v 0 5
  simp only [modeOf, Mode.word, hn, flagAt_getLsbD, ← BitVec.and_or_distrib_left]
  rfl

theorem reqCfgWord_writeBank (c : Channel) (v : Word) : reqCfgWord (writeBank c v .reqCfg) = v &&& 0xFF03FFFF := by
  have hgain : (v.extractLsb' 24 8).setWidth 32 <<< 24 = v &&& 0xFF000000 := by
    simpa using setWidth_extractLsb'_shiftLeft v 24 8
  simp only [writeBank, reqCfgWord, hgain, low16_extractLsb', flagAt_getLsbD, ← BitVec.and_or_distrib_left]
  rfl

/-! ### Reserved bits read 0 (R124) -/

/-- A field of n bits at bit k has no bit in common with a mask that is 0 there. -/
theorem setWidth_shiftLeft_and {n : Nat} (x : BitVec n) {k : Nat} {m : Word} (h : m.extractLsb' k n = 0) :
    x.setWidth 32 <<< k &&& m = 0 := by
  ext i hi
  simp only [BitVec.getElem_and, BitVec.getElem_shiftLeft, BitVec.getElem_setWidth]
  by_cases hk : i < k
  · simp [hk]
  · have hbit : (m.extractLsb' k n).getLsbD (i - k) = false := by simp [h]
    rw [BitVec.getLsbD_extractLsb', Nat.add_sub_cancel' (not_lt.1 hk), BitVec.getLsbD_eq_getElem hi] at hbit
    by_cases hn : i - k < n
    · simp [show m[i] = false by simpa [hn] using hbit]
    · simp [BitVec.getLsbD_of_ge x _ (not_lt.1 hn)]

theorem low16_and {m : Word} (x : Word16) (h : m.extractLsb' 0 16 = 0) : low16 x &&& m = 0 := by
  simpa [low16] using setWidth_shiftLeft_and x h

theorem flagAt_and {k : Nat} {m : Word} (b : Bool) (h : m.getLsbD k = false) : flagAt k b &&& m = 0 := by
  cases b with
  | false => exact BitVec.zero_and
  | true => rw [flagAt, if_pos rfl, BitVec.and_comm, BitVec.and_twoPow, h]; rfl

theorem modeWord_reserved (m : Mode) : m.word &&& ~~~0x0000071F = 0 := by
  have hn : m.n.setWidth 32 &&& ~~~(0x0000071F : Word) = 0 := by
    simpa using setWidth_shiftLeft_and m.n (k := 0) (m := ~~~0x0000071F) (by decide)
  simp only [Mode.word, BitVec.and_or_distrib_right, hn]
  rw [flagAt_and _ (by decide), flagAt_and _ (by decide), flagAt_and _ (by decide)]
  rfl

theorem reqCfgWord_reserved (c : Channel) : reqCfgWord c &&& ~~~0xFF03FFFF = 0 := by
  simp only [reqCfgWord, BitVec.and_or_distrib_right]
  rw [low16_and _ (by decide), flagAt_and _ (by decide), flagAt_and _ (by decide), setWidth_shiftLeft_and _ (by decide)]
  rfl

/-! ### What a write leaves in the registers -/

/-- The word x after the bits of the mask m have been taken from v (R260). -/
def stored (x v m : Word) : Word := (x &&& ~~~m) ||| (v &&& m)

theorem stored_all (x v : Word) : stored x v 0xFFFFFFFF = v :=
  calc stored x v (BitVec.allOnes 32) = 0#32 ||| v := congrArg₂ (· ||| ·) BitVec.and_zero BitVec.and_allOnes
    _ = v := BitVec.zero_or

theorem stored_none (x v : Word) : stored x v 0 = x :=
  calc stored x v 0 = x ||| 0#32 := congrArg₂ (· ||| ·) BitVec.and_allOnes BitVec.and_zero
    _ = x := BitVec.or_zero

/-- Where the bits outside the mask are reserved, only the written bits remain. -/
theorem stored_of_reserved {x m : Word} (h : x &&& ~~~m = 0) (v : Word) : stored x v m = v &&& m := by
  rw [stored, h]
  exact BitVec.zero_or

theorem stored_low16 (x : Word16) (v : Word) : stored (low16 x) v 0x0000FFFF = low16 (v.extractLsb' 0 16) := by
  rw [stored_of_reserved (low16_and x (by decide)), low16_extractLsb']

theorem stored_modeWord (m : Mode) (v : Word) : stored m.word v 0x0000071F = (modeOf v).word := by
  rw [stored_of_reserved (modeWord_reserved m), modeWord_modeOf]

theorem stored_reqCfgWord (c : Channel) (v : Word) :
    stored (reqCfgWord c) v 0xFF03FFFF = reqCfgWord (writeBank c v .reqCfg) := by
  rw [stored_of_reserved (reqCfgWord_reserved c), reqCfgWord_writeBank]

/-- The register written to takes the written bits of its mask. -/
theorem regWord_writeReg_same {o : Nat} {r : Reg} (hr : regAt o = some r) (s : State) (v : Word) :
    regWord (writeReg s v r) r = stored (regWord s r) v (writableBits o) := by
  unfold writableBits
  rw [hr]
  cases r with
  | glob g =>
    cases g with
    | baseClk => exact (stored_all _ v).symm
    | mode => exact (stored_modeWord s.mode v).symm
    | _ => exact (stored_none _ v).symm
  | bank i r =>
    simp only [regWord, writeReg, chan_setChan_same]
    cases r with
    | reqRate | pingAddr | pongAddr | rxAddr => exact (stored_all _ v).symm
    | reqCfg => exact (stored_reqCfgWord _ v).symm
    | pingLen | pongLen => exact (stored_low16 _ v).symm
    | _ => exact (stored_none _ v).symm

theorem bankWord_writeBank_other {r r' : BankReg} (h : r' ≠ r) (c : Channel) (v : Word) :
    bankWord (writeBank c v r) r' = bankWord c r' := by
  cases r with
  | reqRate | reqCfg | pingAddr | pongAddr | pingLen | pongLen | rxAddr => cases r' <;> first | contradiction | rfl
  | _ => rfl

/-- Every other register reads as before. -/
theorem regWord_writeReg_other {r r' : Reg} (h : r' ≠ r) (s : State) (v : Word) :
    regWord (writeReg s v r) r' = regWord s r' := by
  cases r with
  | glob g =>
    cases g with
    | baseClk | mode =>
      cases r' with
      | glob g' => cases g' <;> first | contradiction | rfl
      | bank _ _ => rfl
    | _ => rfl
  | bank i r =>
    cases r' with
    | glob g' => cases g' <;> rfl
    | bank j r' =>
      simp only [regWord, writeReg, chan_setChan]
      split_ifs with hj
      · obtain rfl := hj
        exact bankWord_writeBank_other (fun hr => h (congrArg (Reg.bank j) hr)) _ v
      · rfl

theorem readOffset_writeOffset_same (s : State) (o : Nat) (v : Word) :
    readOffset (writeOffset s o v) o = stored (readOffset s o) v (writableBits o) := by
  cases hr : regAt o with
  | none =>
    have hbits : writableBits o = 0 := by rw [writableBits, hr]
    rw [writeOffset_of_writableBits_eq_zero hbits, hbits, stored_none]
  | some r =>
    have hword := regWord_writeReg_same hr s v
    obtain rfl := regAt_eq_some.1 hr
    rw [writeOffset_regOffset, readOffset_regOffset, readOffset_regOffset, hword]

theorem readOffset_writeOffset_other {o o' : Nat} (h : o' ≠ o) (s : State) (v : Word) :
    readOffset (writeOffset s o v) o' = readOffset s o' := by
  cases hr : regAt o with
  | none => rw [writeOffset, hr]
  | some r =>
    cases hr' : regAt o' with
    | none => rw [readOffset, readOffset, hr']
    | some r' =>
      obtain rfl := regAt_eq_some.1 hr
      obtain rfl := regAt_eq_some.1 hr'
      rw [writeOffset_regOffset, readOffset_regOffset, readOffset_regOffset,
        regWord_writeReg_other (ne_of_apply_ne regOffset h)]

/-- Settles O7: at the offset itself, at every other one, and in the rest of the state. -/
theorem writeStoresTheDefinedBits : Obligations.WriteStoresTheDefinedBits := by
  intro o v s ho
  exact ⟨_, exec_wr_of_ne_zero ho v s, readOffset_writeOffset_same s o.toNat v,
    fun _ h => readOffset_writeOffset_other h s v, writeOffset_eraseStaging s o.toNat v⟩

end Sys2Proof.Machine
end

section
/-! PROOFS. The reset event (R310): one update of the whole state, the one `DEINIT` also ends with (R50, R218). -/

namespace Sys2Proof.Machine

theorem exec_reset (s : State) : exec .reset s = .next s.resetRegisters := rfl

/-- Settles O25: `resetRegisters` replaces all but MEM, the traces and the model's own fields, from any STATE. -/
theorem resetEventKeepsMemoryAndTraces : Obligations.ResetEventKeepsMemoryAndTraces := by
  intro s
  rw [exec_reset]
  rfl

end Sys2Proof.Machine
end
